-- ==== Sys2Proof/Word.lean ====
section
/-! DEFINITION. The word types of the machine and the storage units the spec sizes (00_scope.md P1 to P7, R5). -/

namespace Sys2Proof

/-- XLEN = 64 bits: general registers, LR, CTR, TAR, pc, effective addresses (00_scope.md P2, decision D1). -/
abbrev Word := BitVec 64

/-- A byte is 8 bits (00_scope.md R5; PRESUMED by the spec, 93 G2). -/
abbrev Byte := BitVec 8

/-- The condition register word, CR[31:0] (10_state.md R11). -/
abbrev CrWord := BitVec 32

/-- An instruction word, insn[31:0], LSB-0 (30_encoding.md R33). -/
abbrev InsnWord := BitVec 32

/-- A vector-scalar register, 128 bits (10_state.md R15). -/
abbrev Quad := BitVec 128

/-- 00_scope.md R5: a word is 4 bytes. -/
def wordBytes : Nat := 4
/-- 00_scope.md R5: a doubleword is 8 bytes. -/
def doublewordBytes : Nat := 8
/-- 00_scope.md R5, P16: a quadword is 16 bytes, the alignment of r1. -/
def quadwordBytes : Nat := 16
/-- 30_encoding.md R33: every instruction is 32 bits long. -/
def insnBytes : Nat := 4
/-- 00_scope.md P14, decision D16: the back-chain "word" is pointer-sized. -/
def backchainBytes : Nat := 8
/-- 20_memory.md R25: the address space has 2^XLEN bytes. -/
def addressSpace : Nat := 2 ^ 64

end Sys2Proof
end

