-- ==== Sys2Proof/Config.lean ====
section
/-! DEFINITION. What is fixed for a run and what the spec leaves open: the parameters P8 to P22 of 00_scope.md section 4 as ONE record of plain data
(State carries it, no operation writes it; log entry 1), and the free values (log entry 2), which have no body. -/

namespace Sys2Proof

/-! ## Free values: what the spec writes `draw(S)` (00_scope.md section 5.2) -/

/-- `draw(all 64-bit values)`, one value for each value of the draw counter of State. -/
opaque Config.drawWord : Nat → Word

/-- A draw of one byte: what a byte below the stack pointer reads as (60_exceptions.md R113), by the draw counter. -/
opaque Config.drawByte : Nat → Byte

/-- What a byte of memory holds that nothing has written: arbitrary and the same at every read (10_state.md R24), by memory generation and address. -/
opaque Config.arbitraryByte : Nat → Nat → Byte

/-- Arbitrary contents of what a BaseISA keeps for itself, by the draw counter (log entries 12, 42). -/
opaque Config.drawNats : Nat → List Nat

/-! ## The parameters' types -/

/-- P10: the processors the source names, and any other OpenPOWER-compliant one. -/
inductive Processor where
  | power8
  | power9
  | otherOpenPower
  deriving DecidableEq, Repr

/-- P11: how `mfocr` fills the bits the ISA leaves undefined (41_condition_register_mfocr.md R87). -/
inductive MfocrMode where
  | zero
  | arch
  | p8Replicate
  | abiAny
  | union
  deriving DecidableEq, Repr

/-- P12: the order of the bytes of a value in memory (20_memory.md R26). -/
inductive ByteOrder where
  | be
  | le
  deriving DecidableEq, Repr

/-- P9: the width of FPSCR on a processor without hardware decimal floating point (decision D20). -/
inductive FpscrWidth where
  | w32
  | w64
  deriving DecidableEq, Repr

/-- P21: what the contract predicates say of the Limited-access registers and fields (40_linkage_general_registers.md R44). -/
inductive LimitedAccessPolicy where
  | unsaid
  | nonvolatileLike
  deriving DecidableEq, Repr

/-- The bit fields of FPSCR the source names (10_state.md R19). -/
inductive FpscrField where
  | ve
  | oe
  | ue
  | ze
  | xe
  | rn
  | drn
  deriving DecidableEq, Repr

/-- What the class Limited access applies to (40_linkage_general_registers.md R44): DSCR whole (R61), the seven fields of FPSCR (42_fp_vector_registers_parameters.md R92, R101), and VSCR's field NJ. -/
inductive LimitedField where
  | dscr
  | fpscr (f : FpscrField)
  | vscrNJ
  deriving DecidableEq, Repr

/-- The two entry kinds of a function with dual entry points, GLOBAL and NONGLOBAL (40_linkage_general_registers.md R47). -/
inductive EntryKind where
  | globalEntry
  | nonglobalEntry
  deriving DecidableEq, Repr

/-- What a region of MEMMAP (P18) holds (20_memory.md R25). -/
inductive RegionKind where
  | code
  | stack
  | toc
  | data
  deriving DecidableEq, Repr

/-- One allocated region of MEMMAP (P18): `size` bytes from `base`. -/
structure Region where
  kind : RegionKind
  base : Nat
  size : Nat
  deriving DecidableEq, Repr

/-- What the program gives for one function: its module (P22), P19, P20, and the Limited-access fields whose change is its documented purpose (R44). -/
structure FnInfo where
  id : Nat
  module : Nat
  needsEnvPointer : Bool
  needsFramePointer : Bool
  changesOnPurpose : List LimitedField
  deriving DecidableEq, Repr

/-- The operands of the event `Call` (40_linkage_general_registers.md R45): caller g, callee f, target, kind, ret,
and the environment pointer when the function is entered in a way to initialise it (R73). DESIGN CHOICE (log entry 3): a call site is part of the program, so that every Call made at one
address has the same operands; a call through a function pointer is written with the function it reaches; and the caller is the one listed, whichever function is running. -/
structure CallSite where
  caller : Nat
  callee : Nat
  target : Word
  kind : EntryKind
  ret : Word
  env : Option Word
  deriving DecidableEq, Repr

/-- The steps the spec gives by rule and not by an instruction: the two ABI-level events (R45, R46), the caller's save and reload of r2 (R64),
and taking or giving back a stack frame (R75 to R79). The instructions that realise them belong to BaseISA, so the program says at which address one stands (log entry 3).
`callOpaque` is a whole call whose callee's text is not in the program: it comes back with what R81 lets the caller assume. -/
inductive Action where
  | call (c : CallSite)
  | callOpaque (c : CallSite)
  | ret (f : Nat)
  | saveToc
  | reloadToc
  | allocFrame (size : Word)
  | freeFrame (size : Word)
  deriving DecidableEq, Repr

/-- One use of a value derived from the TOC pointer together with the `@l` operator (R68): the address of the instruction, the function it stands in,
and the definitions that reach it (R70). -/
structure TocUse where
  addr : Nat
  fn : Nat
  defs : List Nat
  deriving DecidableEq, Repr

/-- The parameters of a run. `mfocrMode = none` means the mode follows from `processor`; `processor = none` means the processor is not fixed. -/
structure Params where
  /-- P10 -/
  processor : Option Processor
  /-- P11 -/
  mfocrMode : Option MfocrMode
  /-- P12 -/
  byteOrder : ByteOrder
  /-- P8 -/
  hasDfpHw : Bool
  /-- P9, where P8 is false -/
  fpscrWidthNoDfp : FpscrWidth
  /-- P13 -/
  backchainsMaintained : Bool
  /-- P15, a multiple of 8 (decision D17) -/
  tocSaveOffset : Word
  /-- P18 -/
  memmap : List Region
  /-- P21 -/
  limitedAccessPolicy : LimitedAccessPolicy
  /-- P19, P20, P22: the functions of the program and their modules -/
  fns : List FnInfo
  /-- P22: the pairs (g, f) for which g cannot know f statically -/
  unknownCallPoints : List (Nat × Nat)
  /-- `TOCLegal` (R67): the TOC base of each module -/
  tocBases : List (Nat × Word)
  /-- where in the program text an `Action` stands, by address -/
  actions : List (Nat × Action)
  /-- the program text's uses of TOC-derived values (R68, R70) -/
  tocUses : List TocUse
  deriving DecidableEq, Repr

end Sys2Proof
end

