-- ==== Sys2Proof/Syntax.lean ====
section
/-! DEFINITION. The instructions: one constructor for each row of spec/opcode_table.json (one row). -/

namespace Sys2Proof

/-- The instruction the source names (30_encoding.md R34, R35; 41_condition_register_mfocr.md R83). -/
inductive Instr where
  /-- `mfocr RT,FXM`: all 32 values of RT and all 256 of FXM are encodable. -/
  | mfocr (rt : Fin 32) (fxm : BitVec 8)
  deriving DecidableEq, Repr

end Sys2Proof
end

