-- ==== Sys2Proof/WellFormed.lean ====
section
/-! DEFINITION. Checks, each a Bool: the valid form of an instruction (30_encoding.md R35) and the well-formedness of a run's parameters. -/

namespace Sys2Proof

/-- R35: `mfocr` is in its valid form when exactly one bit of FXM is 1. An instruction in another form still decodes and runs (R37). -/
def Instr.validForm : Instr → Bool
  | .mfocr _ fxm => (List.range 8).countP (fun k => fxm.getLsbD k) == 1

/-- Decision D17: TOC_SAVE_OFFSET is a multiple of 8. -/
def Params.tocOffsetOk (p : Params) : Bool := p.tocSaveOffset.toNat % doublewordBytes == 0

/-- R25: every region lies in the address space of 2^XLEN bytes. -/
def Params.memmapOk (p : Params) : Bool := p.memmap.all fun r => r.base + r.size ≤ addressSpace

/-- P22: one module for each function, one TOC base for each module. -/
def Params.fnsOk (p : Params) : Bool :=
  decide ((p.fns.map FnInfo.id).Nodup) && decide ((p.tocBases.map Prod.fst).Nodup)

/-- Which MFOCR_MODE may be given (P11) for a fixed PROCESSOR (P10): one whose values R85 allows on POWER8, R84 on any other; UNION, which has them all and more, with every one.
R87 gives the mode that follows from PROCESSOR, not how the two parameters combine: DESIGN CHOICE (log entry 33). -/
def Params.modeOk (p : Params) : Bool :=
  match p.processor, p.mfocrMode with
  | _, none => true
  | none, some _ => true
  | some .power8, some m => m == .p8Replicate || m == .union
  | some .power9, some m => m != .p8Replicate
  | some .otherOpenPower, some m => m != .p8Replicate

/-- The call an action performs, if it performs one. -/
def Action.site? : Action → Option CallSite
  | .call c => some c
  | .callOpaque c => some c
  | .ret _ => none
  | .saveToc => none
  | .reloadToc => none
  | .allocFrame _ => none
  | .freeFrame _ => none

/-- R21: code addresses are multiples of 4. -/
def CallSite.aligned (c : CallSite) : Bool := c.target.toNat % insnBytes == 0 && c.ret.toNat % insnBytes == 0

/-- The module of a function, where the program gives it (P22). -/
def Params.moduleOf (p : Params) (f : Nat) : Option Nat := (p.fns.find? (fun i => i.id == f)).map FnInfo.module

/-- P22 `SameModule(g, f)`: both functions have a module and it is the same. -/
def Params.sameModule (p : Params) (g f : Nat) : Bool :=
  match p.moduleOf g, p.moduleOf f with
  | some m, some n => m == n
  | some _, none => false
  | none, some _ => false
  | none, none => false

/-- P22 `MayLeaveModule(g, f)` (R45): in different modules, or g cannot know f statically. -/
def Params.mayLeaveModule (p : Params) (g f : Nat) : Bool :=
  !p.sameModule g f || p.unknownCallPoints.contains (g, f)

/-- R47: NONGLOBAL entry is used only by a caller in the same module that knows the callee statically. -/
def Params.entryKindOk (p : Params) (c : CallSite) : Bool :=
  match c.kind with
  | .globalEntry => true
  | .nonglobalEntry => !p.mayLeaveModule c.caller c.callee

/-- The actions stand at distinct instruction addresses; their calls go to and come back at instruction addresses, with an entry kind R47 allows.
That an action stands where MEMMAP says code is not asked (DESIGN CHOICE, log entry 3). -/
def Params.actionsOk (p : Params) : Bool :=
  decide ((p.actions.map Prod.fst).Nodup) &&
  p.actions.all (fun e => e.1 % insnBytes == 0 && decide (e.1 < addressSpace)) &&
  p.actions.all (fun e => match e.2.site? with
    | some c => c.aligned && p.entryKindOk c
    | none => true)

/-- R70: every definition that reaches a TOC-derived use is the same one. -/
def TocUse.defsAgree (u : TocUse) : Bool :=
  match u.defs with
  | [] => true
  | d :: ds => ds.all (· == d)

/-- R70, a premise on the program text. -/
def Params.textOk (p : Params) : Bool := p.tocUses.all TocUse.defsAgree

/-- All the checks on the parameters of a run. -/
def Params.wf (p : Params) : Bool :=
  p.tocOffsetOk && p.memmapOk && p.fnsOk && p.modeOk && p.actionsOk && p.textOk

end Sys2Proof
end

