-- ==== Sys2Proof/Decode.lean ====
section
/-! DEFINITION. Decoding, total on any word and any bytes, rejecting by name; the encoder; byte order of an instruction word; assembler text (30_encoding.md). -/

namespace Sys2Proof

/-- Why bits are no instruction of this spec. -/
inductive Undecodable where
  /-- R36: the `mfocr` layout with `insn[11]` or `insn[0]` set. -/
  | reservedBits (w : InsnWord)
  /-- R38: any other word; it belongs to BaseISA. -/
  | outsideSpec (w : InsnWord)
  /-- R33: fewer than 4 bytes are no instruction. -/
  | tooShort
  deriving DecidableEq, Repr

/-- R34: `match`. -/
def mfocrMatch : InsnWord := 0x7C100026#32
/-- R34: `mask`, with the two reserved bits. -/
def mfocrMask : InsnWord := 0xFC100FFF#32
/-- R36: the mask without the reserved bits `insn[11]` and `insn[0]`. -/
def mfocrMaskOpen : InsnWord := 0xFC1007FE#32

/-- R35: RT = insn[25:21]. -/
def rtField (w : InsnWord) : Fin 32 := (w.extractLsb' 21 5).toFin
/-- R35: FXM = insn[19:12]. -/
def fxmField (w : InsnWord) : BitVec 8 := w.extractLsb' 12 8

/-- R34 to R38. -/
def decodeWord (w : InsnWord) : Except Undecodable Instr :=
  if w &&& mfocrMask = mfocrMatch then .ok (.mfocr (rtField w) (fxmField w))
  else if w &&& mfocrMaskOpen = mfocrMatch then .error (.reservedBits w)
  else .error (.outsideSpec w)

/-- The `n` bytes of a value from the lowest address up (20_memory.md R26). -/
def bytesOf (o : ByteOrder) (n : Nat) (v : Nat) : List Byte :=
  let little := (List.range n).map fun i => BitVec.ofNat 8 (v >>> (8 * i))
  match o with
  | .le => little
  | .be => little.reverse

/-- Little-endian value of a list of bytes. -/
def joinLittle : List Byte → Nat
  | [] => 0
  | b :: bs => b.toNat + 256 * joinLittle bs

/-- The value of bytes read from the lowest address up (20_memory.md R26). -/
def joinBytes (o : ByteOrder) (bs : List Byte) : Nat :=
  match o with
  | .le => joinLittle bs
  | .be => joinLittle bs.reverse

/-- Decode the instruction at the front of a list of bytes, with the rest of the list. -/
def decodeBytes (o : ByteOrder) : List Byte → Except Undecodable (Instr × List Byte)
  | b0 :: b1 :: b2 :: b3 :: rest =>
    (decodeWord (BitVec.ofNat 32 (joinBytes o [b0, b1, b2, b3]))).map fun i => (i, rest)
  | [] => .error .tooShort
  | [_] => .error .tooShort
  | [_, _] => .error .tooShort
  | [_, _, _] => .error .tooShort

/-- The instruction word the host's number stands for: its bits above `nbits` are 0 (spec/opcode_table.json). -/
def tableWord (nbits w : Nat) : InsnWord := BitVec.ofNat 32 (w % 2 ^ nbits)

/-- The instruction the decoder reads from a word of the opcode table, laid out in memory (either byte order gives the same instruction). -/
def decodeTableWord (nbits w : Nat) : Option Instr :=
  match decodeBytes .be (bytesOf .be insnBytes (tableWord nbits w).toNat) with
  | .ok r => some r.1
  | .error _ => none

/-- R34: insn = 0x7C100026 | (RT << 21) | (FXM << 12). -/
def encode : Instr → InsnWord
  | .mfocr rt fxm => mfocrMatch ||| (BitVec.ofNat 32 rt.val <<< 21) ||| (fxm.setWidth 32 <<< 12)

/-- The bytes of an encoded instruction in memory. -/
def encodeBytes (o : ByteOrder) (i : Instr) : List Byte := bytesOf o insnBytes (encode i).toNat

/-- One hexadecimal digit. -/
def hexDigit (n : Nat) : Char := "0123456789abcdef".toList.getD n '0'

/-- R39: the operand syntax `mfocr RT,FXM`, the mask as two hexadecimal digits. -/
def assemblerText : Instr → String
  | .mfocr rt fxm =>
    "mfocr r" ++ toString rt.val ++ ",0x" ++ String.ofList [hexDigit (fxm.toNat / 16), hexDigit (fxm.toNat % 16)]

/-- R40: `sym@l`, the low-order 16 bits of the value of an expression. -/
def lowHalf (v : Word) : BitVec 16 := v.setWidth 16

end Sys2Proof
end

