-- ==== Sys2Proof/Machine/State.lean ====
section
/-! DEFINITION. The state of the machine as plain data (10_state.md), the reasons a step can stop, the marks a breach of the convention leaves
(60_exceptions.md R111), and the state after reset (R24; log entries 4 to 6). -/

namespace Sys2Proof.Machine

/-- The registers one thread has for itself (10_state.md R6 to R21; R22: every thread has its own copy). -/
structure Regs where
  /-- r0 to r31 (R6) -/
  gpr : Vector Word 32
  /-- R7 -/
  lr : Word
  /-- R8 -/
  ctr : Word
  /-- R9 -/
  tar : Word
  /-- R10: an opaque value; the width 64 is PRESUMED (log entry 7) -/
  xer : Word
  /-- R13: an opaque value; the width 64 is PRESUMED (log entry 7) -/
  dscr : Word
  /-- R14: 32 bits, PRESUMED by the spec (93 G12) -/
  vrsave : BitVec 32
  /-- CR0 to CR7 in one word (R11) -/
  cr : CrWord
  /-- vsr0 to vsr63; f and v are views of these (R15 to R18) -/
  vsr : Vector Quad 64
  /-- R19; where FPSCR_WIDTH is 32 the upper half is 0 -/
  fpscr : BitVec 64
  /-- R20 -/
  vscr : BitVec 32
  /-- R21: the address of the instruction being executed -/
  pc : Word
  deriving DecidableEq, Repr

/-- The requirement of the convention that a mark names. -/
inductive AbiRule where
  /-- R76: r1 is no multiple of 16 -/
  | spMisaligned
  /-- R79: r1 at `v`, above its value on entry to the running function -/
  | spRaised (v : Word)
  /-- R75: r1 does not point to the lowest allocated frame -/
  | spNotFrame
  /-- R77, D26: the stack would wrap below address 0 -/
  | spWraps
  /-- D26: a frame that is not whole in MEMMAP's stack region -/
  | spLeavesStack
  /-- R78: where back chains are maintained, a step that leaves the chain broken; R111 does not list this breach, the mark is the model's (log entry 40) -/
  | backChainBroken
  /-- R64, 93 U18: a function calls or returns, and r2 has not been reloaded after its last call that may have left the module; R111 does not list this breach (log entry 43) -/
  | tocNotReloaded
  /-- R44 under NONVOLATILE_LIKE: a Call with a changed Limited-access field -/
  | callLimitedAccess
  /-- R80, R49: r1 at the Return -/
  | returnSp
  /-- R80, R76, R79: r1 at some moment of the execution -/
  | returnSpMoment
  /-- R80, R66 -/
  | returnToc
  /-- R80, R43: r13 changed or written -/
  | returnThreadPointer
  /-- R80, R55 -/
  | returnGpr
  /-- R80, R82 -/
  | returnCr
  /-- R80, R91 -/
  | returnFpr
  /-- R80, R105 -/
  | returnVr
  /-- R44 under NONVOLATILE_LIKE -/
  | returnLimitedAccess
  /-- R80, R43: TAR or VRSAVE read or written -/
  | returnSystemRegister
  /-- R80, R45: a Call of the function's own that failed a `require` -/
  | returnOwnCall
  /-- R68, R71: no TOC pointer of the function in r2 at an `@l` use -/
  | textTocUnavailable
  /-- R70, R71: reaching definitions that differ -/
  | textDefinitionsDiffer
  deriving DecidableEq, Repr

/-- The `require` lines of a Call (R45). -/
inductive CallRule where
  /-- R76: r1 is no multiple of 16 -/
  | spMisaligned
  /-- R67: no legal TOC pointer in r2 -/
  | tocIllegal
  /-- R64: a Call that may leave the module, r2 not saved in the caller's frame -/
  | tocNotSaved
  /-- R74: a GLOBAL Call with r12 not the target -/
  | entryAddress
  deriving DecidableEq, Repr

/-- The Reserved registers (R43). -/
inductive ReservedRegister where
  | r13
  | tar
  | vrsave
  deriving DecidableEq, Repr

/-- A recorded breach, the spec's `refuse(abi_violation)` and `refuse(reserved_register)` (R111): the processor executes the instruction like any other
and the run is marked. -/
inductive Breach where
  | abiViolation (why : AbiRule)
  /-- a `require` of R45, an `abi_violation` too; `depth` is how many functions were entered and not returned, which says whose Call it was (R80) -/
  | failedCall (why : CallRule) (depth : Nat)
  | reservedRegister (r : ReservedRegister)
  deriving DecidableEq, Repr

/-- R23: the further state of a BaseISA (a reservation, buffers, translations, whatever it needs), as numbers whose meaning is its own: one list for a thread,
one for all of them (log entry 42). -/
structure BaseState where
  own : List Nat
  shared : List Nat
  deriving DecidableEq, Repr

/-- A function that has been entered and has not returned (R45): the registers just before the Call; `entry(f)`, the state at the entry: registers, memory and BaseISA's
further state; and how many breaches the run had recorded then. -/
structure Activation where
  caller : Nat
  callee : Nat
  kind : EntryKind
  ret : Word
  env : Option Word
  pre : Regs
  entry : Regs
  entryMem : List Host.Cell
  entryMemGen : Nat
  entryBase : BaseState
  marksAtEntry : Nat
  deriving DecidableEq, Repr

/-- `exit(f)` (R46), the state at the Return: the activation that returned, the registers, the memory and BaseISA's further state then. -/
structure Exit where
  activation : Activation
  regs : Regs
  mem : List Host.Cell
  memGen : Nat
  base : BaseState
  deriving DecidableEq, Repr

/-- One thread: its registers, and what the convention's rules speak of for it (R22, R115). -/
structure Thread where
  regs : Regs
  /-- the thread pointer system software gave it (R54, R118 ThreadPointer) -/
  threadPtr : Word
  /-- addresses of the allocated stack frames, the lowest first (R75, R77) -/
  frames : List Word
  /-- functions entered and not returned, the running one first -/
  activations : List Activation
  /-- functions returned, the latest first -/
  exits : List Exit
  /-- the run's marks, the latest first; never cleared (R111) -/
  breaches : List Breach
  /-- the running function has made a call that may have left the module and has not reloaded r2 since (R64, 93 U18; log entry 43) -/
  reloadOwed : Bool
  /-- the further state a BaseISA keeps for this thread (R23) -/
  baseOwn : List Nat
  deriving DecidableEq, Repr

/-- Why a machine stops with a fault. -/
inductive Fault where
  /-- R110, decision D7: an exception of the open parameter BaseISA ends the run. Raised by an instruction of a BaseISA that `stepWith` is given, by nothing in `step`. Safe. -/
  | baseException
  deriving DecidableEq, Repr

/-- Why a step has no meaning. All are safe: the model stops where the hardware goes on. -/
inductive Refusal where
  /-- An instruction with no meaning yet; raised by no arm of exec. Safe. -/
  | notModelled (mnemonic : String)
  /-- R21, D2: pc is no multiple of 4; raised by the fetch, and by a BaseISA step that would leave pc so (log entries 14, 18). Safe. -/
  | fetchMisaligned
  /-- R21, D2: a fetch that would wrap past 2^XLEN - 4; raised by the fetch. Safe. -/
  | fetchWraps
  /-- R31: no program text stands at pc: a byte MEMMAP does not call code, or one the program does not give (log entry 32); raised by the fetch. Safe. -/
  | noProgramText
  /-- R36: `insn[11]` or `insn[0]` set; raised by the step. Safe. -/
  | reservedBits (w : InsnWord)
  /-- R38: a word that is no `mfocr` and that BaseISA does not know either; raised by the step. Safe. -/
  | outsideSpec (w : InsnWord)
  /-- R28, D4: a slot access at an address that is no multiple of 8; raised by the slot accesses, an instruction of BaseISA's among them. Safe. -/
  | slotMisaligned
  /-- An access to an address MEMMAP does not allocate; raised by MemRead and MemWrite. MEMMAP is R32's and D6's; that such an access stops is the model's choice (log entry 38). Safe. -/
  | unallocated
  /-- R31, D5: a write to an address that holds code; raised by MemWrite. Safe. -/
  | writeToCode
  /-- R46, D27: a Return of a function that is not the running one has no entry(f); raised by Return. Safe. -/
  | notNormalReturn
  deriving DecidableEq, Repr

/-- The machine. `th` is the running thread and `parked` the others (R22; log entries 23, 37); memory is shared (R25). -/
structure State where
  th : Thread
  parked : List Thread
  /-- the bytes of memory whose value is known, addresses strictly rising -/
  mem : List Host.Cell
  /-- MODEL'S OWN: which arbitrary contents the bytes not listed in `mem` have (log entry 5) -/
  memGen : Nat
  /-- the further state a BaseISA keeps for all threads (R23) -/
  baseShared : List Nat
  /-- MODEL'S OWN: how many free values have been drawn (log entry 2) -/
  draws : Nat
  /-- the parameters of the run; written by no operation (log entry 1) -/
  params : Params
  deriving DecidableEq, Repr

/-- The answer of a step. -/
abbrev Result := Host.Outcome State Fault Refusal

/-- DESIGN CHOICE (log entry 4): the spec gives no reset value of any register (R24); each is 0. -/
def Regs.reset : Regs where
  gpr := Vector.replicate 32 0
  lr := 0
  ctr := 0
  tar := 0
  xer := 0
  dscr := 0
  vrsave := 0
  cr := 0
  vsr := Vector.replicate 64 0
  fpscr := 0
  vscr := 0
  pc := 0

/-- DESIGN CHOICE (log entries 4, 42, 43): the first frame, which system software sets up (R119), is at r1's reset value, BaseISA's further state is empty, and no reload of r2 is owed. -/
def Thread.reset : Thread where
  regs := Regs.reset
  threadPtr := 0
  frames := [0]
  activations := []
  exits := []
  breaches := []
  reloadOwed := false
  baseOwn := []

/-- DESIGN CHOICE (log entry 6): the parameters a run has where nothing else is given: processor not fixed, so UNION (R87); the whole space allocated and usable as stack. -/
def Params.reset : Params where
  processor := none
  mfocrMode := none
  byteOrder := .le
  hasDfpHw := true
  fpscrWidthNoDfp := .w64
  backchainsMaintained := false
  tocSaveOffset := 24
  memmap := [⟨.stack, 0, addressSpace⟩]
  limitedAccessPolicy := .unsaid
  fns := []
  unknownCallPoints := []
  tocBases := []
  actions := []
  tocUses := []

/-- The machine right after reset: memory unspecified (nothing listed), every register at the value log entry 4 names.
DESIGN CHOICE (log entry 37): one thread exists and none is parked; how threads start is not in the source (R115), and no operation of the model starts one.
BaseISA's further state is empty (DESIGN CHOICE, log entry 42). -/
def State.reset : State where
  th := Thread.reset
  parked := []
  mem := []
  memGen := 0
  baseShared := []
  draws := 0
  params := Params.reset

end Sys2Proof.Machine
end

