-- ==== Sys2Proof/Machine/Ops.lean ====
section
/-! DEFINITION. The named operations over registers, memory, the stack pointer and the run's marks. Everything that reads or writes state goes through these. -/

namespace Sys2Proof.Machine

/-! ## Registers of one thread -/

/-- General register `ri` (R6). -/
def Regs.x (r : Regs) (i : Fin 32) : Word := r.gpr[i.val]

/-- Write of general register `ri`; every register of the file is an ordinary one (R6, R35). -/
def Regs.setX (r : Regs) (i : Fin 32) (v : Word) : Regs := { r with gpr := r.gpr.set i.val v }

/-- Vector-scalar register `vsr i` (R15). -/
def Regs.vs (r : Regs) (i : Fin 64) : Quad := r.vsr[i.val]

/-- Write of a vector-scalar register, all 128 bits. -/
def Regs.setVs (r : Regs) (i : Fin 64) (v : Quad) : Regs := { r with vsr := r.vsr.set i.val v }

/-- `vsr i` for the registers 0 to 31, the classic floating-point half of the file (R16). -/
def fprHome (i : Fin 32) : Fin 64 := ⟨i.val, by omega⟩

/-- R17: v[N] is the whole of vsr[32+N]. -/
def vrHome (i : Fin 32) : Fin 64 := ⟨32 + i.val, by omega⟩

/-- R16: f[N] = vsr[N][127:64]. -/
def Regs.f (r : Regs) (i : Fin 32) : Word := (r.vs (fprHome i)).extractLsb' 64 64

/-- R93: the right half vsr[N][63:0] of a register whose left half is f[N]. -/
def Regs.vsrRight (r : Regs) (i : Fin 32) : Word := (r.vs (fprHome i)).extractLsb' 0 64

/-- R17: v[N] = vsr[32+N]. -/
def Regs.v (r : Regs) (i : Fin 32) : Quad := r.vs (vrHome i)

/-! ## The running thread -/

def State.regs (s : State) : Regs := s.th.regs

def State.setRegs (s : State) (r : Regs) : State := { s with th := { s.th with regs := r } }

def State.x (s : State) (i : Fin 32) : Word := s.th.regs.x i

def State.pc (s : State) : Word := s.th.regs.pc

/-- pc <- target. -/
def State.setPc (s : State) (t : Word) : State := s.setRegs { s.regs with pc := t }

/-- pc <- pc + 4 modulo 2^XLEN (R21). -/
def State.advance (s : State) : State := s.setPc (s.pc + 4)

/-- Record marks; no operation removes one (R111). -/
def State.markAll (s : State) (bs : List Breach) : State := { s with th := { s.th with breaches := bs ++ s.th.breaches } }

def State.markAbi (s : State) (rs : List AbiRule) : State := s.markAll (rs.map Breach.abiViolation)

def State.markReserved (s : State) (r : ReservedRegister) : State := s.markAll [.reservedRegister r]

/-- BaseISA's further state (R23), as the running thread sees it. -/
def State.baseState (s : State) : BaseState := { own := s.th.baseOwn, shared := s.baseShared }

def State.setBaseState (s : State) (f : BaseState) : State := { s with th := { s.th with baseOwn := f.own }, baseShared := f.shared }

/-- `n` draws have been used. -/
def State.drawn (s : State) (n : Nat) : State := { s with draws := s.draws + n }

/-- Whether the running function owes a reload of r2 (R64; log entry 43). -/
def State.setReloadOwed (s : State) (b : Bool) : State := { s with th := { s.th with reloadOwed := b } }

/-- A rule's name if its requirement does not hold. -/
def failing {α : Type} (ok : Bool) (r : α) : List α := if ok then [] else [r]

/-! ## The stack pointer (R75 to R79) -/

/-- r1's value on entry to the running function (R79). -/
def Thread.entrySp (t : Thread) : Option Word := t.activations.head?.map fun a => a.entry.x 1

/-- R79: r1 is not above its entry value; nothing is asked where no function has been entered. -/
def Thread.spNotRaised (t : Thread) (v : Word) : Bool :=
  match t.entrySp with
  | none => true
  | some e => decide (v.toNat ≤ e.toNat)

/-- R76: a multiple of 16. -/
def quadAligned (v : Word) : Bool := v.toNat % quadwordBytes == 0

/-- What is breached when r1 is written with a value that allocates no frame: it must be aligned (R76), not above the entry value (R79),
and the address of an allocated frame, which becomes the lowest one (R75). -/
def Thread.jumpBreaches (t : Thread) (v : Word) : List AbiRule :=
  failing (quadAligned v) .spMisaligned ++ failing (t.spNotRaised v) (.spRaised v) ++ failing (t.frames.contains v) .spNotFrame

/-- The frames left when r1 comes to `v`: those below it are given back, if `v` is a frame. -/
def framesFrom (fs : List Word) (v : Word) : List Word :=
  if fs.contains v then fs.dropWhile (fun f => f != v) else fs

/-- The convention's view of r1 having come to `v` by an instruction that allocates no frame. -/
def State.jumpSp (s : State) (v : Word) : State :=
  State.markAbi { s with th := { s.th with frames := framesFrom s.th.frames v } } (s.th.jumpBreaches v)

/-- The address is in a region of a kind `ok` accepts. -/
def inRegions (p : Params) (ok : RegionKind → Bool) (a : Nat) : Bool :=
  p.memmap.any fun r => ok r.kind && decide (r.base ≤ a) && decide (a < r.base + r.size)

/-- MEMMAP: the address is allocated (R32). -/
def allocated (p : Params) (a : Nat) : Bool := inRegions p (fun _ => true) a

/-- MEMMAP: the address holds code (R31). -/
def holdsCode (p : Params) (a : Nat) : Bool := inRegions p (fun k => k == .code) a

/-- The bytes from `v` up to `top` lie in the region. -/
def regionHolds (r : Region) (v top : Nat) : Bool := decide (r.base ≤ v) && decide (top ≤ r.base + r.size)

/-- The bytes from `v` up to `top` and the region have none in common. -/
def regionMisses (r : Region) (v top : Nat) : Bool := decide (min top (r.base + r.size) ≤ max v r.base)

/-- The bytes from `v` up to `top` lie whole in the region `r`, a stack, and meet no region of MEMMAP of another kind (log entry 41). -/
def inStackRegion (p : Params) (r : Region) (v top : Nat) : Bool :=
  r.kind == .stack && regionHolds r v top && p.memmap.all fun q => q.kind == .stack || regionMisses q v top

/-- D26: a frame, the bytes from `v` up to `top`, lies in one stack region of MEMMAP. -/
def frameInStack (p : Params) (v top : Word) : Bool := p.memmap.any fun r => inStackRegion p r v.toNat top.toNat

/-- What is breached when r1 is lowered to `v` to allocate a frame, the bytes from `v` up to the old r1 (R76, R77, R79, D26). -/
def Thread.allocBreaches (t : Thread) (p : Params) (v : Word) : List AbiRule :=
  failing (quadAligned v) .spMisaligned ++ failing (decide (v.toNat < (t.regs.x 1).toNat)) .spWraps ++
  failing (t.spNotRaised v) (.spRaised v) ++ failing (frameInStack p v (t.regs.x 1)) .spLeavesStack

/-! ## Special registers -/

def State.writeLr (s : State) (v : Word) : State := s.setRegs { s.regs with lr := v }
def State.writeCtr (s : State) (v : Word) : State := s.setRegs { s.regs with ctr := v }
def State.writeXer (s : State) (v : Word) : State := s.setRegs { s.regs with xer := v }
def State.writeDscr (s : State) (v : Word) : State := s.setRegs { s.regs with dscr := v }
def State.writeVscr (s : State) (v : BitVec 32) : State := s.setRegs { s.regs with vscr := v }
def State.writeCr (s : State) (v : CrWord) : State := s.setRegs { s.regs with cr := v }

/-- P9: the width of FPSCR. -/
def fpscrWidth (p : Params) : FpscrWidth := if p.hasDfpHw then .w64 else p.fpscrWidthNoDfp

/-- The bits FPSCR has. -/
def fpscrMask (p : Params) : BitVec 64 :=
  match fpscrWidth p with
  | .w64 => 0xFFFFFFFFFFFFFFFF#64
  | .w32 => 0x00000000FFFFFFFF#64

/-- A write of FPSCR changes the bits it has (R19). -/
def State.writeFpscr (s : State) (v : BitVec 64) : State := s.setRegs { s.regs with fpscr := v &&& fpscrMask s.params }

/-- R43, R59: TAR is read, and the read is a breach. -/
def State.readTar (s : State) : Word × State := (s.regs.tar, s.markReserved .tar)
def State.writeTar (s : State) (v : Word) : State := (s.setRegs { s.regs with tar := v }).markReserved .tar
/-- R43, R62. -/
def State.readVrsave (s : State) : BitVec 32 × State := (s.regs.vrsave, s.markReserved .vrsave)
def State.writeVrsave (s : State) (v : BitVec 32) : State := (s.setRegs { s.regs with vrsave := v }).markReserved .vrsave

/-! ## Vector-scalar registers and their views (R15 to R18) -/

def State.writeVsr (s : State) (i : Fin 64) (v : Quad) : State := s.setRegs (s.regs.setVs i v)

/-- R18, D23: a write of f[N] leaves a draw in the right half of vsr[N]. -/
def State.writeFpr (s : State) (i : Fin 32) (v : Word) : State :=
  (s.writeVsr (fprHome i) (v ++ Config.drawWord s.draws)).drawn 1

/-- R18: a write of v[N] is a write of all of vsr[32+N]. -/
def State.writeVr (s : State) (i : Fin 32) (v : Quad) : State := s.writeVsr (vrHome i) v

/-! ## Memory (20_memory.md): a list of cells, addresses strictly rising -/

/-- The byte listed at an address. -/
def Memory.get : List Host.Cell → Nat → Option Byte
  | [], _ => none
  | c :: m, a => if a = c.1 then some c.2 else Memory.get m a

/-- List a byte at an address, in its place. -/
def Memory.put : List Host.Cell → Nat → Byte → List Host.Cell
  | [], a, v => [(a, v)]
  | c :: m, a, v => if a < c.1 then (a, v) :: c :: m else if a = c.1 then (a, v) :: m else c :: Memory.put m a v

/-- The canonical form: addresses strictly rising and inside the address space (R25). An unlisted address holds no known byte, so no listed one is superfluous (log entry 5). -/
abbrev Memory.wf (m : List Host.Cell) : Prop :=
  m.Pairwise (fun c d => c.1 < d.1) ∧ ∀ c ∈ m, c.1 < addressSpace

/-- The address of byte `i` of an access at `a`, modulo 2^XLEN (D26). -/
def byteAddr (a : Word) (i : Nat) : Nat := (a + BitVec.ofNat 64 i).toNat

/-- Bytes written from address `a` up. -/
def Memory.store : List Host.Cell → Word → List Byte → List Host.Cell
  | m, _, [] => m
  | m, a, b :: bs => Memory.store (Memory.put m a.toNat b) (a + 1) bs

/-- The generation whose arbitrary contents an unlisted byte has; program text is fixed for a run (R31) and keeps its first ones. -/
def State.genAt (s : State) (a : Nat) : Nat := if holdsCode s.params a then 0 else s.memGen

/-- What the byte at an address holds: the known byte, or the arbitrary and stable one nothing has written (R24; log entry 5). -/
def State.byteAt (s : State) (a : Nat) : Byte := (Memory.get s.mem a).getD (Config.arbitraryByte (s.genAt a) a)

/-- R113, D8: a byte below the running thread's r1 changes at any moment, whatever MEMMAP calls it. A fetch reads program text, which is fixed (R31), and not by this (log entry 15). -/
def State.shifting (s : State) (a : Nat) : Bool := decide (a < (s.x 1).toNat)

/-- What a MemRead finds in the byte at `a`, `k` being the draw it may use (R113, D8). -/
def State.readByte (s : State) (a : Nat) (k : Nat) : Byte := if s.shifting a then Config.drawByte k else s.byteAt a

/-- The addresses of an access of `n` bytes. -/
def accessAddrs (a : Word) (n : Nat) : List Nat := (List.range n).map (byteAddr a)

/-- The value an access of `n` bytes reads, in the run's byte order (R26). -/
def State.readValue (s : State) (a : Word) (n : Nat) : BitVec (8 * n) :=
  BitVec.ofNat (8 * n) (joinBytes s.params.byteOrder ((List.range n).map fun i => s.readByte (byteAddr a i) (s.draws + i)))

/-- `MemRead(addr, n)` (R26): the value and the state after. DESIGN CHOICE (log entry 38): refused where MEMMAP allocates one of the bytes to nothing; R32 and D6 say only what MEMMAP tells.
DESIGN CHOICE (log entry 46): every allocated byte, of the stack or not and for every BaseISA, is ordinary memory without side effects, which R29 and D5 decide of stack memory alone. -/
def State.memRead (s : State) (a : Word) (n : Nat) : Except Refusal (BitVec (8 * n) × State) :=
  if (accessAddrs a n).all (allocated s.params) then .ok (s.readValue a n, s.drawn n) else .error .unallocated

/-- The bytes of memory after a write, the access being allowed. -/
def State.storeValue (s : State) (a : Word) (n : Nat) (v : Nat) : State :=
  { s with mem := Memory.store s.mem a (bytesOf s.params.byteOrder n v) }

/-- `MemWrite(addr, n, v)` (R26): the low 8n bits of v; refused where it would write program text (R31), and, DESIGN CHOICE (log entry 38), where MEMMAP allocates one of the bytes to nothing.
That a write to memory other than the stack has no other effect is DESIGN CHOICE (log entry 46). -/
def State.memWrite (s : State) (a : Word) (n : Nat) (v : Nat) : Except Refusal State :=
  if !(accessAddrs a n).all (allocated s.params) then .error .unallocated
  else if (accessAddrs a n).any (holdsCode s.params) then .error .writeToCode
  else .ok (s.storeValue a n v)

/-- A read of one of the two slots of R27, 8 bytes; refused if misaligned (R28, D4). -/
def State.readSlot (s : State) (a : Word) : Except Refusal (Word × State) :=
  if a.toNat % doublewordBytes = 0 then s.memRead a 8 else .error .slotMisaligned

/-- A write of one of the two slots of R27; refused if misaligned (R28, D4). -/
def State.writeSlot (s : State) (a : Word) (v : Word) : Except Refusal State :=
  if a.toNat % doublewordBytes = 0 then s.memWrite a 8 v.toNat else .error .slotMisaligned

/-- The doubleword a state holds at an address, as a read at or above r1 finds it. -/
def State.contentWord (s : State) (a : Word) : Word :=
  BitVec.ofNat 64 (joinBytes s.params.byteOrder ((accessAddrs a 8).map s.byteAt))

/-- Memory with a draw in each of the `n` bytes from `a` up; program text is left alone (R31). -/
def State.drawnBytes (s : State) (a : Word) : Nat → List Host.Cell
  | 0 => s.mem
  | n + 1 =>
    let m := State.drawnBytes s a n
    if holdsCode s.params (byteAddr a n) then m else Memory.put m (byteAddr a n) (Config.drawByte (s.draws + n))

/-- How many bytes below r1 are no longer below it when r1 comes to `v`. -/
def State.exposed (s : State) (v : Word) : Nat := (s.x 1).toNat - v.toNat

/-- x[1] <- v, by whatever step. Where that lowers r1, the bytes from `v` up to the old r1 were below r1 and changed at any moment until now, so they hold arbitrary values (R113; log entry 16);
program text is fixed (R31). -/
def State.putSp (s : State) (v : Word) : State :=
  ({ s with mem := s.drawnBytes v (s.exposed v) }.drawn (s.exposed v)).setRegs (s.regs.setX 1 v)

/-- `m` with the bytes of `s` at the addresses `as` listed in it again; program text is left as `m` has it. -/
def State.pin (s : State) (m : List Host.Cell) : List Nat → List Host.Cell
  | [] => m
  | a :: as =>
    let t := State.pin s m as
    if holdsCode s.params a then t else Memory.put t a (s.byteAt a)

/-- Go on with what an access answers, or stop with its refusal. -/
def andThen (r : Except Refusal State) (k : State → Result) : Result :=
  match r with
  | .ok s => k s
  | .error e => .refused e

/-! ## Writes of general registers by application code -/

/-- x[i] <- v. A write of r13 is a breach of R43; a write of r1 is held against R75 to R79. The register is written all the same (R111). -/
def State.writeGpr (s : State) (i : Fin 32) (v : Word) : State :=
  if i = 13 then (s.setRegs (s.regs.setX i v)).markReserved .r13
  else if i = 1 then (s.putSp v).jumpSp v
  else s.setRegs (s.regs.setX i v)

/-! ## Threads (R22, R115) -/

/-- System software lets the `k`-th parked thread run: registers and stack go with the thread, memory stays. What another thread sees of a thread's writes, and when, is BaseISA's (R30):
that the thread switched to sees every earlier write at once is the model's choice (DESIGN CHOICE, unsafe for a claim about several threads, log entry 23). -/
def State.switchTo (s : State) (k : Nat) : State :=
  match s.parked[k]? with
  | none => s
  | some t => { s with th := t, parked := s.parked.set k s.th }

/-! ## Taking an exception -/

/-- R110, D7: the spec describes no exception entry and no return from one; an exception of BaseISA is a fault that ends the run. -/
def takeException : Result := .fault .baseException

end Sys2Proof.Machine
end

