-- ==== Sys2Proof/Machine/Flags.lean ====
section
/-! DEFINITION. Fields of the status registers: the condition register's fields and bytes (10_state.md R11, R12), FPSCR's and VSCR's named fields (R19, R20). -/

namespace Sys2Proof.Machine

/-! ## Condition register -/

/-- The lowest bit of field n: `CRF(n) = CR[31-4n : 28-4n]` (R11). -/
def crfLow (n : Fin 8) : Nat := 28 - 4 * n.val

/-- CRF(n). -/
def crf (cr : CrWord) (n : Fin 8) : BitVec 4 := cr.extractLsb' (crfLow n) 4

/-- The mask of field n, `0xF << (28 - 4n)` (41_condition_register_mfocr.md R88). -/
def fieldMask (n : Fin 8) : CrWord := 0xF#32 <<< crfLow n

/-- A 4-bit value at the place of field n. -/
def atField (v : BitVec 4) (n : Fin 8) : CrWord := v.setWidth 32 <<< crfLow n

/-- Replace field n. -/
def setCrf (cr : CrWord) (n : Fin 8) (v : BitVec 4) : CrWord := (cr &&& ~~~fieldMask n) ||| atField v n

/-- R12: the other field of the byte that holds field n, `n xor 1`. -/
def partner (n : Fin 8) : Fin 8 := Fin.ofNat 8 (n.val ^^^ 1)

/-- R12: byte b of the condition register word from the most-significant byte, `CR[31-8b : 24-8b]`. -/
def crByte (cr : CrWord) (b : Fin 4) : BitVec 8 := cr.extractLsb' (24 - 8 * b.val) 8

/-- R88: what software ANDs a result of `mfocr` with before it combines two fields of one byte. -/
def maskField (n : Fin 8) (v : Word) : Word := v &&& (fieldMask n).setWidth 64

/-- R82: CR2, CR3 and CR4, `CR[23:12]`. -/
def crPreservedMask : CrWord := 0x00FFF000#32

def State.writeCrf (s : State) (n : Fin 8) (v : BitVec 4) : State := s.writeCr (setCrf s.regs.cr n v)

/-! ## FPSCR and VSCR -/

/-- PRESUMED by the spec (93 G8): the lowest bit of a field. -/
def fpscrLow : FpscrField → Nat
  | .ve => 7
  | .oe => 6
  | .ue => 5
  | .ze => 4
  | .xe => 3
  | .rn => 0
  | .drn => 32

/-- PRESUMED by the spec (93 G8). -/
def fpscrFieldWidth : FpscrField → Nat
  | .ve => 1
  | .oe => 1
  | .ue => 1
  | .ze => 1
  | .xe => 1
  | .rn => 2
  | .drn => 3

/-- The bits of one field. -/
def fpscrFieldMask (f : FpscrField) : BitVec 64 := BitVec.ofNat 64 ((2 ^ fpscrFieldWidth f - 1) <<< fpscrLow f)

/-- A field of FPSCR. -/
def fpscrField (r : Regs) (f : FpscrField) : BitVec 3 := ((r.fpscr &&& fpscrFieldMask f) >>> fpscrLow f).setWidth 3

/-- All seven limited-access fields of FPSCR (R92, R101). -/
def fpscrLimitedMask : BitVec 64 := 0x00000007000000FB#64

/-- NJ = VSCR[16] (R20). -/
def vscrLimitedMask : BitVec 32 := 0x00010000#32

/-- VSCR's field NJ. -/
def vscrNJ (r : Regs) : Bool := r.vscr.getLsbD 16

/-- FPSCR's fields, all of them. -/
def fpscrFields : List FpscrField := [.ve, .oe, .ue, .ze, .xe, .rn, .drn]

/-- The Limited-access registers and fields, all of them (R44). -/
def limitedFields : List LimitedField := .dscr :: .vscrNJ :: fpscrFields.map .fpscr

/-- What one of them holds: its bits, in their places. -/
def limitedValue (r : Regs) : LimitedField → BitVec 64
  | .dscr => r.dscr
  | .fpscr f => r.fpscr &&& fpscrFieldMask f
  | .vscrNJ => (r.vscr &&& vscrLimitedMask).setWidth 64

end Sys2Proof.Machine
end

