-- ==== Sys2Proof/Machine/RegisterRoles.lean ====
section
/-! DEFINITION. Tables 2.19 to 2.22: the preservation class and the purpose of every register and field (40_linkage_general_registers.md R41 to R62,
41_condition_register_mfocr.md R82, 42_fp_vector_registers_parameters.md R89 to R93, R101 to R106). -/

namespace Sys2Proof.Machine

/-- A register, field or half-register that a row of the tables names; `fpscrOther` and `vscrOther` are the bits no row names (D15). -/
inductive RegName where
  | gpr (i : Fin 32)
  | lr
  | ctr
  | tar
  | xer
  | crField (n : Fin 8)
  | dscr
  | vrsave
  | fpr (i : Fin 32)
  | vsrRightHalf (i : Fin 32)
  | vr (i : Fin 32)
  | fpscrBits (f : FpscrField)
  | fpscrOther
  | vscrNJ
  | vscrOther
  deriving DecidableEq, Repr

/-- R41 to R44; `unclassed` is what no table gives a class (D15). -/
inductive PreservationClass where
  | volatile
  | nonvolatile
  | reserved
  | limitedAccess
  | unclassed
  deriving DecidableEq, Repr

/-- The purposes the tables give. -/
inductive Purpose where
  /-- r0: "Optional use in function linkage." "Used in function prologues." (R48) -/
  | linkageAndPrologue
  /-- r1: "Stack frame pointer." (R49) -/
  | stackPointer
  /-- r2: "TOC pointer." (R50) -/
  | tocPointer
  /-- r3 to r10, v2 to v13: "Parameter and return values." (R51, R103) -/
  | parametersAndReturns
  /-- f1 to f13: "Used for parameter passing and return values of binary float types." (R90) -/
  | binaryFloatParametersAndReturns
  /-- r11 (R52) -/
  | linkageAndEnvironmentPointer
  /-- r12 (R53) -/
  | linkageAndEntryAddress
  /-- r13 (R54) -/
  | threadPointer
  /-- "Local variables." (R55, R89, R91, R102, R104, R105) -/
  | localVariables
  /-- r31 of a function that needs a frame pointer: a recommendation (R56) -/
  | framePointer
  /-- R57 -/
  | link
  /-- R58 -/
  | loopCount
  /-- TAR, VRSAVE: "Reserved for system use." (R59, R62) -/
  | systemUse
  /-- XER (R60) -/
  | fixedPointException
  /-- R82 -/
  | conditionField
  /-- DSCR (R61) -/
  | prefetchControl
  /-- R93: the right halves, which the tables give no purpose -/
  | none
  /-- R92, R101 -/
  | floatStatusAndControl
  /-- R106 -/
  | vectorStatusAndControl
  deriving DecidableEq, Repr

/-- The class column of Table 2.19 for a general register; r2's is narrowed by footnote a, `preservedAcross` (R50). -/
def gprClass (i : Fin 32) : PreservationClass :=
  if i = 1 ∨ i = 2 then .nonvolatile else if i = 13 then .reserved else if 14 ≤ i.val then .nonvolatile else .volatile

/-- The preservation class of a register (Tables 2.19 to 2.22). -/
def classOf : RegName → PreservationClass
  | .gpr i => gprClass i
  | .lr => .volatile
  | .ctr => .volatile
  | .tar => .reserved
  | .xer => .volatile
  | .crField n => if 2 ≤ n.val ∧ n.val ≤ 4 then .nonvolatile else .volatile
  | .dscr => .limitedAccess
  | .vrsave => .reserved
  | .fpr i => if 14 ≤ i.val then .nonvolatile else .volatile
  | .vsrRightHalf _ => .volatile
  | .vr i => if 20 ≤ i.val then .nonvolatile else .volatile
  | .fpscrBits _ => .limitedAccess
  | .fpscrOther => .unclassed
  | .vscrNJ => .limitedAccess
  | .vscrOther => .unclassed

/-- The purpose column of Table 2.19 for a general register; `framePointer` says whether the function needs one (P20). -/
def gprPurpose (needsFramePointer : Bool) (i : Fin 32) : Purpose :=
  if i = 0 then .linkageAndPrologue else if i = 1 then .stackPointer else if i = 2 then .tocPointer
  else if i.val ≤ 10 then .parametersAndReturns else if i = 11 then .linkageAndEnvironmentPointer
  else if i = 12 then .linkageAndEntryAddress else if i = 13 then .threadPointer
  else if i = 31 ∧ needsFramePointer = true then .framePointer else .localVariables

/-- The purpose of a register in a function (Tables 2.19 to 2.22). -/
def purposeOf (needsFramePointer : Bool) : RegName → Purpose
  | .gpr i => gprPurpose needsFramePointer i
  | .lr => .link
  | .ctr => .loopCount
  | .tar => .systemUse
  | .xer => .fixedPointException
  | .crField _ => .conditionField
  | .dscr => .prefetchControl
  | .vrsave => .systemUse
  | .fpr i => if 1 ≤ i.val ∧ i.val ≤ 13 then .binaryFloatParametersAndReturns else .localVariables
  | .vsrRightHalf _ => .none
  | .vr i => if 2 ≤ i.val ∧ i.val ≤ 13 then .parametersAndReturns else .localVariables
  | .fpscrBits _ => .floatStatusAndControl
  | .fpscrOther => .floatStatusAndControl
  | .vscrNJ => .vectorStatusAndControl
  | .vscrOther => .vectorStatusAndControl

/-- The function needs a frame pointer (P20; the program says so). -/
def needsFramePointer (p : Params) (f : Nat) : Bool := p.fns.any fun i => i.id == f && i.needsFramePointer

/-- What a register, field or half-register holds, as a number of at most 128 bits. -/
def Regs.read (r : Regs) : RegName → Quad
  | .gpr i => (r.x i).setWidth 128
  | .lr => r.lr.setWidth 128
  | .ctr => r.ctr.setWidth 128
  | .tar => r.tar.setWidth 128
  | .xer => r.xer.setWidth 128
  | .crField n => (crf r.cr n).setWidth 128
  | .dscr => r.dscr.setWidth 128
  | .vrsave => r.vrsave.setWidth 128
  | .fpr i => (r.f i).setWidth 128
  | .vsrRightHalf i => (r.vsrRight i).setWidth 128
  | .vr i => r.v i
  | .fpscrBits f => (r.fpscr &&& fpscrFieldMask f).setWidth 128
  | .fpscrOther => (r.fpscr &&& ~~~fpscrLimitedMask).setWidth 128
  | .vscrNJ => (r.vscr &&& vscrLimitedMask).setWidth 128
  | .vscrOther => (r.vscr &&& ~~~vscrLimitedMask).setWidth 128

/-- PRESUMED by the spec (93 G12): special-purpose register numbers, DSCR's for application and for privileged access (R7 to R10, R13, R14).
No rule moves to or from a special-purpose register. -/
def sprNumbers : RegName → List Nat
  | .lr => [8]
  | .ctr => [9]
  | .tar => [815]
  | .xer => [1]
  | .dscr => [3, 17]
  | .vrsave => [256]
  | .gpr _ => []
  | .crField _ => []
  | .fpr _ => []
  | .vsrRightHalf _ => []
  | .vr _ => []
  | .fpscrBits _ => []
  | .fpscrOther => []
  | .vscrNJ => []
  | .vscrOther => []

/-- R42, R43, R50: the value on entry must be there on exit: the Nonvolatile registers, r2 of them only across a call inside one module (footnote a), and r13,
which holds one value throughout. -/
def preservedAcross (sameModule : Bool) (n : RegName) : Bool :=
  if n = .gpr 2 then sameModule else if n = .gpr 13 then true else classOf n == .nonvolatile

end Sys2Proof.Machine
end

