-- ==== Sys2Proof/Machine/Linkage.lean ====
section
/-! DEFINITION. Function linkage (40_linkage_general_registers.md): the events Call and Return (R45, R46), the caller's save and reload of r2 (R64), stack frames (R75 to R79),
the contract predicates (R80, R81), the launch premises (70_reset_and_hazards.md R118), and the duties on program text (R68, R70). -/

namespace Sys2Proof.Machine

/-! ## What the program gives (P19 to P22) -/

/-- `TOCLegal(v)` for a calling function g (R67): v points to the TOC base of g's module. -/
def tocLegal (p : Params) (g : Nat) (v : Word) : Bool :=
  match p.moduleOf g with
  | none => false
  | some m => p.tocBases.contains (m, v)

/-- R44: changing the Limited-access field `x` is the documented purpose of function f. -/
def limitedOnPurpose (p : Params) (f : Nat) (x : LimitedField) : Bool := p.fns.any fun i => i.id == f && i.changesOnPurpose.contains x

/-- R44, D13: function f may not leave the Limited-access field `x` changed: the policy is NONVOLATILE_LIKE and changing that field is not f's purpose. -/
def limitedHeld (p : Params) (f : Nat) (x : LimitedField) : Bool := p.limitedAccessPolicy == .nonvolatileLike && !limitedOnPurpose p f x

/-- P19: the language of f requires an environment pointer. -/
def needsEnvPointer (p : Params) (f : Nat) : Bool := p.fns.any fun i => i.id == f && i.needsEnvPointer

/-- R44, D13: under NONVOLATILE_LIKE a function has restored every Limited-access field it changed, but for those whose change is its purpose; under UNSAID nothing is asked. Whether a field that a callee changed on its documented
purpose counts as changed by its caller, R44 does not say. The model compares with the function's own entry, so it does: the caller is held to it at its next Call and at its Return
(DESIGN CHOICE, log entry 29). -/
def limitedKept (p : Params) (f : Nat) (entry now : Regs) : Bool :=
  limitedFields.all fun x => !limitedHeld p f x || limitedValue entry x == limitedValue now x

/-! ## The back chain (R78) -/

/-- R78: where back chains are maintained the word at r1 is the address of the frame that was lowest before.
R118 writes it `MemRead(x[1], 8)`. The model reads that as what the eight bytes hold, not as a MemRead that is performed: the premise is asked, and may hold, also where MEMMAP does not allocate
those bytes and a MemRead is refused (log entry 38). `tocSaved` takes the same notation in R45 as a read that is performed. The source says neither (DESIGN CHOICE, log entry 44). -/
def BackChainHolds (s : State) : Prop :=
  s.params.backchainsMaintained = true → ∀ lowest before rest, s.th.frames = lowest :: before :: rest → s.contentWord lowest = before

/-- R78: the whole chain, from the newest frame to the oldest; what the oldest frame's word holds is not in the source. The words are contents here too (log entry 44). -/
def BackChainsHold (s : State) : Prop :=
  s.params.backchainsMaintained = true → ∀ older lowest before newer, s.th.frames = newer ++ lowest :: before :: older → s.contentWord lowest = before

/-- The chain over a list of frames, the newest first: each frame's word is the address of the next; the oldest frame's word is not asked. -/
def chainHolds (s : State) : List Word → Bool
  | [] => true
  | [_] => true
  | f :: g :: fs => s.contentWord f == g && chainHolds s (g :: fs)

/-- R78 as a check. -/
def backChainsOk (s : State) : Bool := !s.params.backchainsMaintained || chainHolds s s.th.frames

/-- A step that stored somewhere is marked if the chain does not hold after it (log entry 40). -/
def State.checkChain (s : State) : State := s.markAbi (failing (backChainsOk s) .backChainBroken)

/-- The bytes R78 speaks of: the back-chain words of all frames but the oldest. -/
def chainBytes (s : State) : List Nat :=
  if s.params.backchainsMaintained then s.th.frames.dropLast.flatMap fun f => accessAddrs f backchainBytes else []

/-! ## The caller's TOC pointer doubleword (R64) -/

/-- `x[1] + TOC_SAVE_OFFSET`, modulo 2^XLEN. -/
def tocSlot (p : Params) (r : Regs) : Word := r.x 1 + p.tocSaveOffset

/-- `MemWrite(x[1] + TOC_SAVE_OFFSET, 8, x[2])`; a store that breaks the back chain is marked (R78). -/
def saveToc (s : State) : Except Refusal State := (s.writeSlot (tocSlot s.params s.regs) (s.x 2)).map State.checkChain

/-- `x[2] <- MemRead(x[1] + TOC_SAVE_OFFSET, 8)`, after which the function owes no reload. -/
def reloadToc (s : State) : Except Refusal State :=
  (s.readSlot (tocSlot s.params s.regs)).map fun r => (r.2.writeGpr 2 r.1).setReloadOwed false

/-- R64: the call may leave the module, so that its caller stores r2 before it and reloads it after it. -/
def leavesModule (p : Params) (kind : EntryKind) (caller callee : Nat) : Bool := kind == .globalEntry && p.mayLeaveModule caller callee

/-- R64: the doubleword holds x[2]; a slot that cannot be read does not: R45's MemRead is one that is performed (log entries 17, 44). -/
def tocSaved (s : State) : Bool :=
  match s.readSlot (tocSlot s.params s.regs) with
  | .ok r => r.1 == s.x 2
  | .error _ => false

/-! ## Stack frames (R75 to R79) -/

/-- Keep `v` as the lowest frame, if the convention allows it to be one. -/
def pushFrame (s : State) (v : Word) (bs : List AbiRule) : State :=
  { s with th := { s.th with frames := if bs = [] then v :: s.th.frames else s.th.frames } }

/-- The part of a frame's allocation before the back chain: r1 is lowered, so that the frame's bytes hold arbitrary values (`putSp`), and the frame is the lowest one. -/
def lowerSp (s : State) (size : Word) : State :=
  let new := s.x 1 - size
  let bs := s.th.allocBreaches s.params new
  (pushFrame (s.putSp new) new bs).markAbi bs

/-- R77 to R79: r1 is lowered by `size` bytes; where back chains are maintained the word at the new r1 points to the frame before it, in the same step (R78). -/
def allocFrame (size : Word) (s : State) : Except Refusal State :=
  if size = 0 then .ok s
  else if s.params.backchainsMaintained then (lowerSp s size).writeSlot (s.x 1 - size) (s.x 1)
  else .ok (lowerSp s size)

/-- R79: r1 is raised by `size` bytes, back to a frame allocated earlier. -/
def freeFrame (size : Word) (s : State) : State := s.writeGpr 1 (s.x 1 + size)

/-! ## Call (R45) -/

/-- The `require` lines of R45 that fail. R74 calls the target of a GLOBAL Call the address of f's global entry point, and R45 asks only x[12] = target: the model holds no entry address of a
function, and a GLOBAL Call of f to any target the program lists leaves no mark for its target (DESIGN CHOICE, log entry 45). -/
def callBreaches (c : CallSite) (s : State) : List CallRule :=
  failing (quadAligned (s.x 1)) .spMisaligned ++
  failing (tocLegal s.params c.caller (s.x 2)) .tocIllegal ++
  failing (!leavesModule s.params c.kind c.caller c.callee || tocSaved s) .tocNotSaved ++
  failing (!(c.kind == .globalEntry) || s.x 12 == c.target) .entryAddress

/-- What the running function must have done before it calls, beside R45's lines: reloaded r2 after its last call that may have left the module (R64, 93 U18; that its next Call is the latest
moment is DESIGN CHOICE, log entry 43), and, under NONVOLATILE_LIKE, restored the limited-access fields (R44). -/
def callerBreaches (s : State) : List AbiRule :=
  failing (!s.th.reloadOwed) .tocNotReloaded ++
  failing (match s.th.activations with
    | [] => true
    | a :: _ => limitedKept s.params a.callee a.entry s.regs) .callLimitedAccess

/-- Every mark a Call leaves. -/
def callMarks (c : CallSite) (s : State) : List Breach :=
  (callBreaches c s).map (fun r => .failedCall r s.th.activations.length) ++ (callerBreaches s).map .abiViolation

/-- The registers at `entry(f)`: LR and pc (R45); r0, r11 and r12 may have been altered on the way (R72), but for an initialised environment pointer (R73)
and the entry address (R74). `d0`, `d11`, `d12` are draws. -/
def entryRegs (c : CallSite) (r : Regs) (d0 d11 d12 : Word) : Regs :=
  let r1 := (r.setX 0 d0).setX 11 (c.env.getD d11)
  let r2 := match c.kind with
    | .globalEntry => r1
    | .nonglobalEntry => r1.setX 12 d12
  { r2 with lr := c.ret, pc := c.target }

/-- A function is entered with the registers `entry`: `entry(f)` is the state then, registers, memory and BaseISA's further state (R45). It owes no reload of r2. -/
def pushActivation (s : State) (c : CallSite) (entry : Regs) : State :=
  { s with th := { s.th with
      regs := entry
      reloadOwed := false
      activations := { caller := c.caller, callee := c.callee, kind := c.kind, ret := c.ret, env := c.env,
                       pre := s.th.regs, entry := entry,
                       entryMem := s.mem, entryMemGen := s.memGen, entryBase := s.baseState, marksAtEntry := s.th.breaches.length } :: s.th.activations } }

/-- `Call` (R45). A `require` that fails leaves a mark (R111); control goes to the target all the same. R45 does not say that the caller g is the function that is running: the model takes
`c.caller` as the program lists it, and a Call whose caller is another function is performed and leaves no mark for that (DESIGN CHOICE, log entry 3). -/
def performCall (c : CallSite) (s : State) : State :=
  let s1 := (s.markAll (callMarks c s)).drawn 11
  pushActivation s1 c
    (entryRegs c s.regs (Config.drawWord (s.draws + 8)) (Config.drawWord (s.draws + 9)) (Config.drawWord (s.draws + 10)))

/-- The run's first function is entered from outside (R117): `entry(f)` is the state as it stands. -/
def launch (c : CallSite) (s : State) : State := pushActivation s c s.regs

/-- R119 (1): the thread can be given the stack region `stack` with its first frame at `sp`: the region is one of MEMMAP's stacks, `sp` is a multiple of 16 (R76), and the frame is valid there.
How long the first frame is, the source does not say: that its first quadword, which holds the back chain, lies in the region and meets no region of another kind is what the model asks of it
(DESIGN CHOICE, log entry 34). -/
def firstFrameOk (p : Params) (stack : Region) (sp : Word) : Bool :=
  p.memmap.contains stack && quadAligned sp && inStackRegion p stack sp.toNat (sp.toNat + quadwordBytes)

/-- R119 (1), (2): system software gives the thread the stack region `stack`, a first frame at `sp` in it, and its thread pointer; there is no such thread where `sp` is no address of a valid
first frame in that region. -/
def bootThread (stack : Region) (sp threadPtr : Word) (s : State) : Option State :=
  if firstFrameOk s.params stack sp then
    some { s with th := { s.th with
      regs := (s.th.regs.setX 1 sp).setX 13 threadPtr
      threadPtr := threadPtr
      frames := [sp] } }
  else none

/-- R119 (3), (4): r2 holds a legal TOC pointer, r12 the entry address on GLOBAL entry, r11 the environment pointer if there is one, LR the address to return to;
then the first function is entered. -/
def enterFirst (c : CallSite) (toc : Word) (s : State) : State :=
  let r0 := s.regs.setX 2 toc
  let r1 := match c.kind with
    | .globalEntry => r0.setX 12 c.target
    | .nonglobalEntry => r0
  let r2 := match c.env with
    | some e => r1.setX 11 e
    | none => r1
  launch c (s.setRegs { r2 with lr := c.ret, pc := c.target })

/-! ## Return (R46, R80) -/

/-- The marks left since there were `n`. -/
def Thread.marksSince (t : Thread) (n : Nat) : List Breach := t.breaches.take (t.breaches.length - n)

/-- The mark tells of a moment at which r1 was no multiple of 16 or was above `top`. -/
def Breach.spMoment (top : Word) : Breach → Bool
  | .abiViolation .spMisaligned => true
  | .abiViolation (.spRaised v) => decide (top.toNat < v.toNat)
  | _ => false

/-- The mark tells of a failed Call by the function at `depth`. -/
def Breach.ownCall (depth : Nat) : Breach → Bool
  | .failedCall _ d => d == depth
  | _ => false

/-- R80: the requirements that fail when the function of `a` returns with the thread as `t`. -/
def calleeBreaches (p : Params) (a : Activation) (t : Thread) : List AbiRule :=
  let since := t.marksSince a.marksAtEntry
  failing (t.regs.x 1 == a.entry.x 1) .returnSp ++
  failing ((List.finRange 32).all fun i => decide (i.val < 14) || t.regs.x i == a.entry.x i) .returnGpr ++
  failing (!p.sameModule a.caller a.callee || t.regs.x 2 == a.entry.x 2) .returnToc ++
  failing (t.regs.x 13 == a.entry.x 13 && !since.contains (.reservedRegister .r13)) .returnThreadPointer ++
  failing (t.regs.cr &&& crPreservedMask == a.entry.cr &&& crPreservedMask) .returnCr ++
  failing ((List.finRange 32).all fun i => decide (i.val < 14) || t.regs.f i == a.entry.f i) .returnFpr ++
  failing ((List.finRange 32).all fun i => decide (i.val < 20) || t.regs.v i == a.entry.v i) .returnVr ++
  failing (limitedKept p a.callee a.entry t.regs) .returnLimitedAccess ++
  failing (quadAligned (a.entry.x 1) && !since.any (Breach.spMoment (a.entry.x 1))) .returnSpMoment ++
  failing (!since.contains (.reservedRegister .tar) && !since.contains (.reservedRegister .vrsave)) .returnSystemRegister ++
  failing (!since.any (Breach.ownCall t.activations.length)) .returnOwnCall

/-- `CalleeObligations(f)` (R80), line by line, and R44's under NONVOLATILE_LIKE. The lines "never written", "at every moment", "neither read nor written" and "every Call that f itself makes" speak
of the whole execution from entry to Return: each step that breaks one leaves a mark that says so (R111), so they ask that no such mark stands since entry. r1's value holds until it is written, so
"every moment" is the value on entry and each value written. A moment of a function that f called is a moment of f's execution; a Call that it made is none that f itself made (log entry 30). -/
def CalleeObligations (p : Params) (a : Activation) (t : Thread) : Prop :=
  t.regs.x 1 = a.entry.x 1 ∧
  (∀ i : Fin 32, 14 ≤ i.val → t.regs.x i = a.entry.x i) ∧
  (p.sameModule a.caller a.callee = true → t.regs.x 2 = a.entry.x 2) ∧
  (t.regs.x 13 = a.entry.x 13 ∧ .reservedRegister .r13 ∉ t.marksSince a.marksAtEntry) ∧
  (∀ n : Fin 8, 2 ≤ n.val → n.val ≤ 4 → crf t.regs.cr n = crf a.entry.cr n) ∧
  (∀ i : Fin 32, 14 ≤ i.val → t.regs.f i = a.entry.f i) ∧
  (∀ i : Fin 32, 20 ≤ i.val → t.regs.v i = a.entry.v i) ∧
  limitedKept p a.callee a.entry t.regs = true ∧
  ((a.entry.x 1).toNat % 16 = 0 ∧ .abiViolation .spMisaligned ∉ t.marksSince a.marksAtEntry ∧
    ∀ v, .abiViolation (.spRaised v) ∈ t.marksSince a.marksAtEntry → v.toNat ≤ (a.entry.x 1).toNat) ∧
  (.reservedRegister .tar ∉ t.marksSince a.marksAtEntry ∧ .reservedRegister .vrsave ∉ t.marksSince a.marksAtEntry) ∧
  ∀ why, .failedCall why t.activations.length ∉ t.marksSince a.marksAtEntry

/-- The function of `a` leaves: pc <- entry(f).LR, `exit(f)` := the state now (R46). Its caller owes a reload of r2 if the call may have left the module (R64, 93 U18; log entry 43). -/
def leaveFunction (a : Activation) (rest : List Activation) (s : State) : State :=
  { s with th := { s.th with
      regs := { s.th.regs with pc := a.entry.lr }
      activations := rest
      reloadOwed := leavesModule s.params a.kind a.caller a.callee
      exits := { activation := a, regs := { s.th.regs with pc := a.entry.lr }, mem := s.mem, memGen := s.memGen, base := s.baseState } :: s.th.exits } }

/-- What a Return is marked for. -/
def returnBreaches (a : Activation) (s : State) : List AbiRule :=
  calleeBreaches s.params a s.th ++ failing (!s.th.reloadOwed) .tocNotReloaded

/-- `Return` (R46) of the running function; a return of any other function is not a normal one and the model has no end state for it (D27).
A function that returns and owes a reload of r2 itself is marked (R64, 93 U18; that its Return is the latest moment is DESIGN CHOICE, log entry 43). -/
def performReturn (f : Nat) (s : State) : Except Refusal State :=
  match s.th.activations with
  | [] => .error .notNormalReturn
  | a :: rest =>
    if a.callee = f then .ok (leaveFunction a rest (s.markAbi (returnBreaches a s)))
    else .error .notNormalReturn

/-! ## What the caller may assume (R81) -/

/-- `CallerMayAssume` (R81): the state just before the Call against the state at `ret`. Of DSCR, FPSCR and VSCR R81 says that nothing may be assumed under UNSAID and does not speak of
NONVOLATILE_LIKE; that the predicate says nothing of them under that policy either is the model's choice (DESIGN CHOICE, log entry 29). -/
def CallerMayAssume (p : Params) (c : CallSite) (pre post : Regs) : Prop :=
  post.pc = c.ret ∧
  post.x 1 = pre.x 1 ∧
  (∀ i : Fin 32, 14 ≤ i.val → post.x i = pre.x i) ∧
  post.x 13 = pre.x 13 ∧
  (p.sameModule c.caller c.callee = true → post.x 2 = pre.x 2) ∧
  (∀ n : Fin 8, 2 ≤ n.val → n.val ≤ 4 → crf post.cr n = crf pre.cr n) ∧
  (∀ i : Fin 32, 14 ≤ i.val → post.f i = pre.f i) ∧
  (∀ i : Fin 32, 20 ≤ i.val → post.v i = pre.v i)

/-- The call an activation is of: its target is the pc at entry(f). -/
def Activation.site (a : Activation) : CallSite :=
  { caller := a.caller, callee := a.callee, target := a.entry.pc, kind := a.kind, ret := a.ret, env := a.env }

/-- The bits of FPSCR that function f has to leave as it found them (R44). -/
def fpscrHeldMask (p : Params) (f : Nat) : BitVec 64 :=
  fpscrFields.foldr (fun x m => if limitedHeld p f (.fpscr x) then fpscrFieldMask x ||| m else m) 0

/-- The bits of `mask` are kept from `old`, the others are a draw (R44, R81). -/
def limitedAfter {w : Nat} (mask old draw : BitVec w) : BitVec w := (old &&& mask) ||| (draw &&& ~~~mask)

/-- A vector-scalar register after a call whose callee's text is not in the program: f14 to f31 and v20 to v31 are kept (R91, R105), all else, the right halves among it (R93), is a draw. -/
def vsrAfterCall (r : Regs) (k : Nat) (i : Fin 64) : Quad :=
  if i.val < 14 then Config.drawWord (k + 48 + 2 * i.val) ++ Config.drawWord (k + 49 + 2 * i.val)
  else if i.val < 32 then (r.vs i).extractLsb' 64 64 ++ Config.drawWord (k + 49 + 2 * i.val)
  else if i.val < 52 then Config.drawWord (k + 48 + 2 * i.val) ++ Config.drawWord (k + 49 + 2 * i.val)
  else r.vs i

/-- The registers after a call whose callee's text is not in the program: what R81 lists is kept, every other register, field and half-register is a draw. -/
def regsAfterCall (p : Params) (c : CallSite) (r : Regs) (k : Nat) : Regs :=
  { gpr := Vector.ofFn fun i : Fin 32 =>
      if preservedAcross (p.sameModule c.caller c.callee) (.gpr i) then r.x i else Config.drawWord (k + i.val)
    lr := Config.drawWord (k + 32)
    ctr := Config.drawWord (k + 33)
    tar := Config.drawWord (k + 34)
    xer := Config.drawWord (k + 35)
    dscr := if limitedHeld p c.callee .dscr then r.dscr else Config.drawWord (k + 36)
    vrsave := (Config.drawWord (k + 37)).setWidth 32
    cr := (r.cr &&& crPreservedMask) ||| ((Config.drawWord (k + 38)).setWidth 32 &&& ~~~crPreservedMask)
    vsr := Vector.ofFn (vsrAfterCall r k)
    fpscr := limitedAfter (fpscrHeldMask p c.callee) r.fpscr (Config.drawWord (k + 39)) &&& fpscrMask p
    vscr := limitedAfter (if limitedHeld p c.callee .vscrNJ then vscrLimitedMask else 0) r.vscr ((Config.drawWord (k + 40)).setWidth 32)
    pc := c.ret }

/-- A call whose callee's text is not in the program, from the Call to the instruction at `ret`: the Call's requirements, then what R81 leaves the caller.
Which memory the callee wrote is not in the source (91 N13), so every byte is arbitrary after it, but for program text (R31) and the back chain (R78); so is BaseISA's further state (R23).
Of what the callee does on the way nothing else is seen: it is taken to meet R80 (R81; log entries 12, 30). The caller then owes a reload of r2 if the call may have left the module (R64, 93 U18;
log entry 43). -/
def performCallOpaque (c : CallSite) (s : State) : State :=
  let s1 := (s.markAll (callMarks c s)).setRegs (regsAfterCall s.params c s.regs (s.draws + 8))
  { s1 with
    mem := s.pin (s.mem.filter fun cell => holdsCode s.params cell.1) (chainBytes s)
    memGen := s.memGen + 1
    th := { s1.th with
      reloadOwed := leavesModule s.params c.kind c.caller c.callee
      baseOwn := Config.drawNats (s.draws + 184) }
    baseShared := Config.drawNats (s.draws + 185)
    draws := s.draws + 186 }

/-! ## Launch premises (R118) -/

/-- The premises R118 names, of a state in which the function of `a` has just been entered. -/
structure LaunchPremises (s : State) (a : Activation) : Prop where
  /-- `entry(f)` is the state now -/
  entered : s.th.activations.head? = some a ∧ a.entry = s.regs
  memoryAtEntry : a.entryMem = s.mem ∧ a.entryMemGen = s.memGen
  furtherAtEntry : a.entryBase = s.baseState
  marksCounted : a.marksAtEntry = s.th.breaches.length
  /-- a function just entered has made no call -/
  noReloadOwed : s.th.reloadOwed = false
  spAligned : (s.x 1).toNat % 16 = 0
  spValid : s.th.frames.head? = some (s.x 1) ∧ s.th.frames.Pairwise (fun u v => u.toNat < v.toNat)
  backChain : BackChainHolds s
  returnAddr : s.regs.lr = a.ret
  entryAddr : a.kind = .globalEntry → s.x 12 = s.pc
  envPointer : ∀ e, a.env = some e → s.x 11 = e
  callerToc : tocLegal s.params a.caller (s.x 2) = true
  threadPointer : s.x 13 = s.th.threadPtr
  noRefusal : s.th.breaches = []

/-- P19, R73: a function whose language requires an environment pointer is entered in a way that initialises it. -/
def envNeedMet (p : Params) (a : Activation) : Bool := !needsEnvPointer p a.callee || a.env.isSome

/-! ## Duties on program text (R68, R70, R71) -/

/-- What is breached by executing the instruction at pc, if it is an `@l` use of a TOC-derived value: r2 must hold the function's TOC pointer (R68)
and the reaching definitions must agree (R70). -/
def textBreaches (s : State) : List AbiRule :=
  (s.params.tocUses.filter fun u => u.addr == s.pc.toNat).flatMap fun u =>
    failing (tocLegal s.params u.fn (s.x 2)) .textTocUnavailable ++ failing u.defsAgree .textDefinitionsDiffer

/-- The marks program text at pc leaves (R71: refuse(abi_violation)). -/
def State.checkText (s : State) : State := s.markAbi (textBreaches s)

/-! ## Actions that stand in the program text -/

/-- One step for an action at pc (log entry 3: what it performs is fixed by the program address). The steps that do not transfer control go on at pc + 4. -/
def perform (act : Action) (s : State) : Result :=
  match act with
  | .call c => .next (performCall c s)
  | .callOpaque c => .next (performCallOpaque c s)
  | .ret f => andThen (performReturn f s) fun t => .next t
  | .saveToc => andThen (saveToc s) fun t => .next t.advance
  | .reloadToc => andThen (reloadToc s) fun t => .next t.advance
  | .allocFrame size => andThen (allocFrame size s) fun t => .next t.advance
  | .freeFrame size => .next (freeFrame size s).advance

/-- The action that stands at pc, always the same one for one address (log entry 3). -/
def actionAt (s : State) : Option Action := s.params.actions.lookup s.pc.toNat

end Sys2Proof.Machine
end

