-- ==== Sys2Proof/Machine/BaseISA.lean ====
section
/-! DEFINITION. The open parameter BaseISA (00_scope.md P17, 20_memory.md R26, 30_encoding.md R38): what an instruction other than `mfocr` may be, and its step, held against the
convention "at any moment" (40_linkage_general_registers.md R43, R75 to R79, 60_exceptions.md R111, R113; log entry 18). -/

namespace Sys2Proof.Machine

/-- One `MemWrite` of an instruction. -/
structure BaseStore where
  addr : Word
  bytes : Nat
  value : Nat
  deriving DecidableEq, Repr

/-- What an instruction of BaseISA comes to: registers, its further state (R23) and stores, an exception (R110), or a word BaseISA does not know (R38). -/
inductive BaseAnswer where
  | effect (regs : Regs) (further : BaseState) (stores : List BaseStore)
  | exception
  | outside
  deriving DecidableEq, Repr

/-- P17. A word names the Reserved registers it reads and writes, the registers it writes through the floating-point view (R18) and the `MemRead`s it makes;
`run` is its effect, from the registers, BaseISA's further state (R23), the values read and draws of its own. -/
structure BaseISA where
  reads : InsnWord → List ReservedRegister
  writes : InsnWord → List ReservedRegister
  fprs : InsnWord → List (Fin 32)
  loads : InsnWord → Regs → BaseState → List (Word × Nat)
  run : InsnWord → Regs → BaseState → List Nat → (Fin 64 → Word) → BaseAnswer

/-- R38: the model has no BaseISA; it knows no word. -/
def noBaseISA : BaseISA where
  reads _ := []
  writes _ := []
  fprs _ := []
  loads _ _ _ := []
  run _ _ _ _ _ := .outside

/-- R43: the Reserved accesses a word makes, each a mark; reading r13 is allowed. -/
def reservedMarks (base : BaseISA) (w : InsnWord) : List Breach :=
  ((base.reads w).filter (· != .r13) ++ base.writes w).map Breach.reservedRegister

/-- The registers an instruction sees that reads the Reserved registers `rs`: of TAR and VRSAVE it sees nothing otherwise, a draw. -/
def seenRegs (rs : List ReservedRegister) (r : Regs) (d0 d1 : Word) : Regs :=
  { r with
    tar := if rs.contains .tar then r.tar else d0
    vrsave := if rs.contains .vrsave then r.vrsave else d1.setWidth 32 }

/-- The registers after an instruction that writes the Reserved registers `ws`: the others of them are as before; FPSCR has the bits it has (R19). -/
def keptRegs (p : Params) (ws : List ReservedRegister) (old new : Regs) : Regs :=
  let r := if ws.contains .r13 then new else new.setX 13 (old.x 13)
  { r with
    tar := if ws.contains .tar then new.tar else old.tar
    vrsave := if ws.contains .vrsave then new.vrsave else old.vrsave
    fpscr := new.fpscr &&& fpscrMask p }

/-- R18, D23: a register of `fs`, written through the floating-point view, has what was written in its left half and a draw in its right half. -/
def rightHalfDrawn (fs : List (Fin 32)) (k : Nat) (r : Regs) (i : Fin 64) : Quad :=
  if fs.any (fun n => fprHome n == i) then (r.vs i).extractLsb' 64 64 ++ Config.drawWord (k + i.val) else r.vs i

/-- The registers after an instruction that writes `fs` through the floating-point view, the draws from `k` on. A word that writes a vector-scalar register whole does not name it
there (log entry 18). -/
def drawRightHalves (fs : List (Fin 32)) (k : Nat) (r : Regs) : Regs := { r with vsr := Vector.ofFn (rightHalfDrawn fs k r) }

/-- R27, R28: whether an access of `n` bytes at `a` is one of R27's, 8 bytes at x[1] or at x[1] + TOC_SAVE_OFFSET, and is misaligned. The x[1] meant is the one at the access: before the step
for a read, after the step's move of r1 for a store (DESIGN CHOICE, log entry 18). -/
def State.slotMisaligned (s : State) (a : Word) (n : Nat) : Bool :=
  n == doublewordBytes && (a == s.x 1 || a == tocSlot s.params s.regs) && a.toNat % doublewordBytes != 0

/-- A `MemRead` by an instruction of BaseISA: refused where it is a misaligned one of R27's (R28, D4). What any other misaligned one does is BaseISA's, and the model reads its bytes like any
others (DESIGN CHOICE, log entry 18). -/
def baseRead (s : State) (a : Word) (n : Nat) : Except Refusal (BitVec (8 * n) × State) :=
  if s.slotMisaligned a n then .error .slotMisaligned else s.memRead a n

/-- A `MemWrite` by an instruction of BaseISA, refused and performed as `baseRead` is. -/
def baseWrite (s : State) (a : Word) (n v : Nat) : Except Refusal State :=
  if s.slotMisaligned a n then .error .slotMisaligned else s.memWrite a n v

/-- Several `MemRead`s in order. -/
def memReads : List (Word × Nat) → State → Except Refusal (List Nat × State)
  | [], s => .ok ([], s)
  | l :: ls, s =>
    match baseRead s l.1 l.2 with
    | .error e => .error e
    | .ok r =>
      match memReads ls r.2 with
      | .error e => .error e
      | .ok q => .ok (r.1.toNat :: q.1, q.2)

/-- Several `MemWrite`s in order. -/
def memWrites : List BaseStore → State → Except Refusal State
  | [], s => .ok s
  | b :: bs, s =>
    match baseWrite s b.addr b.bytes b.value with
    | .error e => .error e
    | .ok t => memWrites bs t

/-- r1 comes to `v`: lowered, it takes one frame (R77); raised, it gives frames back (R75, R79). -/
def moveSp (v : Word) (s : State) : State :=
  if v = s.x 1 then s
  else if v.toNat < (s.x 1).toNat then lowerSp s (s.x 1 - v)
  else s.writeGpr 1 v

/-- The effect of an instruction: registers and further state, r1 held against R75 to R79, then its stores, after which the back chain must hold (R78: "in the same step").
An effect that would leave pc off the grid of 4 is refused (R21). -/
def applyEffect (base : BaseISA) (w : InsnWord) (r : Regs) (further : BaseState) (stores : List BaseStore) (s : State) : Result :=
  let k := keptRegs s.params (base.writes w) s.regs r
  if k.pc.toNat % insnBytes ≠ 0 then .refused .fetchMisaligned
  else andThen (memWrites stores (moveSp (k.x 1) (((s.setRegs (k.setX 1 (s.x 1))).setBaseState further).markAll (reservedMarks base w)))) fun t => .next t.checkChain

/-- R64: an instruction of BaseISA that makes the `MemRead(x[1] + TOC_SAVE_OFFSET, 8)` and leaves the value read in r2 is the reload (that any such instruction is it is DESIGN CHOICE,
log entry 43). `vs` are the values the reads `ls` found. -/
def isReload (p : Params) (seen : Regs) (ls : List (Word × Nat)) (vs : List Nat) (after : Regs) : Bool :=
  (ls.zip vs).any fun l => l.1 == (tocSlot p seen, doublewordBytes) && after.x 2 == BitVec.ofNat 64 l.2

/-- One step of an instruction of BaseISA. -/
def runBase (base : BaseISA) (w : InsnWord) (s : State) : Result :=
  let seen := seenRegs (base.reads w) s.regs (Config.drawWord s.draws) (Config.drawWord (s.draws + 1))
  match memReads (base.loads w seen s.baseState) (s.drawn 98) with
  | .error e => .refused e
  | .ok q =>
    match base.run w seen s.baseState q.1 fun i => Config.drawWord (s.draws + 2 + i.val) with
    | .effect r further stores =>
      applyEffect base w (drawRightHalves (base.fprs w) (s.draws + 66) r) further stores
        (q.2.setReloadOwed (s.th.reloadOwed && !isReload s.params seen (base.loads w seen s.baseState) q.1 r))
    | .exception => takeException
    | .outside => .refused (.outsideSpec w)

end Sys2Proof.Machine
end

