-- ==== Sys2Proof/Machine/Operands.lean ====
section
/-! DEFINITION. Operand forms: the field FXM selects (30_encoding.md R35) and the mode `mfocr` runs in (41_condition_register_mfocr.md R87). -/

namespace Sys2Proof.Machine

/-- R35: the n with FXM = 0x80 >> n; none when FXM has no bit or more than one bit set (R37). -/
def selectedField (fxm : BitVec 8) : Option (Fin 8) :=
  if fxm = 0x80#8 then some 0
  else if fxm = 0x40#8 then some 1
  else if fxm = 0x20#8 then some 2
  else if fxm = 0x10#8 then some 3
  else if fxm = 0x08#8 then some 4
  else if fxm = 0x04#8 then some 5
  else if fxm = 0x02#8 then some 6
  else if fxm = 0x01#8 then some 7
  else none

/-- R87: POWER8 gives P8_REPLICATE; POWER9 and any other compliant processor ABI_ANY; a processor that is not fixed UNION. -/
def modeOfProcessor : Option Processor → MfocrMode
  | some .power8 => .p8Replicate
  | some .power9 => .abiAny
  | some .otherOpenPower => .abiAny
  | none => .union

/-- The mode of the run: the one given, else the processor's (R87). That a given mode overrides the processor's is the model's choice (DESIGN CHOICE, log entry 33). -/
def mfocrModeOf (p : Params) : MfocrMode := p.mfocrMode.getD (modeOfProcessor p.processor)

end Sys2Proof.Machine
end

