-- ==== Sys2Proof/Machine/ConditionRegister.lean ====
section
/-! DEFINITION. The family of `opcode_table.json`: `mfocr` (41_condition_register_mfocr.md R83 to R87). -/

namespace Sys2Proof.Machine

/-- P8_REPLICATE (R85): both halves of the byte that holds field n hold that field, the other bytes are 0. -/
def replicated (n : Fin 8) (cr : CrWord) : CrWord := atField (crf cr n) n ||| atField (crf cr n) (partner n)

/-- ABI_ANY (R84): the selected field, and in every other position the condition register's bit where `mask` is 1, else 0. -/
def compliant (n : Fin 8) (cr mask : CrWord) : CrWord := (cr &&& fieldMask n) ||| (cr &&& mask)

/-- Fill(MFOCR_MODE, n, CR) (R87). The draws are arguments: `choice` takes POWER8's value under UNION, `mask` the condition register's bits under ABI_ANY and UNION.
Bits 63 to 32 are 0 in every mode (D11). -/
def fill (m : MfocrMode) (n : Fin 8) (cr : CrWord) (choice : Bool) (mask : CrWord) : Word :=
  let low : CrWord := match m with
    | .zero => compliant n cr 0
    | .arch => cr
    | .p8Replicate => replicated n cr
    | .abiAny => compliant n cr mask
    | .union => if choice then replicated n cr else compliant n cr mask
  low.setWidth 64

/-- What `mfocr` writes to x[RT], with its two draws: in the valid form the fill (R83), else any 64-bit value (R37, D28). -/
def mfocrResult (p : Params) (fxm : BitVec 8) (cr : CrWord) (d0 d1 : Word) : Word :=
  match selectedField fxm with
  | some n => fill (mfocrModeOf p) n cr (d0.getLsbD 0) (d1.setWidth 32)
  | none => d0

/-- `mfocr RT,FXM` (R83): x[RT] <- r, pc <- pc + 4, nothing else; every execution has two draws of its own. -/
def execMfocr (rt : Fin 32) (fxm : BitVec 8) (s : State) : Result :=
  .next (((s.drawn 2).writeGpr rt
    (mfocrResult s.params fxm s.regs.cr (Config.drawWord s.draws) (Config.drawWord (s.draws + 1)))).advance)

/-! ## R87 as sets of values, bit by bit, as the rule's table has them -/

/-- The position `k` belongs to field n. -/
def inField (n : Fin 8) (k : Fin 32) : Bool := k.val / 4 == 7 - n.val

/-- ZERO: r[k] = 0 outside the selected field. -/
def ZeroFill (n : Fin 8) (cr : CrWord) (r : Word) : Prop :=
  r.extractLsb' 32 32 = 0#32 ∧ ∀ k : Fin 32, r.getLsbD k = if inField n k then cr.getLsbD k else false

/-- ARCH: r[k] = CR[k], so r[31:0] = CR. -/
def ArchFill (cr : CrWord) (r : Word) : Prop :=
  r.extractLsb' 32 32 = 0#32 ∧ ∀ k : Fin 32, r.getLsbD k = cr.getLsbD k

/-- P8_REPLICATE: r[k] = CRF(n)[k mod 4] in the partner field, 0 in the other bytes. -/
def ReplicatedFill (n : Fin 8) (cr : CrWord) (r : Word) : Prop :=
  r.extractLsb' 32 32 = 0#32 ∧ ∀ k : Fin 32, r.getLsbD k =
    if inField n k then cr.getLsbD k
    else if inField (partner n) k then (crf cr n).getLsbD (k.val % 4) else false

/-- ABI_ANY: r[k] is 0 or CR[k], independently for each k. -/
def CompliantFill (n : Fin 8) (cr : CrWord) (r : Word) : Prop :=
  r.extractLsb' 32 32 = 0#32 ∧ ∀ k : Fin 32,
    if inField n k then r.getLsbD k = cr.getLsbD k else r.getLsbD k = false ∨ r.getLsbD k = cr.getLsbD k

/-- The values `Fill(mode, n, CR)` may have (R87). -/
def FillAdmits (m : MfocrMode) (n : Fin 8) (cr : CrWord) (r : Word) : Prop :=
  match m with
  | .zero => ZeroFill n cr r
  | .arch => ArchFill cr r
  | .p8Replicate => ReplicatedFill n cr r
  | .abiAny => CompliantFill n cr r
  | .union => ZeroFill n cr r ∨ CompliantFill n cr r ∨ ReplicatedFill n cr r

end Sys2Proof.Machine
end

