-- ==== Sys2Proof/Machine/Run.lean ====
section
/-! DEFINITION. Fetch, and one step with the open parameter BaseISA (10_state.md R21, 20_memory.md R31, 30_encoding.md R36, R38). -/

namespace Sys2Proof.Machine

/-- The bytes of program text listed from an address up. -/
def textBytes (m : List Host.Cell) : Nat → Nat → Option (List Byte)
  | _, 0 => some []
  | a, n + 1 =>
    match Memory.get m a, textBytes m (a + 1) n with
    | some b, some bs => some (b :: bs)
    | some _, none => none
    | none, _ => none

/-- The word at pc: refused where the fetch would wrap or pc is no multiple of 4 (R21, D2), or where no program text stands: a byte that MEMMAP does not call code
(R31: program text is what MEMMAP calls code, and is fixed) or that the program does not give (log entry 32). -/
def fetch (s : State) : Except Refusal InsnWord :=
  if addressSpace < s.pc.toNat + insnBytes then .error .fetchWraps
  else if s.pc.toNat % insnBytes ≠ 0 then .error .fetchMisaligned
  else if !((List.range insnBytes).all fun k => holdsCode s.params (s.pc.toNat + k)) then .error .noProgramText
  else match textBytes s.mem s.pc.toNat insnBytes with
    | none => .error .noProgramText
    | some bs => .ok (BitVec.ofNat 32 (joinBytes s.params.byteOrder bs))

/-- The word at pc is decoded and run. -/
def runWord (base : BaseISA) (w : InsnWord) (s : State) : Result :=
  match decodeWord w with
  | .ok i => exec i s
  | .error (.reservedBits v) => .refused (.reservedBits v)
  | .error (.outsideSpec v) => runBase base v s
  | .error .tooShort => .refused .noProgramText

/-- One step of the running thread: the action that stands at pc, or the instruction fetched there; the duties on program text are held against the state before it.
An action is performed wherever the program lists it: that pc need not be code for it, and that a store over its address is an ordinary one, is the model's choice (DESIGN CHOICE, log entry 3). -/
def stepWith (base : BaseISA) (s : State) : Result :=
  match actionAt s with
  | some act => perform act s.checkText
  | none =>
    match fetch s with
    | .error r => .refused r
    | .ok w => runWord base w s.checkText

/-- Load an instruction word where the next fetch finds it: at pc (aligned down to an instruction address), which MEMMAP then calls code, with no action standing there (log entry 9). -/
def placeWord (s : State) (w : InsnWord) : State :=
  let pc : Word := s.pc &&& 0xFFFFFFFFFFFFFFFC#64
  { s with
    th := { s.th with regs := { s.th.regs with pc := pc } }
    mem := Memory.store s.mem pc (bytesOf s.params.byteOrder insnBytes w.toNat)
    params := { s.params with
      memmap := ⟨.code, pc.toNat, insnBytes⟩ :: s.params.memmap
      actions := s.params.actions.filter fun e => e.1 != pc.toNat } }

end Sys2Proof.Machine
end

