-- ==== Sys2Proof/Machine/Step.lean ====
section
/-! DEFINITION. The step of the machine and the host's way to place an instruction. -/

namespace Sys2Proof.Machine

/-- One step; the model has no BaseISA (30_encoding.md R38; log entry 8). -/
def step (s : State) : Host.Outcome State Fault Refusal := stepWith noBaseISA s

/-- `s` with the instruction `w` (its bits above `nbits` zero) where step fetches its next instruction (log entry 9). -/
def State.withFetchWord (s : State) (nbits w : Nat) : State := placeWord s (tableWord nbits w)

end Sys2Proof.Machine
end

