-- ==== Sys2Proof/Machine/ParamPlacement.lean ====
section
/-! DEFINITION. Which registers carry parameters and results of the wide and the decimal floating-point types (42_fp_vector_registers_parameters.md R94 to R100, R107 to R109). -/

namespace Sys2Proof.Machine

/-! ## Decimal floating point -/

/-- R96: the three DFP widths, 32, 64 and 128 bits. -/
inductive DfpType where
  | single
  | double
  | quad
  deriving DecidableEq, Repr

def dfpBits : DfpType → Nat
  | .single => 32
  | .double => 64
  | .quad => 128

/-- Where allocation stands: the next floating-point register in allocation order (the source gives no first one, 91 N11, but f0 carries no parameter, R89), the registers skipped,
and the general-register or memory doublewords of the parameter list consumed (R100). -/
structure DfpCursor where
  next : Nat
  skipped : List Nat
  doublewords : Nat
  deriving DecidableEq, Repr

/-- The doublewords of the parameter list a DFP parameter takes (R100; 95 V-D4). -/
def dfpDoublewords : DfpType → Nat
  | .single => 1
  | .double => 1
  | .quad => 2

/-- R99, 90 C8: the register skipped for a quad-precision parameter when the next one is odd. -/
def dfpSkip (t : DfpType) (next : Nat) : List Nat :=
  match t with
  | .single => []
  | .double => []
  | .quad => if next % 2 = 1 then [next] else []

/-- The registers a DFP parameter occupies (R96 to R99) and the cursor after it. f0 carries no parameter (R89), so a cursor at f0 has no answer. Which of the others carry DFP parameters
is not stated (R96, 91 N11): that placement starts wherever else the cursor says, and that there is none where the file has no register left, which the source does not speak of,
is the model's choice (DESIGN CHOICE, log entry 27). -/
def placeDfp (t : DfpType) (c : DfpCursor) : Option (List Nat × DfpCursor) :=
  let start := c.next + (dfpSkip t c.next).length
  let used := match t with
    | .single => [start]
    | .double => [start]
    | .quad => [start, start + 1]
  if used.all (fun r => decide (1 ≤ r) && decide (r < 32)) then
    some (used, { next := start + used.length
                  skipped := c.skipped ++ dfpSkip t c.next
                  doublewords := c.doublewords + dfpDoublewords t })
  else none

/-- A sequence of DFP parameters in order. -/
def placeDfps : List DfpType → DfpCursor → Option (List (List Nat) × DfpCursor)
  | [], c => some ([], c)
  | t :: ts, c =>
    match placeDfp t c with
    | none => none
    | some (used, c1) =>
      match placeDfps ts c1 with
      | none => none
      | some (rest, c2) => some (used :: rest, c2)

/-- R97: a 32-bit DFP value in the lower half of f[i], the register placement gave it (never f0, R89); the upper half is arbitrary on receipt, a draw. -/
def passDfpSingle (i : Fin 32) (d : BitVec 32) (s : State) : State :=
  (s.drawn 1).writeFpr i ((Config.drawWord s.draws).setWidth 32 ++ d)

/-- R96: a 64-bit DFP value in f[i], the register placement gave it (never f0, R89). -/
def passDfpDouble (i : Fin 32) (d : Word) (s : State) : State := s.writeFpr i d

/-- The even and the odd register of pair j. -/
def pairEven (j : Fin 16) : Fin 32 := ⟨2 * j.val, by omega⟩
def pairOdd (j : Fin 16) : Fin 32 := ⟨2 * j.val + 1, by omega⟩

/-- R98: a 128-bit DFP value in an even/odd pair, the one placement gave it (never that of f0, R89); the even register holds the more significant half (PRESUMED by the spec, 93 G17; log entry 13). -/
def passDfpQuad (j : Fin 16) (d : Quad) (s : State) : State :=
  (s.writeFpr (pairEven j) (d.extractLsb' 64 64)).writeFpr (pairOdd j) (d.extractLsb' 0 64)

/-- A skipped register holds an arbitrary value (R99, 93 U4). -/
def skipFpr (i : Fin 32) (s : State) : State := (s.drawn 1).writeFpr i (Config.drawWord s.draws)

/-! ## IEEE binary128 (R107) -/

/-- The vector register of a binary128 parameter, the next of v2 to v13 (R107), and the next one after it. In what order v2 to v13 are assigned is not in the source
(R103, 91 N12): that the next register is the one with the next higher number is the model's choice (DESIGN CHOICE, log entry 39). -/
def placeBinary128 (next : Nat) : Option (Nat × Nat) :=
  if 2 ≤ next ∧ next ≤ 13 then some (next, next + 1) else none

/-- R107: a binary128 value is passed in a single vector register. -/
def passBinary128 (i : Fin 32) (q : Quad) (s : State) : State := s.writeVr i q

/-! ## IBM extended precision (R108, R109) -/

/-- Where a double of an IBM extended-precision pair goes; which general register or memory doubleword is a parameter of the call (93 U15). -/
inductive DoubleHome where
  | fpr (i : Nat)
  | gpr (i : Fin 32)
  | memory (a : Word)
  deriving DecidableEq, Repr

/-- R109, 93 U15: not a floating-point register. -/
def DoubleHome.outsideFpr : DoubleHome → Bool
  | .fpr _ => false
  | .gpr _ => true
  | .memory _ => true

/-- R108, R109: two successive registers of f1 to f13; if only f13 is left the second double goes to `elsewhere`. None where no register is left, which the source does not speak of,
or where `elsewhere` is a floating-point register. In what order f1 to f13 are assigned is not in the source (R90, 91 N12): that the next parameter goes on at the next higher register
is the model's choice (DESIGN CHOICE, log entry 39). -/
def placeIbmExtended (next : Nat) (elsewhere : DoubleHome) : Option (DoubleHome × DoubleHome × Nat) :=
  if 1 ≤ next ∧ next ≤ 12 then some (.fpr next, .fpr (next + 1), next + 2)
  else if next = 13 ∧ elsewhere.outsideFpr = true then some (.fpr 13, elsewhere, 14)
  else none

/-- One double at its home. What alignment a doubleword of the parameter list in memory needs, R28 leaves to BaseISA (R27's two accesses alone are refused if misaligned): the model
stores the eight bytes at any address, a misaligned one too (DESIGN CHOICE, unsafe, log entry 28). -/
def passDouble (h : DoubleHome) (v : Word) (s : State) : Except Refusal State :=
  match h with
  | .fpr i => .ok (s.writeFpr (Fin.ofNat 32 i) v)
  | .gpr i => .ok (s.writeGpr i v)
  | .memory a => s.memWrite a 8 v.toNat

/-- R108: a pair of doubles at the homes placement gave. -/
def passIbmExtended (h1 h2 : DoubleHome) (v1 v2 : Word) (s : State) : Except Refusal State :=
  match passDouble h1 v1 s with
  | .error e => .error e
  | .ok s1 => passDouble h2 v2 s1

end Sys2Proof.Machine
end

