-- ==== Sys2Proof/Safety.lean ====
section
/-! DEFINITION. What counts as a safe run, in the terms claims use: no mark recorded (60_exceptions.md R111, R118 NoRefusal), the end of a run (70_reset_and_hazards.md R122),
and the invariant of the machine. -/

namespace Sys2Proof.Machine

/-- R118 NoRefusal: nothing has been marked in the running thread. -/
def Unmarked (s : State) : Prop := s.th.breaches = []

/-- What is answered when a next state goes on as `k` says; a fault and a refusal stay. -/
def mapNext (k : State → State) (r : Result) : Result :=
  match r with
  | .next t => .next (k t)
  | .fault e => .fault e
  | .refused e => .refused e

/-- R122: a run launched in `start`, at the entry of the function that is running there, has ended in `t`: that function has returned, nothing is marked, and the state is its `exit(f)`. -/
def RunEnded (start t : State) : Prop :=
  Unmarked t ∧ ∃ a rest, start.th.activations = a :: rest ∧ t.th.activations = rest ∧ t.th.exits.head? = some ⟨a, t.regs, t.mem, t.memGen, t.baseState⟩

/-- R21, R33: a code address. -/
def codeAligned (a : Word) : Prop := a.toNat % insnBytes = 0

/-- What the convention keeps true of r1, r13 and the stack frames "at every moment" of an unmarked run (R43, R75, R76, R77, R79). -/
structure StackHolds (t : Thread) : Prop where
  /-- R76 -/
  aligned : (t.regs.x 1).toNat % 16 = 0
  /-- R75 -/
  lowest : t.frames.head? = some (t.regs.x 1)
  /-- R77 -/
  rising : t.frames.Pairwise fun u v => u.toNat < v.toNat
  /-- R76: every frame was r1's value once -/
  framesAligned : ∀ f ∈ t.frames, f.toNat % 16 = 0
  /-- R79, for every function that has not returned -/
  belowEntry : ∀ a ∈ t.activations, (t.regs.x 1).toNat ≤ (a.entry.x 1).toNat
  /-- R77: a function entered later was entered with r1 no higher -/
  nested : t.activations.Pairwise fun a b => (a.entry.x 1).toNat ≤ (b.entry.x 1).toNat
  /-- R43, R54 -/
  threadPointer : t.regs.x 13 = t.threadPtr

/-- What `entry(f)` has in common with the state just before the Call (R45, R72 to R74): all but r0, r11, r12, LR and pc. LR holds the return address. -/
structure EntryFollowsCall (a : Activation) : Prop where
  returnAddress : a.entry.lr = a.ret
  returnAligned : codeAligned a.ret
  gprs : ∀ i : Fin 32, i ≠ 0 → i ≠ 11 → i ≠ 12 → a.entry.x i = a.pre.x i
  cr : a.entry.cr = a.pre.cr
  vsr : a.entry.vsr = a.pre.vsr

/-- The invariant of the machine, but for the back chain. -/
structure InvButChain (s : State) : Prop where
  /-- R25 -/
  memory : Memory.wf s.mem
  /-- R19, P9: FPSCR has no bits beyond its width -/
  fpscr : s.regs.fpscr &&& ~~~fpscrMask s.params = 0#64
  /-- R21 -/
  pc : codeAligned s.pc
  params : s.params.wf = true
  activations : ∀ a ∈ s.th.activations, EntryFollowsCall a
  /-- R43, R75 to R79, as long as nothing is marked -/
  stack : Unmarked s → StackHolds s.th

/-- The invariant of the machine. -/
structure Inv (s : State) : Prop extends InvButChain s where
  /-- R78, as long as nothing is marked -/
  chain : Unmarked s → BackChainsHold s

end Sys2Proof.Machine
end

