-- ==== Sys2Proof/Certificates/Slice0/Obligations.lean ====
section
/-! DEFINITION. The statements for the provers. Each docstring names the rules of spec/ it formalises; where a clause rests on a decision of the spec ("decision D<n>"),
on the spec's general knowledge ("G<n>") or on a log entry of the model, it says so. -/

open Sys2Proof Sys2Proof.Machine

/-! ## Encoding, fetch and step -/

/-- 30_encoding.md R34, R35 (G4): words written out bit by bit decode to the instruction they stand for; opcode 31, RT, flag 1, FXM, reserved 0, extended opcode 19, reserved 0. -/
def Obligations.WrittenOutWordsDecode : Prop :=
  decodeWord 0b01111101001100100000000000100110#32 = .ok (.mfocr 9 0x20#8) ∧
  decodeWord 0b01111100000101000000000000100110#32 = .ok (.mfocr 0 0x40#8) ∧
  decodeWord 0b01111111111100000010000000100110#32 = .ok (.mfocr 31 0x02#8) ∧
  decodeWord 0b01111100011101111111000000100110#32 = .ok (.mfocr 3 0x7F#8) ∧
  decodeTableWord 32 0x7C701026 = some (.mfocr 3 0x01#8)

/-- 30_encoding.md R34, R35: every form (32 registers, 256 masks) comes back from its word, and from its bytes in either byte order, with what follows left over. -/
def Obligations.DecodeOfEncodeIsIdentity : Prop :=
  ∀ i : Instr, decodeWord (encode i) = .ok i ∧
    ∀ (o : ByteOrder) (rest : List Byte), decodeBytes o (encodeBytes o i ++ rest) = .ok (i, rest)

/-- 30_encoding.md R34, R36, R38: a word decodes to an instruction only if it is that instruction's encoding. -/
def Obligations.OnlyEncodingsDecode : Prop :=
  ∀ (w : InsnWord) (i : Instr), decodeWord w = .ok i ↔ w = encode i

/-- 30_encoding.md R36 (decision D12): a word that is `mfocr` but for a reserved bit set is refused, not executed. -/
def Obligations.ReservedBitWordsStop : Prop :=
  ∀ (i : Instr) (w : InsnWord), w = encode i ||| 0x1#32 ∨ w = encode i ||| 0x800#32 ∨ w = encode i ||| 0x801#32 →
    decodeWord w = .error (.reservedBits w) ∧
    ∀ (base : BaseISA) (s : State), actionAt s = none → fetch s = .ok w → stepWith base s = .refused (.reservedBits w)

/-- 30_encoding.md R38, 60_exceptions.md R110 (decisions D19, D7): every word that is no `mfocr`, reserved bits aside, goes to BaseISA, whose exception ends the run; the model has none and
refuses the word. BaseISA's further state (10_state.md R23) is what its instruction leaves there. What a BaseISA may be, and that its step is `runBase` (an instruction without accesses
that leaves r1 and the grid alone has just its effect on the registers and that state), is the model's choice (log entries 18, 42). -/
def Obligations.ForeignWordsGoToBaseISA : Prop :=
  ∀ w : InsnWord, (∀ i : Instr, w &&& 0xFFFFF7FE#32 ≠ encode i) →
    decodeWord w = .error (.outsideSpec w) ∧
    ∀ s : State, actionAt s = none → fetch s = .ok w →
      step s = .refused (.outsideSpec w) ∧
      ∀ base : BaseISA, stepWith base s = runBase base w s.checkText ∧
        ((∀ r f, base.loads w r f = []) →
          ((∀ r f l d, base.run w r f l d = .exception) → stepWith base s = .fault .baseException) ∧
          ((∀ r f l d, base.run w r f l d = .outside) → stepWith base s = .refused (.outsideSpec w)) ∧
          (∀ (g : Regs → Regs) (h : BaseState → BaseState) (r : Regs), (∀ q f l d, base.run w q f l d = .effect (g q) (h f) []) →
            base.reads w = [] → base.writes w = [] → base.fprs w = [] →
            r = g (seenRegs [] s.regs (Config.drawWord s.draws) (Config.drawWord (s.draws + 1))) → r.x 1 = s.x 1 → r.pc.toNat % 4 = 0 →
            ∃ t, stepWith base s = .next t ∧ t.regs = keptRegs s.params [] s.regs r ∧ t.baseState = h s.baseState ∧ ∀ b, t.byteAt b = s.byteAt b))

/-- 10_state.md R21, 20_memory.md R31: a step runs the decoded instruction: where the four bytes at pc are code and known and decode to `i`, and no action stands there, step is exec of `i`,
after the marks that R68 and R70 (40_linkage_general_registers.md) put on the program text at pc (`checkText` adds marks and nothing else). That text is fetched only where MEMMAP says code
is log entry 32, that the uses R68 and R70 speak of are those the program lists log entry 35, both the model's choice. Where an action stands at pc (R45, R46, R64, R75 to R79, which have no
encoding), step performs it, after the same marks and whatever BaseISA is: that actions stand at addresses of the program, each one step, is the model's choice (log entry 3). -/
def Obligations.StepRunsDecodedInstruction : Prop :=
  (∀ (s : State) (bs : List Byte) (i : Instr), actionAt s = none → s.pc.toNat % 4 = 0 → (∀ k < 4, holdsCode s.params (s.pc.toNat + k) = true) →
    textBytes s.mem s.pc.toNat 4 = some bs → decodeBytes s.params.byteOrder bs = .ok (i, []) →
    step s = exec i s.checkText ∧ ∀ base : BaseISA, stepWith base s = exec i s.checkText) ∧
  ∀ (s : State) (act : Action), actionAt s = some act →
    step s = perform act s.checkText ∧ ∀ base : BaseISA, stepWith base s = perform act s.checkText

/-- Log entry 9: an instruction placed for the next fetch is the one the next step runs. -/
def Obligations.PlacedInstructionRunsNext : Prop :=
  ∀ (s : State) (i : Instr),
    step (s.withFetchWord 32 (encode i).toNat) = exec i (s.withFetchWord 32 (encode i).toNat).checkText

/-- 10_state.md R21 (decision D2): no fetch that would wrap the address space or off the grid of 4. The model's choices: which of the two names an address above 2^64-4 gets (log entry 14),
and that a byte MEMMAP does not call code, or that the program does not give, is no program text (20_memory.md R31, decision D5, log entries 9 and 32). -/
def Obligations.FetchOffProgramTextStops : Prop :=
  ∀ s : State, actionAt s = none →
    (2 ^ 64 - 4 < s.pc.toNat → step s = .refused .fetchWraps) ∧
    (s.pc.toNat ≤ 2 ^ 64 - 4 → s.pc.toNat % 4 ≠ 0 → step s = .refused .fetchMisaligned) ∧
    (s.pc.toNat % 4 = 0 → (∃ k < 4, holdsCode s.params (s.pc.toNat + k) = false ∨ Memory.get s.mem (s.pc.toNat + k) = none) → step s = .refused .noProgramText)

/-! ## mfocr -/

/-- 41_condition_register_mfocr.md R83 (G5): `mfocr` completes from every state, on every register and mask: x[RT] is written and pc advances by 4. -/
def Obligations.MfocrCompletes : Prop :=
  ∀ (rt : Fin 32) (fxm : BitVec 8) (s : State), ∃ t, exec (.mfocr rt fxm) s = .next t ∧
    t.x rt = mfocrResult s.params fxm s.regs.cr (Config.drawWord s.draws) (Config.drawWord (s.draws + 1)) ∧
    t.pc = s.pc + 4

/-- 41_condition_register_mfocr.md R83, R87, 30_encoding.md R35 (G5, decision D11): with exactly the bit 0x80 >> n of FXM set, x[RT] holds CRF(n) at the place it has
in the condition register word, in every mode, and its upper half is 0. -/
def Obligations.MfocrMovesSelectedField : Prop :=
  ∀ (rt : Fin 32) (n : Fin 8) (s : State), ∃ t, exec (.mfocr rt (0x80#8 >>> n.val)) s = .next t ∧
    (t.x rt).extractLsb' (28 - 4 * n.val) 4 = crf s.regs.cr n ∧ (t.x rt).extractLsb' 32 32 = 0#32 ∧
    FillAdmits (mfocrModeOf s.params) n s.regs.cr (t.x rt)

/-- 30_encoding.md R37 (decision D28): with no bit or more than one bit of FXM set, x[RT] is a free value of 64 bits, and the instruction completes. -/
def Obligations.MfocrInvalidFormIsFree : Prop :=
  ∀ (rt : Fin 32) (fxm : BitVec 8) (s : State), (Instr.mfocr rt fxm).validForm = false →
    ∃ t, exec (.mfocr rt fxm) s = .next t ∧ t.x rt = Config.drawWord s.draws ∧ t.pc = s.pc + 4

/-- 41_condition_register_mfocr.md R83 (G5): the frame of `mfocr`: only x[RT] and pc change, no flag, no special register, no byte of memory, nothing of BaseISA's (R23);
with RT = 1 and a lower value the bytes that r1 comes below, program text apart, are not kept, as R113 says of every byte below r1 (60_exceptions.md).
Of the model's own records, the draw counter moves by 2 (with RT = 1 by those bytes too), whether a reload of r2 is owed (log entry 43) stays, and the frames change only for RT = 1, the marks only for RT = 1 and RT = 13. -/
def Obligations.MfocrFrame : Prop :=
  ∀ (rt : Fin 32) (fxm : BitVec 8) (s t : State), exec (.mfocr rt fxm) s = .next t →
    (∀ i, i ≠ rt → t.x i = s.x i) ∧
    t.regs.cr = s.regs.cr ∧ t.regs.xer = s.regs.xer ∧ t.regs.fpscr = s.regs.fpscr ∧ t.regs.vscr = s.regs.vscr ∧
    t.regs.lr = s.regs.lr ∧ t.regs.ctr = s.regs.ctr ∧ t.regs.tar = s.regs.tar ∧ t.regs.dscr = s.regs.dscr ∧
    t.regs.vrsave = s.regs.vrsave ∧ t.regs.vsr = s.regs.vsr ∧
    (∀ a, (rt = 1 → a < (t.x 1).toNat ∨ (s.x 1).toNat ≤ a ∨ holdsCode s.params a = true) → t.byteAt a = s.byteAt a) ∧
    (rt ≠ 1 → t.mem = s.mem ∧ t.draws = s.draws + 2) ∧ t.params = s.params ∧ t.parked = s.parked ∧ t.baseState = s.baseState ∧
    t.th.activations = s.th.activations ∧ t.th.exits = s.th.exits ∧ t.th.threadPtr = s.th.threadPtr ∧
    t.th.reloadOwed = s.th.reloadOwed ∧
    (rt ≠ 1 → t.th.frames = s.th.frames) ∧ (rt ≠ 1 → rt ≠ 13 → t.th.breaches = s.th.breaches)

/-- 41_condition_register_mfocr.md R87 (decision D10): in each mode the values `Fill` can give are exactly those of the rule's table, no fewer and no more. -/
def Obligations.FillGivesExactlyTheAdmittedValues : Prop :=
  ∀ (m : MfocrMode) (n : Fin 8) (cr : CrWord) (r : Word),
    FillAdmits m n cr r ↔ ∃ (choice : Bool) (mask : CrWord), fill m n cr choice mask = r

/-- 41_condition_register_mfocr.md R86, R84, R87 (decisions D10, D11): on POWER9, and on any other OpenPOWER-compliant processor, the mode is ABI_ANY and the result obeys R84: every undefined
bit of the low word is 0 or the condition register's, and the upper half is 0. Where the processor is not fixed the mode is UNION and the result is a value R87 admits there. -/
def Obligations.Power9ObeysTheAbiRequirement : Prop :=
  ∀ (rt : Fin 32) (n : Fin 8) (s : State), s.params.mfocrMode = none →
    ∃ t, exec (.mfocr rt (0x80#8 >>> n.val)) s = .next t ∧
      (s.params.processor = some .power9 ∨ s.params.processor = some .otherOpenPower → mfocrModeOf s.params = .abiAny ∧ CompliantFill n s.regs.cr (t.x rt)) ∧
      (s.params.processor = none → mfocrModeOf s.params = .union ∧ FillAdmits .union n s.regs.cr (t.x rt))

/-- 41_condition_register_mfocr.md R85 (decision D10 for the other bytes): on POWER8 both halves of the byte that holds the selected field hold that field,
and every other bit is 0. -/
def Obligations.Power8ReplicatesTheField : Prop :=
  ∀ (rt : Fin 32) (n : Fin 8) (s : State), s.params.processor = some .power8 → s.params.mfocrMode = none →
    ∃ t, exec (.mfocr rt (0x80#8 >>> n.val)) s = .next t ∧
      (t.x rt).extractLsb' (24 - 8 * (n.val / 2)) 8 = crf s.regs.cr n ++ crf s.regs.cr n ∧
      ∀ k : Fin 64, k.val / 8 ≠ 3 - n.val / 2 → (t.x rt).getLsbD k.val = false

/-- 41_condition_register_mfocr.md R84: the OR of compliant results read from one CR has each selected field in its place, and 0 or CR[k] in every other position of the low word. -/
def Obligations.OrOfCompliantResultsRecoversFields : Prop :=
  ∀ (cr : CrWord) (rs : List (Fin 8 × Word)), (∀ p ∈ rs, CompliantFill p.1 cr p.2) →
    ((rs.map Prod.snd).foldr (· ||| ·) 0).extractLsb' 32 32 = 0#32 ∧
    ∀ k : Fin 32,
      ((∃ p ∈ rs, inField p.1 k = true) → ((rs.map Prod.snd).foldr (· ||| ·) 0).getLsbD k.val = cr.getLsbD k.val) ∧
      (((rs.map Prod.snd).foldr (· ||| ·) 0).getLsbD k.val = false ∨
        ((rs.map Prod.snd).foldr (· ||| ·) 0).getLsbD k.val = cr.getLsbD k.val)

/-- 41_condition_register_mfocr.md R88: a result ANDed with the mask of its own field is `CRF(n) << (28-4n)` in every mode. -/
def Obligations.MaskedResultIsTheField : Prop :=
  ∀ (m : MfocrMode) (n : Fin 8) (cr : CrWord) (choice : Bool) (mask : CrWord),
    maskField n (fill m n cr choice mask) = (crf cr n).setWidth 64 <<< (28 - 4 * n.val)

/-- 41_condition_register_mfocr.md R88, R85: on POWER8 the OR of the unmasked results of the two fields of one byte holds `CRF(n) OR CRF(n xor 1)` in both places,
so it is wrong whenever the two fields differ; with the masks it is right in every mode. -/
def Obligations.UnmaskedPairIsCorruptOnPower8 : Prop :=
  ∀ (n : Fin 8) (cr : CrWord) (choice : Bool) (mask : CrWord),
    let both := fill .p8Replicate n cr choice mask ||| fill .p8Replicate (partner n) cr choice mask
    both.extractLsb' (crfLow n) 4 = crf cr n ||| crf cr (partner n) ∧
    both.extractLsb' (crfLow (partner n)) 4 = crf cr n ||| crf cr (partner n) ∧
    (crf cr n ≠ crf cr (partner n) →
      ¬ (both.extractLsb' (crfLow n) 4 = crf cr n ∧ both.extractLsb' (crfLow (partner n)) 4 = crf cr (partner n))) ∧
    ∀ (m : MfocrMode) (c1 c2 : Bool) (m1 m2 : CrWord),
      let masked := maskField n (fill m n cr c1 m1) ||| maskField (partner n) (fill m (partner n) cr c2 m2)
      masked.extractLsb' (crfLow n) 4 = crf cr n ∧ masked.extractLsb' (crfLow (partner n)) 4 = crf cr (partner n)

/-- 41_condition_register_mfocr.md R83, 40_linkage_general_registers.md R43, R75, R76, 60_exceptions.md R111 (decisions D14, D7; log entries 10, 11):
`mfocr` with RT = 13 is marked; with RT = 1 it is marked unless the result is a multiple of 16, the address of an allocated frame and not above the entry value.
The register is written all the same. -/
def Obligations.MfocrOntoReservedTargetsIsMarked : Prop :=
  ∀ (fxm : BitVec 8) (s : State),
    (∃ t, exec (.mfocr 13 fxm) s = .next t ∧ t.th.breaches = .reservedRegister .r13 :: s.th.breaches) ∧
    (∃ t, exec (.mfocr 1 fxm) s = .next t ∧
      (t.th.breaches = s.th.breaches ↔
        (t.x 1).toNat % 16 = 0 ∧ t.x 1 ∈ s.th.frames ∧
        ∀ a, s.th.activations.head? = some a → (t.x 1).toNat ≤ (a.entry.x 1).toNat))

/-! ## Registers and their views -/

/-- 10_state.md R11, R12: byte b of the condition register word holds CRF(2b) and CRF(2b+1), each the other's partner; writing a field leaves the other seven. -/
def Obligations.CrBytesHoldFieldPairs : Prop :=
  ∀ cr : CrWord,
    (∀ b : Fin 4, crByte cr b = crf cr ⟨2 * b.val, by omega⟩ ++ crf cr ⟨2 * b.val + 1, by omega⟩ ∧
      partner ⟨2 * b.val, by omega⟩ = ⟨2 * b.val + 1, by omega⟩ ∧ partner ⟨2 * b.val + 1, by omega⟩ = ⟨2 * b.val, by omega⟩) ∧
    ∀ (n m : Fin 8) (v : BitVec 4), crf (setCrf cr n v) m = if m = n then v else crf cr m

/-- 10_state.md R16, R17, R18 (decisions D22, D23): a write of f[N] changes vsr[N][127:64] and leaves a draw in its right half, a write of v[N] changes all of vsr[32+N];
neither touches a register of the other view, or another of its own. An instruction of any BaseISA leaves a draw in the right half of every register its word names as written through the
floating-point view (that a word names them is the model's choice, log entry 18). -/
def Obligations.FloatAndVectorViewsShareTheFile : Prop :=
  (∀ (base : BaseISA) (w : InsnWord) (s t : State), runBase base w s = .next t →
    ∀ n ∈ base.fprs w, t.regs.vsrRight n = Config.drawWord (s.draws + 66 + n.val)) ∧
  ∀ (s : State) (i : Fin 32) (w : Word) (q : Quad),
    (s.writeFpr i w).regs.f i = w ∧ (s.writeFpr i w).regs.vsrRight i = Config.drawWord s.draws ∧
    (∀ j, j ≠ i → (s.writeFpr i w).regs.f j = s.regs.f j ∧ (s.writeFpr i w).regs.vsrRight j = s.regs.vsrRight j) ∧
    (∀ j, (s.writeFpr i w).regs.v j = s.regs.v j) ∧
    (s.writeVr i q).regs.v i = q ∧ (s.writeVr i q).regs.vs ⟨32 + i.val, by omega⟩ = q ∧
    (∀ j, j ≠ i → (s.writeVr i q).regs.v j = s.regs.v j) ∧
    (∀ j, (s.writeVr i q).regs.f j = s.regs.f j ∧ (s.writeVr i q).regs.vsrRight j = s.regs.vsrRight j)

/-- 10_state.md R19, 42_fp_vector_registers_parameters.md R95 (decision D20): FPSCR takes all 64 bits with hardware DFP, and without it where its width is 64. Where its width is 32 the
model holds it in 64 bits whose upper half stays 0, so that DRN reads 0: the model's choice (log entry 24, with G8's place of DRN). -/
def Obligations.FpscrHoldsTheBitsItHas : Prop :=
  ∀ (s : State) (v : BitVec 64),
    (s.params.hasDfpHw = true → (s.writeFpscr v).regs.fpscr = v) ∧
    (s.params.hasDfpHw = false → s.params.fpscrWidthNoDfp = .w64 → (s.writeFpscr v).regs.fpscr = v) ∧
    (s.params.hasDfpHw = false → s.params.fpscrWidthNoDfp = .w32 →
      (s.writeFpscr v).regs.fpscr = (v.setWidth 32).setWidth 64 ∧ fpscrField (s.writeFpscr v).regs .drn = 0#3)

/-- 40_linkage_general_registers.md R43, R59, R62, 60_exceptions.md R111 (decision D14): an application's read or write of TAR or VRSAVE, and its write of r13, is marked; the access happens.
For an instruction of any BaseISA: every Reserved access its word names is marked, a Reserved register it does not name as written keeps its value, and whichever of TAR and VRSAVE it does
not name as read does not show through to it: from a state that differs in that register alone it answers the same fault or refusal, or the same next state, in every register, memory, the marks
and the further state, but for that register, which is the same too where it is written and as it was where not (that a word names its Reserved accesses is the model's choice, log entry 18). -/
def Obligations.SystemRegisterAccessIsMarked : Prop :=
  (∀ (s : State) (v : Word) (u : BitVec 32),
    (s.readTar).1 = s.regs.tar ∧ (s.readTar).2.th.breaches = .reservedRegister .tar :: s.th.breaches ∧
    (s.writeTar v).regs.tar = v ∧ (s.writeTar v).th.breaches = .reservedRegister .tar :: s.th.breaches ∧
    (s.readVrsave).1 = s.regs.vrsave ∧ (s.readVrsave).2.th.breaches = .reservedRegister .vrsave :: s.th.breaches ∧
    (s.writeVrsave u).regs.vrsave = u ∧ (s.writeVrsave u).th.breaches = .reservedRegister .vrsave :: s.th.breaches) ∧
  (∀ (base : BaseISA) (w : InsnWord) (s t : State), runBase base w s = .next t →
    (∀ r, r ∈ base.writes w ∨ (r ∈ base.reads w ∧ r ≠ .r13) →
      s.th.breaches.count (.reservedRegister r) < t.th.breaches.count (.reservedRegister r)) ∧
    (.tar ∉ base.writes w → t.regs.tar = s.regs.tar) ∧ (.vrsave ∉ base.writes w → t.regs.vrsave = s.regs.vrsave) ∧
    (.r13 ∉ base.writes w → t.x 13 = s.x 13)) ∧
  (∀ (rs : List ReservedRegister) (r : Regs) (d0 d1 v : Word) (u : BitVec 32),
    (.tar ∉ rs → seenRegs rs { r with tar := v } d0 d1 = seenRegs rs r d0 d1) ∧
    (.vrsave ∉ rs → seenRegs rs { r with vrsave := u } d0 d1 = seenRegs rs r d0 d1)) ∧
  ∀ (base : BaseISA) (w : InsnWord) (s : State) (v : Word) (u : BitVec 32),
    (.tar ∉ base.reads w → runBase base w (s.setRegs { s.regs with tar := v }) =
      mapNext (fun t => if .tar ∈ base.writes w then t else t.setRegs { t.regs with tar := v }) (runBase base w s)) ∧
    (.vrsave ∉ base.reads w → runBase base w (s.setRegs { s.regs with vrsave := u }) =
      mapNext (fun t => if .vrsave ∈ base.writes w then t else t.setRegs { t.regs with vrsave := u }) (runBase base w s))

/-- Tables 2.19, 2.20 and 2.22 against R80: the registers whose class asks that the value on entry be there on exit are exactly those R80 lists (40_linkage_general_registers.md R42, R43,
R50, R80, 42_fp_vector_registers_parameters.md R91, R93, R105). The registers whose purpose is parameters and return values are r3 to r10, f1 to f13 and v2 to v13, all Volatile (R51, R90,
R103). r31 alone has the frame pointer as its purpose, in a function that needs one (P20): R56 recommends it and makes it no duty (a function may use another register or none), and the
clause says what the model's table of purposes holds (log entry 20). r31 keeps its class whatever it is used for (R56). -/
def Obligations.ClassTablesGiveTheContract : Prop :=
  (∀ (sameModule : Bool) (a b : Regs),
    (∀ n : RegName, preservedAcross sameModule n = true → a.read n = b.read n) ↔
      a.x 1 = b.x 1 ∧ (∀ i : Fin 32, 14 ≤ i.val → a.x i = b.x i) ∧ (sameModule = true → a.x 2 = b.x 2) ∧ a.x 13 = b.x 13 ∧
      (∀ n : Fin 8, 2 ≤ n.val → n.val ≤ 4 → crf a.cr n = crf b.cr n) ∧
      (∀ i : Fin 32, 14 ≤ i.val → a.f i = b.f i) ∧ (∀ i : Fin 32, 20 ≤ i.val → a.v i = b.v i)) ∧
  (∀ (needs : Bool) (n : RegName),
    (purposeOf needs n = .parametersAndReturns ∨ purposeOf needs n = .binaryFloatParametersAndReturns ↔
      (∃ i : Fin 32, n = .gpr i ∧ 3 ≤ i.val ∧ i.val ≤ 10) ∨ (∃ i : Fin 32, n = .fpr i ∧ 1 ≤ i.val ∧ i.val ≤ 13) ∨
      ∃ i : Fin 32, n = .vr i ∧ 2 ≤ i.val ∧ i.val ≤ 13) ∧
    (purposeOf needs n = .parametersAndReturns ∨ purposeOf needs n = .binaryFloatParametersAndReturns → classOf n = .volatile) ∧
    (purposeOf needs n = .framePointer ↔ needs = true ∧ n = .gpr 31)) ∧
  classOf (.gpr 31) = .nonvolatile

/-! ## Memory -/

/-- 20_memory.md R26, R27, R30: in either byte order a doubleword written to a slot that is not below r1 reads back, by the same thread, as what was written. -/
def Obligations.SlotReadsBackWhatWasWritten : Prop :=
  ∀ (s t : State) (a v : Word), s.writeSlot a v = .ok t → (∀ i < 8, s.shifting (byteAddr a i) = false) →
    t.readSlot a = .ok (v, t.drawn 8)

/-- 20_memory.md R26, R31: a write changes the bytes it stores to and no other byte of memory, no register and no byte of program text. That it leaves BaseISA's further state (10_state.md R23),
the thread's own and the shared, is the model's choice (log entry 42): a BaseISA might lose a reservation by it. -/
def Obligations.StoreLeavesEverythingElse : Prop :=
  ∀ (s t : State) (a : Word) (n v : Nat), s.memWrite a n v = .ok t →
    (∀ b, (∀ i < n, byteAddr a i ≠ b) → t.byteAt b = s.byteAt b) ∧
    (∀ b, holdsCode s.params b = true → t.byteAt b = s.byteAt b) ∧
    t.th = s.th ∧ t.parked = s.parked ∧ t.baseState = s.baseState ∧ t.params = s.params ∧ t.draws = s.draws

/-- 60_exceptions.md R113 (decision D8): what a MemRead finds below r1 is draws, whatever memory holds and whatever MEMMAP calls the bytes, program text too (a fetch is no MemRead: log entry 15).
Bytes that r1 comes below, by whatever step, changed at any moment until then and are draws after it, program text apart, which is fixed (20_memory.md R31; that the step which lowers r1 is the
last such moment is log entry 16): so it is with `mfocr` onto r1, with a frame allocated (but for the back chain stored in it) and with any other write of r1, raising it by a wrap included. -/
def Obligations.BytesBelowStackPointerAreDraws : Prop :=
  (∀ (s t : State) (a : Word) (v : Word), s.readSlot a = .ok (v, t) → (∀ i < 8, byteAddr a i < (s.x 1).toNat) →
    v = BitVec.ofNat 64 (joinBytes s.params.byteOrder ((List.range 8).map fun i => Config.drawByte (s.draws + i))) ∧ t = s.drawn 8) ∧
  (∀ (s t : State) (a : Word) (n : Nat) (v : BitVec (8 * n)), s.memRead a n = .ok (v, t) →
    t = s.drawn n ∧ ∃ bs : List Byte, bs.length = n ∧ v = BitVec.ofNat (8 * n) (joinBytes s.params.byteOrder bs) ∧
      ∀ i < n, bs[i]? = some (if byteAddr a i < (s.x 1).toNat then Config.drawByte (s.draws + i) else s.byteAt (byteAddr a i))) ∧
  (∀ (fxm : BitVec 8) (s : State), ∃ t, exec (.mfocr 1 fxm) s = .next t ∧ t.draws = s.draws + 2 + ((s.x 1).toNat - (t.x 1).toNat) ∧
    ∀ b, (t.x 1).toNat ≤ b → b < (s.x 1).toNat → holdsCode s.params b = false → t.byteAt b = Config.drawByte (s.draws + 2 + (b - (t.x 1).toNat))) ∧
  (∀ (s t : State) (size : Word), size.toNat ≤ (s.x 1).toNat → allocFrame size s = .ok t → t.draws = s.draws + size.toNat ∧
    ∀ i < size.toNat, (s.params.backchainsMaintained = true → 8 ≤ i) → holdsCode s.params (byteAddr (s.x 1 - size) i) = false →
      t.byteAt (byteAddr (s.x 1 - size) i) = Config.drawByte (s.draws + i)) ∧
  ∀ (s : State) (v : Word) (b : Nat), v.toNat ≤ b → b < (s.x 1).toNat → holdsCode s.params b = false →
    (s.writeGpr 1 v).byteAt b = Config.drawByte (s.draws + (b - v.toNat))

/-- 20_memory.md R28 (decision D4), R31 (decision D5): a slot access that is misaligned and a write to program text are refused, and so is an instruction of any BaseISA that makes a misaligned
access of 8 bytes at x[1] or x[1] + TOC_SAVE_OFFSET (that a store's x[1] is the one after the step's move of r1 is the model's choice: log entry 18). That an access to an address MEMMAP does not
allocate is refused is the model's choice (log entry 38): R32 and decision D6 give MEMMAP and not that. -/
def Obligations.ForbiddenAccessesStop : Prop :=
  (∀ (base : BaseISA) (w : InsnWord) (s : State) (seen : Regs), seen = seenRegs (base.reads w) s.regs (Config.drawWord s.draws) (Config.drawWord (s.draws + 1)) →
    ((∃ l ∈ base.loads w seen s.baseState, l.2 = 8 ∧ (l.1 = s.x 1 ∨ l.1 = tocSlot s.params s.regs) ∧ l.1.toNat % 8 ≠ 0) →
      ∃ e, runBase base w s = .refused e ∧ ((base.loads w seen s.baseState).length = 1 → e = .slotMisaligned)) ∧
    ((∀ vs d, ∃ r f st, base.run w seen s.baseState vs d = .effect r f st ∧
        ∃ b ∈ st, b.bytes = 8 ∧ (b.addr = r.x 1 ∨ b.addr = tocSlot s.params r) ∧ b.addr.toNat % 8 ≠ 0) →
      ∃ e, runBase base w s = .refused e)) ∧
  ∀ (s : State) (a v : Word),
    (a.toNat % 8 ≠ 0 → s.writeSlot a v = .error .slotMisaligned ∧ s.readSlot a = .error .slotMisaligned) ∧
    (∀ n u, (∃ i < n, allocated s.params (byteAddr a i) = false) → s.memWrite a n u = .error .unallocated ∧ s.memRead a n = .error .unallocated) ∧
    (∀ n u, (∀ i < n, allocated s.params (byteAddr a i) = true) → (∃ i < n, holdsCode s.params (byteAddr a i) = true) →
      s.memWrite a n u = .error .writeToCode)

/-! ## Calls -/

/-- 40_linkage_general_registers.md R45: what a Call does: LR, pc and `entry(f)`, the state then: registers, memory and BaseISA's further state; r0, r11 and r12 apart (R72) every register and all of memory are as before, and BaseISA's
further state too (log entry 42). The operands, the caller among them, being those the program gives for the address is log entry 3. -/
def Obligations.CallTransfersControl : Prop :=
  ∀ (c : CallSite) (s : State), ∃ t, perform (.call c) s = .next t ∧
    t.regs.lr = c.ret ∧ t.pc = c.target ∧
    (∃ a rest, t.th.activations = a :: rest ∧ rest = s.th.activations ∧ a.entry = t.regs ∧ a.entryMem = t.mem ∧ a.entryMemGen = t.memGen ∧ a.entryBase = t.baseState ∧
      a.pre = s.regs ∧ a.caller = c.caller ∧ a.callee = c.callee ∧ a.kind = c.kind ∧ a.ret = c.ret ∧ a.env = c.env) ∧
    (∀ i : Fin 32, i ≠ 0 → i ≠ 11 → i ≠ 12 → t.x i = s.x i) ∧
    t.regs.cr = s.regs.cr ∧ t.regs.vsr = s.regs.vsr ∧ t.regs.ctr = s.regs.ctr ∧ t.regs.xer = s.regs.xer ∧ t.regs.tar = s.regs.tar ∧
    t.regs.dscr = s.regs.dscr ∧ t.regs.vrsave = s.regs.vrsave ∧ t.regs.fpscr = s.regs.fpscr ∧ t.regs.vscr = s.regs.vscr ∧
    (∀ b, t.byteAt b = s.byteAt b) ∧ t.th.frames = s.th.frames ∧ t.th.exits = s.th.exits ∧ t.parked = s.parked ∧ t.baseState = s.baseState

/-- 40_linkage_general_registers.md R45, 60_exceptions.md R111 (decision D7): a Call records one mark for each of its `require` lines that fails, the function whose Call it was beside it, and no mark
for a line that holds. That a TOC slot which cannot be read counts as not saved is log entry 17. Two more marks are no line of R45: r2 not reloaded since the running function's last call that may
have left its module (R64, R65, 93 U18), whose latest moment, the next Call or the Return, is the model's choice (log entry 43), and, under NONVOLATILE_LIKE, a limited-access field of the running
function that is not as on entry and whose change is not its purpose (R44, decision D13, log entry 29). The function entered owes no reload. -/
def Obligations.CallMarksFailedRequirements : Prop :=
  ∀ (c : CallSite) (s t : State), perform (.call c) s = .next t → t.th.reloadOwed = false ∧ ∃ ms, t.th.breaches = ms ++ s.th.breaches ∧
    (.failedCall .spMisaligned s.th.activations.length ∈ ms ↔ (s.x 1).toNat % 16 ≠ 0) ∧
    (.failedCall .tocIllegal s.th.activations.length ∈ ms ↔ tocLegal s.params c.caller (s.x 2) = false) ∧
    (.failedCall .tocNotSaved s.th.activations.length ∈ ms ↔
      c.kind = .globalEntry ∧ s.params.mayLeaveModule c.caller c.callee = true ∧ tocSaved s = false) ∧
    (.failedCall .entryAddress s.th.activations.length ∈ ms ↔ c.kind = .globalEntry ∧ s.x 12 ≠ c.target) ∧
    (.abiViolation .tocNotReloaded ∈ ms ↔ s.th.reloadOwed = true) ∧
    (.abiViolation .callLimitedAccess ∈ ms ↔ ∃ a, s.th.activations.head? = some a ∧ limitedKept s.params a.callee a.entry s.regs = false) ∧
    (ms = [] ↔
      (s.x 1).toNat % 16 = 0 ∧ tocLegal s.params c.caller (s.x 2) = true ∧
      (c.kind = .globalEntry → s.params.mayLeaveModule c.caller c.callee = true → tocSaved s = true) ∧
      (c.kind = .globalEntry → s.x 12 = c.target) ∧ s.th.reloadOwed = false ∧
      ∀ a, s.th.activations.head? = some a → limitedKept s.params a.callee a.entry s.regs = true)

/-- 40_linkage_general_registers.md R72, R73, R74: on entry r0 is arbitrary; r11 is the environment pointer exactly when it is initialised; r12 is the entry-point address on GLOBAL entry
and arbitrary on the other kind. That the registers left open are draws of the Call, and that r12 keeps the caller's value on GLOBAL entry, so that it is pc where the Call left no mark,
is log entry 17; that pc is the address of the function's global entry point is as the program lists the target (log entry 45). -/
def Obligations.LinkageRegistersOnEntry : Prop :=
  ∀ (c : CallSite) (s t : State), perform (.call c) s = .next t →
    t.x 0 = Config.drawWord (s.draws + 8) ∧
    (∀ e, c.env = some e → t.x 11 = e) ∧ (c.env = none → t.x 11 = Config.drawWord (s.draws + 9)) ∧
    (c.kind = .globalEntry → t.th.breaches = s.th.breaches → t.x 12 = t.pc) ∧
    (c.kind = .nonglobalEntry → t.x 12 = Config.drawWord (s.draws + 10))

/-- 70_reset_and_hazards.md R118: a function entered by a Call that met its requirements, in a run with nothing marked, has the launch premises, and the whole back chain holds
(40_linkage_general_registers.md R78). The premise BackChain speaks of what the bytes at x[1] hold, allocated or not: log entry 44, the model's choice. -/
def Obligations.EnteredFunctionHasLaunchPremises : Prop :=
  ∀ (c : CallSite) (s t : State), Inv s → Unmarked s → perform (.call c) s = .next t → Unmarked t →
    BackChainsHold t ∧ ∃ a, LaunchPremises t a

/-- 70_reset_and_hazards.md R119, R118: what boot software sets up gives the first function the launch premises. A thread can be given its stack exactly where the region is one of MEMMAP's
stacks and r1 a multiple of 16 whose first quadword lies in it and in no region of another kind. R119 lists what boot software sets up and gives no code: `bootThread`, `enterFirst`, that
`entry(f)` is the state after them, and the quadword asked of the first frame are the model's choice (log entry 34), and so is that the premise BackChain speaks of what bytes hold (log entry 44). -/
def Obligations.BootGivesLaunchPremises : Prop :=
  (∀ (s : State) (stack : Region) (sp tp : Word), (∃ t, bootThread stack sp tp s = some t) ↔
    stack ∈ s.params.memmap ∧ stack.kind = .stack ∧ sp.toNat % 16 = 0 ∧ stack.base ≤ sp.toNat ∧ sp.toNat + 16 ≤ stack.base + stack.size ∧
    ∀ q ∈ s.params.memmap, q.kind ≠ .stack → ∀ b, sp.toNat ≤ b → b < sp.toNat + 16 → ¬ (q.base ≤ b ∧ b < q.base + q.size)) ∧
  ∀ (s t : State) (stack : Region) (sp tp toc : Word) (c : CallSite), Unmarked s → bootThread stack sp tp s = some t → tocLegal s.params c.caller toc = true →
    (enterFirst c toc t).x 1 = sp ∧ (enterFirst c toc t).th.frames = [sp] ∧ (enterFirst c toc t).x 2 = toc ∧ (enterFirst c toc t).x 13 = tp ∧
    (∀ b, (enterFirst c toc t).byteAt b = s.byteAt b) ∧ ∃ a, LaunchPremises (enterFirst c toc t) a

/-- 40_linkage_general_registers.md R64, R65, R78, R81, 93 U18: the save of r2 as a step completes exactly where its slot is aligned, allocated and no program text (decisions D4, D5, log entry 38); it stores
r2 in those eight bytes, pc + 4 and nothing else (pc + 4 is log entry 3), unmarked exactly if the back chain holds after it (log entry 40). The reload completes exactly where the slot is
aligned and allocated and changes r2 and pc alone (BaseISA's further state stays in both: log entry 42); after it the function owes no reload. So with an instruction of any BaseISA that reads
the doubleword, whatever else it reads, and leaves the value that read found in r2; one that does not read it changes nothing of what is owed, nor does a save (that what is owed is kept so, and
what counts as the reload, is the model's choice: log entry 43). r2 saved before a call and reloaded after it comes back, provided the callee left the TOC pointer doubleword and r1 alone (the premise
R81 says this spec cannot supply). -/
def Obligations.SavedTocPointerReloads : Prop :=
  (∀ s : State,
    ((∃ t, perform .saveToc s = .next t) ↔ (tocSlot s.params s.regs).toNat % 8 = 0 ∧
      ∀ i < 8, allocated s.params (byteAddr (tocSlot s.params s.regs) i) = true ∧ holdsCode s.params (byteAddr (tocSlot s.params s.regs) i) = false) ∧
    ∀ t, perform .saveToc s = .next t →
      t.regs = { s.regs with pc := s.pc + 4 } ∧ t.contentWord (tocSlot s.params s.regs) = s.x 2 ∧
      (∀ b, (∀ i < 8, byteAddr (tocSlot s.params s.regs) i ≠ b) → t.byteAt b = s.byteAt b) ∧ t.baseState = s.baseState ∧
      t.th.frames = s.th.frames ∧ t.th.activations = s.th.activations ∧ t.th.reloadOwed = s.th.reloadOwed ∧ (t.th.breaches = s.th.breaches ↔ BackChainsHold t)) ∧
  (∀ s : State,
    ((∃ t, perform .reloadToc s = .next t) ↔ (tocSlot s.params s.regs).toNat % 8 = 0 ∧
      ∀ i < 8, allocated s.params (byteAddr (tocSlot s.params s.regs) i) = true) ∧
    ∀ t, perform .reloadToc s = .next t →
      t.regs = { s.regs.setX 2 (t.x 2) with pc := s.pc + 4 } ∧ (∀ b, t.byteAt b = s.byteAt b) ∧ t.baseState = s.baseState ∧
      ((∀ i < 8, s.shifting (byteAddr (tocSlot s.params s.regs) i) = false) → t.x 2 = s.contentWord (tocSlot s.params s.regs)) ∧
      t.th.frames = s.th.frames ∧ t.th.activations = s.th.activations ∧ t.th.breaches = s.th.breaches ∧ t.th.reloadOwed = false) ∧
  (∀ (base : BaseISA) (w : InsnWord) (s t : State) (seen : Regs), seen = seenRegs (base.reads w) s.regs (Config.drawWord s.draws) (Config.drawWord (s.draws + 1)) →
    runBase base w s = .next t →
      (∀ before after, base.loads w seen s.baseState = before ++ (tocSlot s.params s.regs, 8) :: after →
        t.x 2 = (s.drawn (98 + (before.map Prod.snd).sum)).readValue (tocSlot s.params s.regs) 8 → t.th.reloadOwed = false) ∧
      ((tocSlot s.params s.regs, 8) ∉ base.loads w seen s.baseState → t.th.reloadOwed = s.th.reloadOwed)) ∧
  ∀ s t u : State, saveToc s = .ok t → u.params = s.params → u.x 1 = s.x 1 →
    (∀ i < 8, u.byteAt (byteAddr (tocSlot s.params s.regs) i) = t.byteAt (byteAddr (tocSlot s.params s.regs) i)) →
    (∀ i < 8, s.shifting (byteAddr (tocSlot s.params s.regs) i) = false) →
    ∃ v, reloadToc u = .ok v ∧ v.x 2 = s.x 2 ∧ (∀ i : Fin 32, i ≠ 2 → v.x i = u.x i) ∧ ∀ b, v.byteAt b = u.byteAt b

/-! ## Returns and the contract -/

/-- 40_linkage_general_registers.md R57, R46: on entry LR holds the return address; a callee may overwrite LR, and Return goes to the address LR held on entry all the same, with the
same marks; after a call the caller may assume nothing of LR (in the model, after a call whose callee is not in the program, a draw: log entry 12, the model's choice). -/
def Obligations.ReturnGoesWhereLinkRegisterPointedOnEntry : Prop :=
  (∀ (c : CallSite) (s : State), (performCall c s).regs.lr = c.ret) ∧
  (∀ (f : Nat) (s : State) (a : Activation) (rest : List Activation) (v : Word), s.th.activations = a :: rest → a.callee = f →
    ∃ t u, performReturn f s = .ok t ∧ t.pc = a.entry.lr ∧
      performReturn f (s.writeLr v) = .ok u ∧ u.pc = a.entry.lr ∧ u.th.breaches = t.th.breaches) ∧
  (∀ (p : Params) (c : CallSite) (r : Regs) (k : Nat), (regsAfterCall p c r k).lr = Config.drawWord (k + 32))

/-- 40_linkage_general_registers.md R46, R80, R44, 60_exceptions.md R111 (decision D7): Return records a mark exactly when a line of CalleeObligations fails, or r2 has not been reloaded since the
function's last call that may have left its module (R64, 93 U18; log entry 43); it leaves memory and every register but pc, and the exit state is recorded. The lines of R80 about the whole
execution hold exactly if no mark since entry tells of a breach of them: r1 aligned on entry and at every write and never above its entry value, r13 never written, TAR and VRSAVE not accessed,
each of the function's own Calls in order; no other mark counts. That a moment of a function it called is one of its own, and that a Call by such a function is not, is log entry 30. The limited-access
fields under NONVOLATILE_LIKE are the model's clause (R80 is silent on them; R44, log entry 29). So is that BaseISA's further state (10_state.md R23) stays (log entry 42), and that the caller
then owes the reload (R64, log entry 43). -/
def Obligations.ReturnMarksExactlyBrokenObligations : Prop :=
  ∀ (s : State) (a : Activation) (rest : List Activation), s.th.activations = a :: rest →
    ∃ t, performReturn a.callee s = .ok t ∧
      (t.th.breaches = s.th.breaches ↔ CalleeObligations s.params a s.th ∧ s.th.reloadOwed = false) ∧
      (t.th.reloadOwed = true ↔ a.kind = .globalEntry ∧ s.params.mayLeaveModule a.caller a.callee = true) ∧
      (∀ (older newer : List Breach), s.th.breaches = newer ++ older → a.marksAtEntry = older.length →
        (CalleeObligations s.params a s.th ↔
          (s.x 1 = a.entry.x 1 ∧ (∀ i : Fin 32, 14 ≤ i.val → s.x i = a.entry.x i) ∧ (s.params.sameModule a.caller a.callee = true → s.x 2 = a.entry.x 2) ∧ s.x 13 = a.entry.x 13 ∧
            (∀ n : Fin 8, 2 ≤ n.val → n.val ≤ 4 → crf s.regs.cr n = crf a.entry.cr n) ∧ (∀ i : Fin 32, 14 ≤ i.val → s.regs.f i = a.entry.f i) ∧
            (∀ i : Fin 32, 20 ≤ i.val → s.regs.v i = a.entry.v i) ∧ limitedKept s.params a.callee a.entry s.regs = true) ∧
          ((a.entry.x 1).toNat % 16 = 0 ∧ .abiViolation .spMisaligned ∉ newer ∧ ∀ v, .abiViolation (.spRaised v) ∈ newer → v.toNat ≤ (a.entry.x 1).toNat) ∧
          (∀ r, .reservedRegister r ∉ newer) ∧ ∀ why, .failedCall why s.th.activations.length ∉ newer)) ∧
      t.regs = { s.regs with pc := a.entry.lr } ∧ t.th.activations = rest ∧ t.th.exits = ⟨a, t.regs, t.mem, t.memGen, t.baseState⟩ :: s.th.exits ∧
      (∀ b, t.byteAt b = s.byteAt b) ∧ t.th.frames = s.th.frames ∧ t.baseState = s.baseState

/-- 40_linkage_general_registers.md R66, R46, R80, 60_exceptions.md R111 (decision D7): called from its own module, a callee must preserve r2: its Return leaves the mark of R66
exactly when r2 differs from its value on entry; called from another, never. That a breach is a mark and no stop is log entry 10. -/
def Obligations.TocPointerPreservedInsideModule : Prop :=
  ∀ (s t : State) (a : Activation) (rest : List Activation), s.th.activations = a :: rest → performReturn a.callee s = .ok t →
    (s.params.sameModule a.caller a.callee = true →
      (.abiViolation .returnToc ∈ (t.th.breaches.take (t.th.breaches.length - s.th.breaches.length)) ↔ t.x 2 ≠ a.entry.x 2)) ∧
    (s.params.sameModule a.caller a.callee = false →
      .abiViolation .returnToc ∉ (t.th.breaches.take (t.th.breaches.length - s.th.breaches.length)))

/-- 41_condition_register_mfocr.md R82, 40_linkage_general_registers.md R80, 60_exceptions.md R111: CR2, CR3 and CR4 must be restored, CR[23:12], and not restoring them is what leaves the
mark (log entry 10); the other twenty bits may be anything at exit; after a call whose callee is not in the program they are draws (log entry 12, the model's choice). -/
def Obligations.ConditionFieldsTwoToFourRestored : Prop :=
  (∀ (p : Params) (a : Activation) (t : Thread),
    (AbiRule.returnCr ∈ calleeBreaches p a t ↔ ¬ ∀ n : Fin 8, 2 ≤ n.val → n.val ≤ 4 → crf t.regs.cr n = crf a.entry.cr n) ∧
    (AbiRule.returnCr ∈ calleeBreaches p a t ↔ t.regs.cr.extractLsb' 12 12 ≠ a.entry.cr.extractLsb' 12 12)) ∧
  (∀ (p : Params) (a : Activation) (t : Thread) (cr : CrWord), cr.extractLsb' 12 12 = t.regs.cr.extractLsb' 12 12 →
    calleeBreaches p a { t with regs := { t.regs with cr := cr } } = calleeBreaches p a t) ∧
  (∀ (p : Params) (c : CallSite) (r : Regs) (k : Nat) (n : Fin 8),
    crf (regsAfterCall p c r k).cr n =
      if 2 ≤ n.val ∧ n.val ≤ 4 then crf r.cr n else crf ((Config.drawWord (k + 38)).setWidth 32) n)

/-- 40_linkage_general_registers.md R41, R48, R51 to R53, R57, R58, R60, 42_fp_vector_registers_parameters.md R89, R90, R93: whatever a callee leaves in the registers
the tables do not ask it to preserve, the verdict on its Return is the same (LIMITED_ACCESS_POLICY = UNSAID). -/
def Obligations.VolatileRegistersAreFree : Prop :=
  ∀ (p : Params) (a : Activation) (t : Thread) (r : Regs), p.limitedAccessPolicy = .unsaid →
    (∀ n : RegName, preservedAcross (p.sameModule a.caller a.callee) n = true → r.read n = t.regs.read n) →
    calleeBreaches p a { t with regs := r } = calleeBreaches p a t

/-- 40_linkage_general_registers.md R44 (decision D13, G15; log entry 29): under NONVOLATILE_LIKE a function that leaves DSCR, a named FPSCR field or NJ changed is marked when it returns,
unless changing that very one is its documented purpose; under UNSAID it is not. -/
def Obligations.LimitedAccessFollowsThePolicy : Prop :=
  ∀ (p : Params) (a : Activation) (t : Thread),
    (p.limitedAccessPolicy = .unsaid → AbiRule.returnLimitedAccess ∉ calleeBreaches p a t) ∧
    ((∀ x : LimitedField, limitedOnPurpose p a.callee x = true) → AbiRule.returnLimitedAccess ∉ calleeBreaches p a t) ∧
    (p.limitedAccessPolicy = .nonvolatileLike →
      (AbiRule.returnLimitedAccess ∈ calleeBreaches p a t ↔
        ¬ ((limitedOnPurpose p a.callee .dscr = false → t.regs.dscr = a.entry.dscr) ∧
          (∀ f : FpscrField, limitedOnPurpose p a.callee (.fpscr f) = false → fpscrField t.regs f = fpscrField a.entry f) ∧
          (limitedOnPurpose p a.callee .vscrNJ = false → vscrNJ t.regs = vscrNJ a.entry))))

/-- 40_linkage_general_registers.md R81: after a Return that left no mark the caller has everything R81 lets it assume, against the state just before the Call. -/
def Obligations.CallerMayAssumeAfterUnmarkedReturn : Prop :=
  ∀ (s t : State) (a : Activation) (rest : List Activation), Inv s → s.th.activations = a :: rest →
    performReturn a.callee s = .ok t → t.th.breaches = s.th.breaches →
    CallerMayAssume s.params a.site a.pre t.regs

/-- 40_linkage_general_registers.md R41, R44, R78, R81 (decision D13; log entry 12, the model's choice): a call whose callee's text is not in the program comes back at `ret` with what R81
lists unchanged; every other register, field and half-register is a free value, r2 across modules, TAR and VRSAVE among them, and so are FPSCR, VSCR and DSCR but for what NONVOLATILE_LIKE keeps; memory is
arbitrary but for program text (R31) and the back chain (R78), and BaseISA's further state is arbitrary (R23, log entry 42). It records a mark exactly when a `require` line of R45 fails
(R80, 60_exceptions.md R111), as a Call does, the limited-access clause being log entry 29's, a slot that cannot be read log entry 17's and the reload of r2, owed before and after (R64, 93 U18), log entry 43's. -/
def Obligations.OpaqueCallKeepsWhatTheCallerMayAssume : Prop :=
  ∀ (c : CallSite) (s : State), ∃ t, perform (.callOpaque c) s = .next t ∧
    CallerMayAssume s.params c s.regs t.regs ∧
    (∀ i : Fin 32, classOf (.gpr i) = .volatile → t.x i = Config.drawWord (s.draws + 8 + i.val)) ∧
    (s.params.sameModule c.caller c.callee = false → t.x 2 = Config.drawWord (s.draws + 10)) ∧
    t.regs.lr = Config.drawWord (s.draws + 40) ∧ t.regs.ctr = Config.drawWord (s.draws + 41) ∧ t.regs.xer = Config.drawWord (s.draws + 43) ∧
    t.regs.tar = Config.drawWord (s.draws + 42) ∧ t.regs.vrsave = (Config.drawWord (s.draws + 45)).setWidth 32 ∧
    (∀ n : Fin 8, n.val < 2 ∨ 4 < n.val → crf t.regs.cr n = crf ((Config.drawWord (s.draws + 46)).setWidth 32) n) ∧
    (∀ i : Fin 32, i.val < 14 → t.regs.f i = Config.drawWord (s.draws + 56 + 2 * i.val)) ∧
    (∀ i : Fin 32, t.regs.vsrRight i = Config.drawWord (s.draws + 57 + 2 * i.val)) ∧
    (∀ i : Fin 32, i.val < 20 → t.regs.v i = Config.drawWord (s.draws + 120 + 2 * i.val) ++ Config.drawWord (s.draws + 121 + 2 * i.val)) ∧
    (s.params.limitedAccessPolicy = .unsaid →
      t.regs.dscr = Config.drawWord (s.draws + 44) ∧ t.regs.fpscr = Config.drawWord (s.draws + 47) &&& fpscrMask s.params ∧
      t.regs.vscr = (Config.drawWord (s.draws + 48)).setWidth 32) ∧
    (s.params.limitedAccessPolicy = .nonvolatileLike →
      t.regs.dscr = (if limitedOnPurpose s.params c.callee .dscr then Config.drawWord (s.draws + 44) else s.regs.dscr) ∧
      (∀ k : Fin 64, (∃ f, limitedOnPurpose s.params c.callee (.fpscr f) = false ∧ fpscrLow f ≤ k.val ∧ k.val < fpscrLow f + fpscrFieldWidth f) →
        t.regs.fpscr.getLsbD k.val = (s.regs.fpscr &&& fpscrMask s.params).getLsbD k.val) ∧
      (∀ k : Fin 64, (∀ f, fpscrLow f ≤ k.val → k.val < fpscrLow f + fpscrFieldWidth f → limitedOnPurpose s.params c.callee (.fpscr f) = true) →
        t.regs.fpscr.getLsbD k.val = (Config.drawWord (s.draws + 47) &&& fpscrMask s.params).getLsbD k.val) ∧
      (∀ k : Fin 32, t.regs.vscr.getLsbD k.val =
        if k.val = 16 ∧ limitedOnPurpose s.params c.callee .vscrNJ = false then s.regs.vscr.getLsbD 16 else (Config.drawWord (s.draws + 48)).getLsbD k.val)) ∧
    (∀ b, holdsCode s.params b = true ∨ b ∈ chainBytes s → t.byteAt b = s.byteAt b) ∧
    (∀ b, holdsCode s.params b = false → b ∉ chainBytes s → t.byteAt b = Config.arbitraryByte (s.memGen + 1) b) ∧
    t.baseState = ⟨Config.drawNats (s.draws + 184), Config.drawNats (s.draws + 185)⟩ ∧
    (t.th.breaches = s.th.breaches ↔
      (s.x 1).toNat % 16 = 0 ∧ tocLegal s.params c.caller (s.x 2) = true ∧
      (c.kind = .globalEntry → s.params.mayLeaveModule c.caller c.callee = true → tocSaved s = true) ∧
      (c.kind = .globalEntry → s.x 12 = c.target) ∧ s.th.reloadOwed = false ∧
      (∀ a, s.th.activations.head? = some a → limitedKept s.params a.callee a.entry s.regs = true)) ∧
    (t.th.reloadOwed = true ↔ c.kind = .globalEntry ∧ s.params.mayLeaveModule c.caller c.callee = true) ∧
    (BackChainsHold s → BackChainsHold t) ∧ t.th.frames = s.th.frames ∧ t.th.activations = s.th.activations ∧ t.th.exits = s.th.exits

/-- 70_reset_and_hazards.md R122 (decision D27): when the function a run was launched in returns with its obligations met, no reload of r2 owed (R64, 93 U18, log entry 43) and nothing marked, the run has ended, and the state then is its
`exit(f)`; whatever `mfocr` runs after that, the state is no longer it. Program P5 of 95_test_vectors.md: launched under the premises of R118 alone, `mfocr r3,0x80` and a Return come to the
end of the run, with x[3] as R87 says and every other register, memory, and BaseISA's further state (log entry 42) as before. That Return stands in the text as an action, a step of its own, is log entry 3. -/
def Obligations.LaunchedFunctionReturningEndsTheRun : Prop :=
  (∀ (start s : State) (a : Activation) (rest : List Activation), start.th.activations = a :: rest → s.th.activations = a :: rest →
    Unmarked s → CalleeObligations s.params a s.th → s.th.reloadOwed = false →
    ∃ t, perform (.ret a.callee) s = .next t ∧ RunEnded start t ∧ t.pc = a.entry.lr) ∧
  (∀ (start t u : State) (i : Instr), RunEnded start t → exec i t = .next u → ¬ RunEnded start u) ∧
  ∀ (s : State) (a : Activation), LaunchPremises s a → actionAt s = none → fetch s = .ok 0x7C780026#32 →
    s.params.actions.lookup (s.pc + 4).toNat = some (.ret a.callee) →
    (∀ u ∈ s.params.tocUses, u.addr ≠ s.pc.toNat ∧ u.addr ≠ (s.pc + 4).toNat) →
    ∃ t u, step s = .next t ∧ step t = .next u ∧ RunEnded s u ∧ u.pc = s.regs.lr ∧
      FillAdmits (mfocrModeOf s.params) 0 s.regs.cr (u.x 3) ∧ u.regs = { s.regs.setX 3 (u.x 3) with pc := s.regs.lr } ∧ u.baseState = s.baseState ∧
      ∀ b, u.byteAt b = s.byteAt b

/-- 40_linkage_general_registers.md R46 (decision D27): a Return of a function that is not the running one is no normal return: no end state. -/
def Obligations.OtherReturnsStop : Prop :=
  ∀ (f : Nat) (s : State), (∀ a, s.th.activations.head? = some a → a.callee ≠ f) →
    perform (.ret f) s = .refused .notNormalReturn

/-! ## The stack -/

/-- 40_linkage_general_registers.md R75 to R79, 60_exceptions.md R113 (decision D26): lowering r1 by a multiple of 16 with nothing marked, the whole frame in the stack region (one region of
MEMMAP: log entry 41), completes unmarked; the new frame is the lowest one, its back chain points to the frame before it where back chains are maintained, and no byte
outside the frame changes, nor BaseISA's further state (log entry 42). -/
def Obligations.FrameAllocationLowersTheStack : Prop :=
  ∀ (s : State) (size : Word), Inv s → Unmarked s → size ≠ 0 → size.toNat % 16 = 0 → size.toNat ≤ (s.x 1).toNat →
    frameInStack s.params (s.x 1 - size) (s.x 1) = true →
    ∃ t, allocFrame size s = .ok t ∧ perform (.allocFrame size) s = .next t.advance ∧ t.regs = s.regs.setX 1 (s.x 1 - size) ∧
      Unmarked t ∧ t.th.frames = (s.x 1 - size) :: s.th.frames ∧ BackChainsHold t ∧
      (s.params.backchainsMaintained = true → t.contentWord (s.x 1 - size) = s.x 1) ∧ t.baseState = s.baseState ∧
      (∀ b, (∀ i < size.toNat, byteAddr (s.x 1 - size) i ≠ b) → t.byteAt b = s.byteAt b)

/-- 40_linkage_general_registers.md R79, R75: raising r1 again by the same amount gives the frame back: r1 and the frames are as before, unmarked. As a step it changes r1 and pc (pc + 4 is
log entry 3), no byte of memory, but for what a wrap past the top of the address space brings above r1 (60_exceptions.md R113, decision D26), and nothing of BaseISA's further state (log entry 42). -/
def Obligations.FrameGivenBackRestoresTheStack : Prop :=
  (∀ (s t : State) (size : Word), Inv s → Unmarked s → allocFrame size s = .ok t → Unmarked t →
    (freeFrame size t).x 1 = s.x 1 ∧ (freeFrame size t).th.frames = s.th.frames ∧ Unmarked (freeFrame size t)) ∧
  ∀ (s : State) (size : Word), ∃ t, perform (.freeFrame size) s = .next t ∧ t.regs = { s.regs.setX 1 (s.x 1 + size) with pc := s.pc + 4 } ∧
    (∀ b, b < (s.x 1 + size).toNat ∨ (s.x 1).toNat ≤ b → t.byteAt b = s.byteAt b) ∧ ((s.x 1).toNat ≤ (s.x 1 + size).toNat → t.mem = s.mem) ∧
    t.baseState = s.baseState ∧ t.th.activations = s.th.activations ∧ t.th.exits = s.th.exits ∧ t.th.reloadOwed = s.th.reloadOwed

/-- 40_linkage_general_registers.md R75, R76, R77, R79, 60_exceptions.md R111 (decisions D7, D26): r1 misaligned, wrapped below address 0, a frame not whole in the stack region (log entry 41),
r1 raised above its entry value, to a value that is no multiple of 16 or to one that is no allocated frame, is marked at the step that does it. So no step of a run, whatever BaseISA is, leaves r1
changed to a value that is misaligned or above the entry value of the function that is running, without the mark that names that moment (R80, "at every moment"). -/
def Obligations.BrokenStackMovesAreMarked : Prop :=
  (∀ (s t : State) (size : Word), size ≠ 0 → allocFrame size s = .ok t →
    ((s.x 1 - size).toNat % 16 ≠ 0 ∨ (s.x 1).toNat < size.toNat ∨ frameInStack s.params (s.x 1 - size) (s.x 1) = false) →
    t.th.breaches.length > s.th.breaches.length) ∧
  (∀ (s : State) (size : Word), ∃ ms, (freeFrame size s).th.breaches = ms ++ s.th.breaches ∧
    ((s.x 1 + size).toNat % 16 ≠ 0 ↔ .abiViolation .spMisaligned ∈ ms) ∧
    (s.x 1 + size ∉ s.th.frames ↔ .abiViolation .spNotFrame ∈ ms) ∧
    ((∃ a, s.th.activations.head? = some a ∧ (a.entry.x 1).toNat < (s.x 1 + size).toNat) ↔
      .abiViolation (.spRaised (s.x 1 + size)) ∈ ms)) ∧
  ∀ (base : BaseISA) (s t : State), stepWith base s = .next t → t.x 1 ≠ s.x 1 → ∃ ms, t.th.breaches = ms ++ s.th.breaches ∧
    ((t.x 1).toNat % 16 ≠ 0 → .abiViolation .spMisaligned ∈ ms) ∧
    ∀ a, s.th.activations.head? = some a → (a.entry.x 1).toNat < (t.x 1).toNat → .abiViolation (.spRaised (t.x 1)) ∈ ms

/-! ## The machine as a whole -/

/-- The invariant holds of the state after reset, whose values are the model's choice (log entries 4, 6 and 37). -/
def Obligations.ResetMeetsTheInvariant : Prop := Inv State.reset ∧ Unmarked State.reset

/-- Every step, with every BaseISA, keeps the invariant: memory canonical (20_memory.md R25), FPSCR within its width (10_state.md R19), pc a multiple of 4 (R21), and, as long as nothing is marked,
r1 aligned, the lowest frame, never above an entry value, frames strictly rising, r13 the thread pointer, and where back chains are maintained the whole chain in place
(40_linkage_general_registers.md R43, R75 to R79). What a BaseISA may be is log entry 18, the mark that keeps the chain log entry 40, both the model's choice; the step without one is
`stepWith noBaseISA`. -/
def Obligations.StepKeepsTheInvariant : Prop :=
  ∀ (base : BaseISA) (s t : State), Inv s → stepWith base s = .next t → Inv t

/-- 60_exceptions.md R111 (decision D7): a mark is never cleared, by any step, whatever BaseISA is. -/
def Obligations.MarksAreNeverCleared : Prop :=
  ∀ (base : BaseISA) (s t : State), stepWith base s = .next t → s.th.breaches <:+ t.th.breaches

/-- 10_state.md R22, 60_exceptions.md R115 (decision D24; log entries 1, 23), 20_memory.md R31 (decision D5): a step of one thread, whatever BaseISA is, changes no other thread's registers,
nor the parameters of the run, nor a byte of program text. -/
def Obligations.StepLeavesOtherThreadsAndParameters : Prop :=
  ∀ (base : BaseISA) (s t : State), stepWith base s = .next t →
    t.parked = s.parked ∧ t.params = s.params ∧ t.th.threadPtr = s.th.threadPtr ∧
    ∀ b, holdsCode s.params b = true → t.byteAt b = s.byteAt b ∧ Memory.get t.mem b = Memory.get s.mem b

/-- 10_state.md R22, R25 (decision D24): every thread has its own registers and memory is shared: letting another thread run leaves memory, and letting the first run again brings its own back.
That the other threads stand parked in a list and that `switchTo` exchanges two of them is the model's choice (log entry 23), so is that the thread switched to sees every earlier write at once, which R30 (20_memory.md) leaves to BaseISA, and so is that BaseISA has a state of each thread and one of all
(log entry 42). -/
def Obligations.ThreadsHaveTheirOwnRegisters : Prop :=
  ∀ (s : State) (k : Nat) (u : Thread), s.parked[k]? = some u →
    (s.switchTo k).th = u ∧ (∀ b, (s.switchTo k).byteAt b = s.byteAt b) ∧ (s.switchTo k).baseShared = s.baseShared ∧ (s.switchTo k).parked[k]? = some s.th ∧
    (∀ j, j ≠ k → (s.switchTo k).parked[j]? = s.parked[j]?) ∧ (s.switchTo k).switchTo k = s

/-- 41_condition_register_mfocr.md R83, 40_linkage_general_registers.md R45, R46, R64, over all steps without a BaseISA: none but a call whose callee is not in the program changes the
condition register, CTR, XER, TAR, DSCR, VRSAVE, FPSCR, VSCR or a vector-scalar register, and LR is written by calls alone. That `step` has no BaseISA is log entry 8, and the call to a
callee outside the program log entry 12, both the model's choice. -/
def Obligations.OnlyCallsTouchSpecialRegisters : Prop :=
  ∀ s t : State, step s = .next t → (∀ c, actionAt s ≠ some (.callOpaque c)) →
    t.regs.cr = s.regs.cr ∧ t.regs.ctr = s.regs.ctr ∧ t.regs.xer = s.regs.xer ∧ t.regs.tar = s.regs.tar ∧ t.regs.dscr = s.regs.dscr ∧
    t.regs.vrsave = s.regs.vrsave ∧ t.regs.fpscr = s.regs.fpscr ∧ t.regs.vscr = s.regs.vscr ∧ t.regs.vsr = s.regs.vsr ∧
    ((∀ c, actionAt s ≠ some (.call c)) → t.regs.lr = s.regs.lr)

/-- 40_linkage_general_registers.md R68, R70, R71, 60_exceptions.md R111 (decision D7): executing an `@l` use of a TOC-derived value, an instruction of any BaseISA, without the function's TOC
pointer in r2, or with reaching definitions that differ, is marked. That the uses are those the program lists is the model's choice (log entry 35). -/
def Obligations.BrokenTocUsesAreMarked : Prop :=
  ∀ (base : BaseISA) (s t : State) (u : TocUse), u ∈ s.params.tocUses → u.addr = s.pc.toNat →
    (tocLegal s.params u.fn (s.x 2) = false ∨ u.defsAgree = false) → stepWith base s = .next t →
    t.th.breaches.length > s.th.breaches.length

/-! ## Parameters in floating-point and vector registers -/

/-- 42_fp_vector_registers_parameters.md R89, R98, R99 (90 C8): in any sequence of DFP parameters, from any next register, a quad-precision one occupies an even/odd pair of successive registers,
and none is in f0 (R89). Which pair: the one that starts at the next register if that is even, else at the one after it, the odd one being skipped; any other one takes the next register. The doublewords each parameter takes, one for
a single-precision one, no place past f31, and none from a cursor at f0 are the model's choice (log entry 27). -/
def Obligations.QuadDfpOccupiesAnEvenOddPair : Prop :=
  (∀ (ts : List DfpType) (c c' : DfpCursor) (us : List (List Nat)), placeDfps ts c = some (us, c') →
    us.length = ts.length ∧ c'.doublewords = c.doublewords + (ts.map dfpDoublewords).sum ∧
    ∀ (k : Nat) (u : List Nat), us[k]? = some u →
      (ts[k]? = some .quad → ∃ e, e % 2 = 0 ∧ 2 ≤ e ∧ e + 1 < 32 ∧ u = [e, e + 1]) ∧
      (ts[k]? ≠ some .quad → ∃ r, 1 ≤ r ∧ r < 32 ∧ u = [r])) ∧
  (∀ c : DfpCursor, c.next % 2 = 0 → c.next ≠ 0 → c.next < 32 →
    placeDfp .quad c = some ([c.next, c.next + 1], { next := c.next + 2, skipped := c.skipped, doublewords := c.doublewords + 2 })) ∧
  (∀ c : DfpCursor, c.next % 2 = 1 → c.next < 30 →
    placeDfp .quad c = some ([c.next + 1, c.next + 2], { next := c.next + 3, skipped := c.skipped ++ [c.next], doublewords := c.doublewords + 2 })) ∧
  (∀ c : DfpCursor, 31 ≤ c.next → placeDfp .quad c = none) ∧
  (∀ (t : DfpType) (c : DfpCursor), t ≠ .quad → 1 ≤ c.next → c.next < 32 →
    placeDfp t c = some ([c.next], { next := c.next + 1, skipped := c.skipped, doublewords := c.doublewords + dfpDoublewords t })) ∧
  ∀ (t : DfpType) (c : DfpCursor), c.next = 0 ∨ 32 ≤ c.next → placeDfp t c = none

/-- 42_fp_vector_registers_parameters.md R100: the count of general-register or memory doublewords the parameters consume is the same from any two cursors, so it does not depend on
whether a register was skipped. -/
def Obligations.SkippedRegistersSkipNoDoublewords : Prop :=
  ∀ (ts : List DfpType) (c d c' d' : DfpCursor) (us vs : List (List Nat)), placeDfps ts c = some (us, c') → placeDfps ts d = some (vs, d') →
    c'.doublewords + d.doublewords = d'.doublewords + c.doublewords

/-- 42_fp_vector_registers_parameters.md R97 (decision D21 reads "lower" as least-significant), R96, R99: a single-precision DFP value is in f[i][31:0] and the upper half is arbitrary; a
double-precision one is all of f[i]; a skipped register holds an arbitrary value. Nothing else of the views changes but the right half of the same register (decision D23). -/
def Obligations.SingleDfpOccupiesTheLowerHalf : Prop :=
  ∀ (i : Fin 32) (d : BitVec 32) (w : Word) (s : State),
    ((passDfpSingle i d s).regs.f i).extractLsb' 0 32 = d ∧
    ((passDfpSingle i d s).regs.f i).extractLsb' 32 32 = (Config.drawWord s.draws).setWidth 32 ∧
    (passDfpDouble i w s).regs.f i = w ∧ (skipFpr i s).regs.f i = Config.drawWord s.draws ∧
    (∀ j, j ≠ i → (passDfpSingle i d s).regs.f j = s.regs.f j ∧ (passDfpDouble i w s).regs.f j = s.regs.f j ∧ (skipFpr i s).regs.f j = s.regs.f j) ∧
    ∀ j, (passDfpSingle i d s).regs.v j = s.regs.v j ∧ (passDfpDouble i w s).regs.v j = s.regs.v j ∧ (skipFpr i s).regs.v j = s.regs.v j

/-- 42_fp_vector_registers_parameters.md R98 (G17, log entry 13 for which register is the more significant): a quad-precision DFP value fills an even/odd pair. -/
def Obligations.QuadDfpFillsThePair : Prop :=
  ∀ (j : Fin 16) (d : Quad) (s : State),
    (passDfpQuad j d s).regs.f (pairEven j) ++ (passDfpQuad j d s).regs.f (pairOdd j) = d ∧
    ∀ i, i ≠ pairEven j → i ≠ pairOdd j → (passDfpQuad j d s).regs.f i = s.regs.f i

/-- 42_fp_vector_registers_parameters.md R107: a binary128 value takes one vector register of v2 to v13, all 128 bits, as a vector value would, and no floating-point register. -/
def Obligations.Binary128TakesOneVectorRegister : Prop :=
  ∀ (next r after : Nat) (q : Quad) (s : State), placeBinary128 next = some (r, after) → 2 ≤ r ∧ r ≤ 13 ∧
    (passBinary128 (Fin.ofNat 32 r) q s).regs.v (Fin.ofNat 32 r) = q ∧
    (∀ j, (passBinary128 (Fin.ofNat 32 r) q s).regs.f j = s.regs.f j) ∧
    (∀ j : Fin 32, j.val ≠ r → (passBinary128 (Fin.ofNat 32 r) q s).regs.v j = s.regs.v j) ∧
    passBinary128 (Fin.ofNat 32 r) q s = s.writeVr (Fin.ofNat 32 r) q

/-- 42_fp_vector_registers_parameters.md R108, R109: the two doubles of an IBM extended-precision value go to two successive registers of f1 to f13, with no even/odd alignment; when only f13
is left the second goes to a general register or to memory. Which one is an argument of the call (93 U15), refused if it is a floating-point register, a doubleword of memory at any address, a misaligned one
too (20_memory.md R28 leaves that to BaseISA), and with none of f1 to f13 left, or of
v2 to v13 for a binary128 value (R107), there is no place: the model's choice (log entry 28). So is that f1 to f13 and v2 to v13 are taken in rising order, the next register being the one above (log entry 39). -/
def Obligations.IbmExtendedTakesTwoSuccessiveRegisters : Prop :=
  (∀ next elsewhere, 1 ≤ next → next ≤ 12 →
    placeIbmExtended next elsewhere = some (.fpr next, .fpr (next + 1), next + 2)) ∧
  (∀ h1 h2 after elsewhere, placeIbmExtended 13 elsewhere = some (h1, h2, after) → h1 = .fpr 13 ∧ h2 = elsewhere ∧ ∀ i, h2 ≠ .fpr i) ∧
  (∀ elsewhere, (∀ i, elsewhere ≠ .fpr i) → (placeIbmExtended 13 elsewhere).isSome = true) ∧
  (∀ next elsewhere, next = 0 ∨ 13 < next → placeIbmExtended next elsewhere = none) ∧
  (∀ (n : Nat) (v1 v2 : Word) (s : State), 1 ≤ n → n ≤ 12 → ∃ t, passIbmExtended (.fpr n) (.fpr (n + 1)) v1 v2 s = .ok t ∧
    t.regs.f (Fin.ofNat 32 n) = v1 ∧ t.regs.f (Fin.ofNat 32 (n + 1)) = v2 ∧
    ∀ i : Fin 32, i.val ≠ n → i.val ≠ n + 1 → t.regs.f i = s.regs.f i) ∧
  (∀ (i : Fin 32) (v1 v2 : Word) (s : State), ∃ t, passIbmExtended (.fpr 13) (.gpr i) v1 v2 s = .ok t ∧
    t.regs.f 13 = v1 ∧ t.x i = v2 ∧ (∀ j, j ≠ 13 → t.regs.f j = s.regs.f j) ∧ (∀ j, j ≠ i → t.x j = s.x j) ∧
    ∀ b, (i = 1 → b < v2.toNat ∨ (s.x 1).toNat ≤ b) → t.byteAt b = s.byteAt b) ∧
  (∀ (a v1 v2 : Word) (s t : State), passIbmExtended (.fpr 13) (.memory a) v1 v2 s = .ok t →
    t.regs.f 13 = v1 ∧ t.contentWord a = v2 ∧ (∀ j, j ≠ 13 → t.regs.f j = s.regs.f j) ∧ (∀ j, t.x j = s.x j) ∧
    ∀ b, (∀ i < 8, byteAddr a i ≠ b) → t.byteAt b = s.byteAt b) ∧
  ∀ next : Nat, placeBinary128 next = if 2 ≤ next ∧ next ≤ 13 then some (next, next + 1) else none
end

