-- ==== Sys2Proof/Laws/State.lean ====
section
/-! SUPPORT. One lemma per field per update of the records (true by rfl), and the register file's read-after-write laws. -/

namespace Sys2Proof.Machine

/-! ## Register files -/

@[simp] theorem Regs.x_setX_same (r : Regs) (i : Fin 32) (v : Word) : (r.setX i v).x i = v := by simp [Regs.x, Regs.setX]

theorem Regs.x_setX_ne (r : Regs) {i j : Fin 32} (v : Word) (h : i ≠ j) : (r.setX i v).x j = r.x j := by
  have : i.val ≠ j.val := fun e => h (Fin.ext e)
  simp [Regs.x, Regs.setX, Vector.getElem_set_ne, this]

theorem Regs.x_setX (r : Regs) (i j : Fin 32) (v : Word) : (r.setX i v).x j = if i = j then v else r.x j := by
  split
  · next h => subst h; simp
  · next h => exact Regs.x_setX_ne r v h

@[simp] theorem Regs.vs_setVs_same (r : Regs) (i : Fin 64) (v : Quad) : (r.setVs i v).vs i = v := by simp [Regs.vs, Regs.setVs]

theorem Regs.vs_setVs_ne (r : Regs) {i j : Fin 64} (v : Quad) (h : i ≠ j) : (r.setVs i v).vs j = r.vs j := by
  have : i.val ≠ j.val := fun e => h (Fin.ext e)
  simp [Regs.vs, Regs.setVs, Vector.getElem_set_ne, this]

@[simp] theorem Regs.setX_lr (r : Regs) (i : Fin 32) (v : Word) : (r.setX i v).lr = r.lr := rfl
@[simp] theorem Regs.setX_ctr (r : Regs) (i : Fin 32) (v : Word) : (r.setX i v).ctr = r.ctr := rfl
@[simp] theorem Regs.setX_tar (r : Regs) (i : Fin 32) (v : Word) : (r.setX i v).tar = r.tar := rfl
@[simp] theorem Regs.setX_xer (r : Regs) (i : Fin 32) (v : Word) : (r.setX i v).xer = r.xer := rfl
@[simp] theorem Regs.setX_dscr (r : Regs) (i : Fin 32) (v : Word) : (r.setX i v).dscr = r.dscr := rfl
@[simp] theorem Regs.setX_vrsave (r : Regs) (i : Fin 32) (v : Word) : (r.setX i v).vrsave = r.vrsave := rfl
@[simp] theorem Regs.setX_cr (r : Regs) (i : Fin 32) (v : Word) : (r.setX i v).cr = r.cr := rfl
@[simp] theorem Regs.setX_vsr (r : Regs) (i : Fin 32) (v : Word) : (r.setX i v).vsr = r.vsr := rfl
@[simp] theorem Regs.setX_fpscr (r : Regs) (i : Fin 32) (v : Word) : (r.setX i v).fpscr = r.fpscr := rfl
@[simp] theorem Regs.setX_vscr (r : Regs) (i : Fin 32) (v : Word) : (r.setX i v).vscr = r.vscr := rfl
@[simp] theorem Regs.setX_pc (r : Regs) (i : Fin 32) (v : Word) : (r.setX i v).pc = r.pc := rfl
@[simp] theorem Regs.setVs_gpr (r : Regs) (i : Fin 64) (v : Quad) : (r.setVs i v).gpr = r.gpr := rfl
@[simp] theorem Regs.setVs_lr (r : Regs) (i : Fin 64) (v : Quad) : (r.setVs i v).lr = r.lr := rfl
@[simp] theorem Regs.setVs_ctr (r : Regs) (i : Fin 64) (v : Quad) : (r.setVs i v).ctr = r.ctr := rfl
@[simp] theorem Regs.setVs_tar (r : Regs) (i : Fin 64) (v : Quad) : (r.setVs i v).tar = r.tar := rfl
@[simp] theorem Regs.setVs_xer (r : Regs) (i : Fin 64) (v : Quad) : (r.setVs i v).xer = r.xer := rfl
@[simp] theorem Regs.setVs_dscr (r : Regs) (i : Fin 64) (v : Quad) : (r.setVs i v).dscr = r.dscr := rfl
@[simp] theorem Regs.setVs_vrsave (r : Regs) (i : Fin 64) (v : Quad) : (r.setVs i v).vrsave = r.vrsave := rfl
@[simp] theorem Regs.setVs_cr (r : Regs) (i : Fin 64) (v : Quad) : (r.setVs i v).cr = r.cr := rfl
@[simp] theorem Regs.setVs_fpscr (r : Regs) (i : Fin 64) (v : Quad) : (r.setVs i v).fpscr = r.fpscr := rfl
@[simp] theorem Regs.setVs_vscr (r : Regs) (i : Fin 64) (v : Quad) : (r.setVs i v).vscr = r.vscr := rfl
@[simp] theorem Regs.setVs_pc (r : Regs) (i : Fin 64) (v : Quad) : (r.setVs i v).pc = r.pc := rfl
@[simp] theorem Regs.vs_setX (r : Regs) (i : Fin 32) (v : Word) (j : Fin 64) : (r.setX i v).vs j = r.vs j := rfl
@[simp] theorem Regs.f_setX (r : Regs) (i : Fin 32) (v : Word) (j : Fin 32) : (r.setX i v).f j = r.f j := rfl
@[simp] theorem Regs.v_setX (r : Regs) (i : Fin 32) (v : Word) (j : Fin 32) : (r.setX i v).v j = r.v j := rfl
@[simp] theorem Regs.x_setVs (r : Regs) (i : Fin 64) (v : Quad) (j : Fin 32) : (r.setVs i v).x j = r.x j := rfl

/-! ## The halves of a vector-scalar register -/

theorem extract_left (a b : Word) : (a ++ b : Quad).extractLsb' 64 64 = a := by
  apply BitVec.eq_of_getLsbD_eq
  intro j hj
  rw [BitVec.getLsbD_extractLsb']
  refine (congrArg _ (BitVec.getLsbD_append (x := a) (y := b) (i := 64 + j))).trans ?_
  simp [hj]

theorem extract_right (a b : Word) : (a ++ b : Quad).extractLsb' 0 64 = b := by
  apply BitVec.eq_of_getLsbD_eq
  intro j hj
  rw [BitVec.getLsbD_extractLsb']
  refine (congrArg _ (BitVec.getLsbD_append (x := a) (y := b) (i := 0 + j))).trans ?_
  simp [hj]

/-! ## Accessors: one spelling, the field -/

@[simp] theorem State.regs_eq (s : State) : s.regs = s.th.regs := rfl
@[simp] theorem State.x_eq (s : State) (i : Fin 32) : s.x i = s.th.regs.x i := rfl
@[simp] theorem State.pc_eq (s : State) : s.pc = s.th.regs.pc := rfl

/-! ## setRegs -/

@[simp] theorem State.setRegs_parked (s : State) (r : Regs) : (s.setRegs r).parked = s.parked := rfl
@[simp] theorem State.setRegs_mem (s : State) (r : Regs) : (s.setRegs r).mem = s.mem := rfl
@[simp] theorem State.setRegs_memGen (s : State) (r : Regs) : (s.setRegs r).memGen = s.memGen := rfl
@[simp] theorem State.setRegs_draws (s : State) (r : Regs) : (s.setRegs r).draws = s.draws := rfl
@[simp] theorem State.setRegs_params (s : State) (r : Regs) : (s.setRegs r).params = s.params := rfl
@[simp] theorem State.setRegs_regs (s : State) (r : Regs) : (s.setRegs r).th.regs = r := rfl
@[simp] theorem State.setRegs_threadPtr (s : State) (r : Regs) : (s.setRegs r).th.threadPtr = s.th.threadPtr := rfl
@[simp] theorem State.setRegs_frames (s : State) (r : Regs) : (s.setRegs r).th.frames = s.th.frames := rfl
@[simp] theorem State.setRegs_activations (s : State) (r : Regs) : (s.setRegs r).th.activations = s.th.activations := rfl
@[simp] theorem State.setRegs_exits (s : State) (r : Regs) : (s.setRegs r).th.exits = s.th.exits := rfl
@[simp] theorem State.setRegs_breaches (s : State) (r : Regs) : (s.setRegs r).th.breaches = s.th.breaches := rfl
@[simp] theorem State.setRegs_reloadOwed (s : State) (r : Regs) : (s.setRegs r).th.reloadOwed = s.th.reloadOwed := rfl
@[simp] theorem State.setRegs_baseState (s : State) (r : Regs) : (s.setRegs r).baseState = s.baseState := rfl

/-! ## markAll -/

@[simp] theorem State.markAll_parked (s : State) (bs : List Breach) : (s.markAll bs).parked = s.parked := rfl
@[simp] theorem State.markAll_mem (s : State) (bs : List Breach) : (s.markAll bs).mem = s.mem := rfl
@[simp] theorem State.markAll_memGen (s : State) (bs : List Breach) : (s.markAll bs).memGen = s.memGen := rfl
@[simp] theorem State.markAll_draws (s : State) (bs : List Breach) : (s.markAll bs).draws = s.draws := rfl
@[simp] theorem State.markAll_params (s : State) (bs : List Breach) : (s.markAll bs).params = s.params := rfl
@[simp] theorem State.markAll_regs (s : State) (bs : List Breach) : (s.markAll bs).th.regs = s.th.regs := rfl
@[simp] theorem State.markAll_threadPtr (s : State) (bs : List Breach) : (s.markAll bs).th.threadPtr = s.th.threadPtr := rfl
@[simp] theorem State.markAll_frames (s : State) (bs : List Breach) : (s.markAll bs).th.frames = s.th.frames := rfl
@[simp] theorem State.markAll_activations (s : State) (bs : List Breach) : (s.markAll bs).th.activations = s.th.activations := rfl
@[simp] theorem State.markAll_exits (s : State) (bs : List Breach) : (s.markAll bs).th.exits = s.th.exits := rfl
@[simp] theorem State.markAll_breaches (s : State) (bs : List Breach) : (s.markAll bs).th.breaches = bs ++ s.th.breaches := rfl
@[simp] theorem State.markAll_reloadOwed (s : State) (bs : List Breach) : (s.markAll bs).th.reloadOwed = s.th.reloadOwed := rfl
@[simp] theorem State.markAll_baseState (s : State) (bs : List Breach) : (s.markAll bs).baseState = s.baseState := rfl

/-! ## markAbi -/

@[simp] theorem State.markAbi_parked (s : State) (rs : List AbiRule) : (s.markAbi rs).parked = s.parked := rfl
@[simp] theorem State.markAbi_mem (s : State) (rs : List AbiRule) : (s.markAbi rs).mem = s.mem := rfl
@[simp] theorem State.markAbi_memGen (s : State) (rs : List AbiRule) : (s.markAbi rs).memGen = s.memGen := rfl
@[simp] theorem State.markAbi_draws (s : State) (rs : List AbiRule) : (s.markAbi rs).draws = s.draws := rfl
@[simp] theorem State.markAbi_params (s : State) (rs : List AbiRule) : (s.markAbi rs).params = s.params := rfl
@[simp] theorem State.markAbi_regs (s : State) (rs : List AbiRule) : (s.markAbi rs).th.regs = s.th.regs := rfl
@[simp] theorem State.markAbi_threadPtr (s : State) (rs : List AbiRule) : (s.markAbi rs).th.threadPtr = s.th.threadPtr := rfl
@[simp] theorem State.markAbi_frames (s : State) (rs : List AbiRule) : (s.markAbi rs).th.frames = s.th.frames := rfl
@[simp] theorem State.markAbi_activations (s : State) (rs : List AbiRule) : (s.markAbi rs).th.activations = s.th.activations := rfl
@[simp] theorem State.markAbi_exits (s : State) (rs : List AbiRule) : (s.markAbi rs).th.exits = s.th.exits := rfl
@[simp] theorem State.markAbi_breaches (s : State) (rs : List AbiRule) : (s.markAbi rs).th.breaches = rs.map Breach.abiViolation ++ s.th.breaches := rfl
@[simp] theorem State.markAbi_reloadOwed (s : State) (rs : List AbiRule) : (s.markAbi rs).th.reloadOwed = s.th.reloadOwed := rfl
@[simp] theorem State.markAbi_baseState (s : State) (rs : List AbiRule) : (s.markAbi rs).baseState = s.baseState := rfl

/-! ## markReserved -/

@[simp] theorem State.markReserved_parked (s : State) (r : ReservedRegister) : (s.markReserved r).parked = s.parked := rfl
@[simp] theorem State.markReserved_mem (s : State) (r : ReservedRegister) : (s.markReserved r).mem = s.mem := rfl
@[simp] theorem State.markReserved_memGen (s : State) (r : ReservedRegister) : (s.markReserved r).memGen = s.memGen := rfl
@[simp] theorem State.markReserved_draws (s : State) (r : ReservedRegister) : (s.markReserved r).draws = s.draws := rfl
@[simp] theorem State.markReserved_params (s : State) (r : ReservedRegister) : (s.markReserved r).params = s.params := rfl
@[simp] theorem State.markReserved_regs (s : State) (r : ReservedRegister) : (s.markReserved r).th.regs = s.th.regs := rfl
@[simp] theorem State.markReserved_threadPtr (s : State) (r : ReservedRegister) : (s.markReserved r).th.threadPtr = s.th.threadPtr := rfl
@[simp] theorem State.markReserved_frames (s : State) (r : ReservedRegister) : (s.markReserved r).th.frames = s.th.frames := rfl
@[simp] theorem State.markReserved_activations (s : State) (r : ReservedRegister) : (s.markReserved r).th.activations = s.th.activations := rfl
@[simp] theorem State.markReserved_exits (s : State) (r : ReservedRegister) : (s.markReserved r).th.exits = s.th.exits := rfl
@[simp] theorem State.markReserved_breaches (s : State) (r : ReservedRegister) : (s.markReserved r).th.breaches = .reservedRegister r :: s.th.breaches := rfl
@[simp] theorem State.markReserved_reloadOwed (s : State) (r : ReservedRegister) : (s.markReserved r).th.reloadOwed = s.th.reloadOwed := rfl
@[simp] theorem State.markReserved_baseState (s : State) (r : ReservedRegister) : (s.markReserved r).baseState = s.baseState := rfl

/-! ## drawn -/

@[simp] theorem State.drawn_parked (s : State) (n : Nat) : (s.drawn n).parked = s.parked := rfl
@[simp] theorem State.drawn_mem (s : State) (n : Nat) : (s.drawn n).mem = s.mem := rfl
@[simp] theorem State.drawn_memGen (s : State) (n : Nat) : (s.drawn n).memGen = s.memGen := rfl
@[simp] theorem State.drawn_draws (s : State) (n : Nat) : (s.drawn n).draws = s.draws + n := rfl
@[simp] theorem State.drawn_params (s : State) (n : Nat) : (s.drawn n).params = s.params := rfl
@[simp] theorem State.drawn_regs (s : State) (n : Nat) : (s.drawn n).th.regs = s.th.regs := rfl
@[simp] theorem State.drawn_threadPtr (s : State) (n : Nat) : (s.drawn n).th.threadPtr = s.th.threadPtr := rfl
@[simp] theorem State.drawn_frames (s : State) (n : Nat) : (s.drawn n).th.frames = s.th.frames := rfl
@[simp] theorem State.drawn_activations (s : State) (n : Nat) : (s.drawn n).th.activations = s.th.activations := rfl
@[simp] theorem State.drawn_exits (s : State) (n : Nat) : (s.drawn n).th.exits = s.th.exits := rfl
@[simp] theorem State.drawn_breaches (s : State) (n : Nat) : (s.drawn n).th.breaches = s.th.breaches := rfl
@[simp] theorem State.drawn_reloadOwed (s : State) (n : Nat) : (s.drawn n).th.reloadOwed = s.th.reloadOwed := rfl
@[simp] theorem State.drawn_baseState (s : State) (n : Nat) : (s.drawn n).baseState = s.baseState := rfl

/-! ## setPc -/

@[simp] theorem State.setPc_parked (s : State) (t : Word) : (s.setPc t).parked = s.parked := rfl
@[simp] theorem State.setPc_mem (s : State) (t : Word) : (s.setPc t).mem = s.mem := rfl
@[simp] theorem State.setPc_memGen (s : State) (t : Word) : (s.setPc t).memGen = s.memGen := rfl
@[simp] theorem State.setPc_draws (s : State) (t : Word) : (s.setPc t).draws = s.draws := rfl
@[simp] theorem State.setPc_params (s : State) (t : Word) : (s.setPc t).params = s.params := rfl
@[simp] theorem State.setPc_regs (s : State) (t : Word) : (s.setPc t).th.regs = { s.th.regs with pc := t } := rfl
@[simp] theorem State.setPc_threadPtr (s : State) (t : Word) : (s.setPc t).th.threadPtr = s.th.threadPtr := rfl
@[simp] theorem State.setPc_frames (s : State) (t : Word) : (s.setPc t).th.frames = s.th.frames := rfl
@[simp] theorem State.setPc_activations (s : State) (t : Word) : (s.setPc t).th.activations = s.th.activations := rfl
@[simp] theorem State.setPc_exits (s : State) (t : Word) : (s.setPc t).th.exits = s.th.exits := rfl
@[simp] theorem State.setPc_breaches (s : State) (t : Word) : (s.setPc t).th.breaches = s.th.breaches := rfl
@[simp] theorem State.setPc_reloadOwed (s : State) (t : Word) : (s.setPc t).th.reloadOwed = s.th.reloadOwed := rfl
@[simp] theorem State.setPc_baseState (s : State) (t : Word) : (s.setPc t).baseState = s.baseState := rfl

/-! ## advance -/

@[simp] theorem State.advance_parked (s : State) : (s.advance).parked = s.parked := rfl
@[simp] theorem State.advance_mem (s : State) : (s.advance).mem = s.mem := rfl
@[simp] theorem State.advance_memGen (s : State) : (s.advance).memGen = s.memGen := rfl
@[simp] theorem State.advance_draws (s : State) : (s.advance).draws = s.draws := rfl
@[simp] theorem State.advance_params (s : State) : (s.advance).params = s.params := rfl
@[simp] theorem State.advance_regs (s : State) : (s.advance).th.regs = { s.th.regs with pc := s.th.regs.pc + 4 } := rfl
@[simp] theorem State.advance_threadPtr (s : State) : (s.advance).th.threadPtr = s.th.threadPtr := rfl
@[simp] theorem State.advance_frames (s : State) : (s.advance).th.frames = s.th.frames := rfl
@[simp] theorem State.advance_activations (s : State) : (s.advance).th.activations = s.th.activations := rfl
@[simp] theorem State.advance_exits (s : State) : (s.advance).th.exits = s.th.exits := rfl
@[simp] theorem State.advance_breaches (s : State) : (s.advance).th.breaches = s.th.breaches := rfl
@[simp] theorem State.advance_reloadOwed (s : State) : (s.advance).th.reloadOwed = s.th.reloadOwed := rfl
@[simp] theorem State.advance_baseState (s : State) : (s.advance).baseState = s.baseState := rfl

/-! ## setBaseState -/

@[simp] theorem State.setBaseState_parked (s : State) (f : BaseState) : (s.setBaseState f).parked = s.parked := rfl
@[simp] theorem State.setBaseState_mem (s : State) (f : BaseState) : (s.setBaseState f).mem = s.mem := rfl
@[simp] theorem State.setBaseState_memGen (s : State) (f : BaseState) : (s.setBaseState f).memGen = s.memGen := rfl
@[simp] theorem State.setBaseState_draws (s : State) (f : BaseState) : (s.setBaseState f).draws = s.draws := rfl
@[simp] theorem State.setBaseState_params (s : State) (f : BaseState) : (s.setBaseState f).params = s.params := rfl
@[simp] theorem State.setBaseState_regs (s : State) (f : BaseState) : (s.setBaseState f).th.regs = s.th.regs := rfl
@[simp] theorem State.setBaseState_threadPtr (s : State) (f : BaseState) : (s.setBaseState f).th.threadPtr = s.th.threadPtr := rfl
@[simp] theorem State.setBaseState_frames (s : State) (f : BaseState) : (s.setBaseState f).th.frames = s.th.frames := rfl
@[simp] theorem State.setBaseState_activations (s : State) (f : BaseState) : (s.setBaseState f).th.activations = s.th.activations := rfl
@[simp] theorem State.setBaseState_exits (s : State) (f : BaseState) : (s.setBaseState f).th.exits = s.th.exits := rfl
@[simp] theorem State.setBaseState_breaches (s : State) (f : BaseState) : (s.setBaseState f).th.breaches = s.th.breaches := rfl
@[simp] theorem State.setBaseState_reloadOwed (s : State) (f : BaseState) : (s.setBaseState f).th.reloadOwed = s.th.reloadOwed := rfl
@[simp] theorem State.setBaseState_baseState (s : State) (f : BaseState) : (s.setBaseState f).baseState = f := rfl

/-! ## setReloadOwed -/

@[simp] theorem State.setReloadOwed_parked (s : State) (b : Bool) : (s.setReloadOwed b).parked = s.parked := rfl
@[simp] theorem State.setReloadOwed_mem (s : State) (b : Bool) : (s.setReloadOwed b).mem = s.mem := rfl
@[simp] theorem State.setReloadOwed_memGen (s : State) (b : Bool) : (s.setReloadOwed b).memGen = s.memGen := rfl
@[simp] theorem State.setReloadOwed_draws (s : State) (b : Bool) : (s.setReloadOwed b).draws = s.draws := rfl
@[simp] theorem State.setReloadOwed_params (s : State) (b : Bool) : (s.setReloadOwed b).params = s.params := rfl
@[simp] theorem State.setReloadOwed_regs (s : State) (b : Bool) : (s.setReloadOwed b).th.regs = s.th.regs := rfl
@[simp] theorem State.setReloadOwed_threadPtr (s : State) (b : Bool) : (s.setReloadOwed b).th.threadPtr = s.th.threadPtr := rfl
@[simp] theorem State.setReloadOwed_frames (s : State) (b : Bool) : (s.setReloadOwed b).th.frames = s.th.frames := rfl
@[simp] theorem State.setReloadOwed_activations (s : State) (b : Bool) : (s.setReloadOwed b).th.activations = s.th.activations := rfl
@[simp] theorem State.setReloadOwed_exits (s : State) (b : Bool) : (s.setReloadOwed b).th.exits = s.th.exits := rfl
@[simp] theorem State.setReloadOwed_breaches (s : State) (b : Bool) : (s.setReloadOwed b).th.breaches = s.th.breaches := rfl
@[simp] theorem State.setReloadOwed_baseState (s : State) (b : Bool) : (s.setReloadOwed b).baseState = s.baseState := rfl
@[simp] theorem State.setReloadOwed_reloadOwed (s : State) (b : Bool) : (s.setReloadOwed b).th.reloadOwed = b := rfl

/-! ## checkText -/

@[simp] theorem State.checkText_parked (s : State) : (s.checkText).parked = s.parked := rfl
@[simp] theorem State.checkText_mem (s : State) : (s.checkText).mem = s.mem := rfl
@[simp] theorem State.checkText_memGen (s : State) : (s.checkText).memGen = s.memGen := rfl
@[simp] theorem State.checkText_draws (s : State) : (s.checkText).draws = s.draws := rfl
@[simp] theorem State.checkText_params (s : State) : (s.checkText).params = s.params := rfl
@[simp] theorem State.checkText_regs (s : State) : (s.checkText).th.regs = s.th.regs := rfl
@[simp] theorem State.checkText_threadPtr (s : State) : (s.checkText).th.threadPtr = s.th.threadPtr := rfl
@[simp] theorem State.checkText_frames (s : State) : (s.checkText).th.frames = s.th.frames := rfl
@[simp] theorem State.checkText_activations (s : State) : (s.checkText).th.activations = s.th.activations := rfl
@[simp] theorem State.checkText_exits (s : State) : (s.checkText).th.exits = s.th.exits := rfl
@[simp] theorem State.checkText_breaches (s : State) : (s.checkText).th.breaches = (textBreaches s).map Breach.abiViolation ++ s.th.breaches := rfl
@[simp] theorem State.checkText_reloadOwed (s : State) : (s.checkText).th.reloadOwed = s.th.reloadOwed := rfl
@[simp] theorem State.checkText_baseState (s : State) : (s.checkText).baseState = s.baseState := rfl

/-! ## checkChain -/

@[simp] theorem State.checkChain_parked (s : State) : (s.checkChain).parked = s.parked := rfl
@[simp] theorem State.checkChain_mem (s : State) : (s.checkChain).mem = s.mem := rfl
@[simp] theorem State.checkChain_memGen (s : State) : (s.checkChain).memGen = s.memGen := rfl
@[simp] theorem State.checkChain_draws (s : State) : (s.checkChain).draws = s.draws := rfl
@[simp] theorem State.checkChain_params (s : State) : (s.checkChain).params = s.params := rfl
@[simp] theorem State.checkChain_regs (s : State) : (s.checkChain).th.regs = s.th.regs := rfl
@[simp] theorem State.checkChain_threadPtr (s : State) : (s.checkChain).th.threadPtr = s.th.threadPtr := rfl
@[simp] theorem State.checkChain_frames (s : State) : (s.checkChain).th.frames = s.th.frames := rfl
@[simp] theorem State.checkChain_activations (s : State) : (s.checkChain).th.activations = s.th.activations := rfl
@[simp] theorem State.checkChain_exits (s : State) : (s.checkChain).th.exits = s.th.exits := rfl
@[simp] theorem State.checkChain_breaches (s : State) : (s.checkChain).th.breaches = (failing (backChainsOk s) .backChainBroken).map Breach.abiViolation ++ s.th.breaches := rfl
@[simp] theorem State.checkChain_reloadOwed (s : State) : (s.checkChain).th.reloadOwed = s.th.reloadOwed := rfl
@[simp] theorem State.checkChain_baseState (s : State) : (s.checkChain).baseState = s.baseState := rfl

/-! ## jumpSp -/

@[simp] theorem State.jumpSp_parked (s : State) (v : Word) : (s.jumpSp v).parked = s.parked := rfl
@[simp] theorem State.jumpSp_mem (s : State) (v : Word) : (s.jumpSp v).mem = s.mem := rfl
@[simp] theorem State.jumpSp_memGen (s : State) (v : Word) : (s.jumpSp v).memGen = s.memGen := rfl
@[simp] theorem State.jumpSp_draws (s : State) (v : Word) : (s.jumpSp v).draws = s.draws := rfl
@[simp] theorem State.jumpSp_params (s : State) (v : Word) : (s.jumpSp v).params = s.params := rfl
@[simp] theorem State.jumpSp_regs (s : State) (v : Word) : (s.jumpSp v).th.regs = s.th.regs := rfl
@[simp] theorem State.jumpSp_threadPtr (s : State) (v : Word) : (s.jumpSp v).th.threadPtr = s.th.threadPtr := rfl
@[simp] theorem State.jumpSp_frames (s : State) (v : Word) : (s.jumpSp v).th.frames = framesFrom s.th.frames v := rfl
@[simp] theorem State.jumpSp_activations (s : State) (v : Word) : (s.jumpSp v).th.activations = s.th.activations := rfl
@[simp] theorem State.jumpSp_exits (s : State) (v : Word) : (s.jumpSp v).th.exits = s.th.exits := rfl
@[simp] theorem State.jumpSp_breaches (s : State) (v : Word) : (s.jumpSp v).th.breaches = (s.th.jumpBreaches v).map Breach.abiViolation ++ s.th.breaches := rfl
@[simp] theorem State.jumpSp_reloadOwed (s : State) (v : Word) : (s.jumpSp v).th.reloadOwed = s.th.reloadOwed := rfl
@[simp] theorem State.jumpSp_baseState (s : State) (v : Word) : (s.jumpSp v).baseState = s.baseState := rfl

/-! ## putSp: r1 is written, bytes are drawn, and nothing else happens -/

@[simp] theorem State.putSp_parked (s : State) (v : Word) : (s.putSp v).parked = s.parked := rfl
@[simp] theorem State.putSp_memGen (s : State) (v : Word) : (s.putSp v).memGen = s.memGen := rfl
@[simp] theorem State.putSp_params (s : State) (v : Word) : (s.putSp v).params = s.params := rfl
@[simp] theorem State.putSp_threadPtr (s : State) (v : Word) : (s.putSp v).th.threadPtr = s.th.threadPtr := rfl
@[simp] theorem State.putSp_frames (s : State) (v : Word) : (s.putSp v).th.frames = s.th.frames := rfl
@[simp] theorem State.putSp_activations (s : State) (v : Word) : (s.putSp v).th.activations = s.th.activations := rfl
@[simp] theorem State.putSp_exits (s : State) (v : Word) : (s.putSp v).th.exits = s.th.exits := rfl
@[simp] theorem State.putSp_breaches (s : State) (v : Word) : (s.putSp v).th.breaches = s.th.breaches := rfl
@[simp] theorem State.putSp_reloadOwed (s : State) (v : Word) : (s.putSp v).th.reloadOwed = s.th.reloadOwed := rfl
@[simp] theorem State.putSp_baseState (s : State) (v : Word) : (s.putSp v).baseState = s.baseState := rfl
@[simp] theorem State.putSp_mem (s : State) (v : Word) : (s.putSp v).mem = s.drawnBytes v (s.exposed v) := rfl
@[simp] theorem State.putSp_draws (s : State) (v : Word) : (s.putSp v).draws = s.draws + s.exposed v := rfl
@[simp] theorem State.putSp_regs (s : State) (v : Word) : (s.putSp v).th.regs = s.th.regs.setX 1 v := rfl

/-! ## storeValue -/

@[simp] theorem State.storeValue_parked (s : State) (a : Word) (n v : Nat) : (s.storeValue a n v).parked = s.parked := rfl
@[simp] theorem State.storeValue_mem (s : State) (a : Word) (n v : Nat) : (s.storeValue a n v).mem = Memory.store s.mem a (bytesOf s.params.byteOrder n v) := rfl
@[simp] theorem State.storeValue_memGen (s : State) (a : Word) (n v : Nat) : (s.storeValue a n v).memGen = s.memGen := rfl
@[simp] theorem State.storeValue_draws (s : State) (a : Word) (n v : Nat) : (s.storeValue a n v).draws = s.draws := rfl
@[simp] theorem State.storeValue_params (s : State) (a : Word) (n v : Nat) : (s.storeValue a n v).params = s.params := rfl
@[simp] theorem State.storeValue_regs (s : State) (a : Word) (n v : Nat) : (s.storeValue a n v).th.regs = s.th.regs := rfl
@[simp] theorem State.storeValue_threadPtr (s : State) (a : Word) (n v : Nat) : (s.storeValue a n v).th.threadPtr = s.th.threadPtr := rfl
@[simp] theorem State.storeValue_frames (s : State) (a : Word) (n v : Nat) : (s.storeValue a n v).th.frames = s.th.frames := rfl
@[simp] theorem State.storeValue_activations (s : State) (a : Word) (n v : Nat) : (s.storeValue a n v).th.activations = s.th.activations := rfl
@[simp] theorem State.storeValue_exits (s : State) (a : Word) (n v : Nat) : (s.storeValue a n v).th.exits = s.th.exits := rfl
@[simp] theorem State.storeValue_breaches (s : State) (a : Word) (n v : Nat) : (s.storeValue a n v).th.breaches = s.th.breaches := rfl
@[simp] theorem State.storeValue_reloadOwed (s : State) (a : Word) (n v : Nat) : (s.storeValue a n v).th.reloadOwed = s.th.reloadOwed := rfl
@[simp] theorem State.storeValue_baseState (s : State) (a : Word) (n v : Nat) : (s.storeValue a n v).baseState = s.baseState := rfl

/-! ## Register updates that leave the files alone, whatever they do to the other registers -/

@[simp] theorem Regs.x_withGpr (r : Regs) (lr ctr tar xer dscr pc : Word) (vrsave vscr : BitVec 32) (cr : CrWord) (vsr : Vector Quad 64)
    (fpscr : BitVec 64) (i : Fin 32) : Regs.x ⟨r.gpr, lr, ctr, tar, xer, dscr, vrsave, cr, vsr, fpscr, vscr, pc⟩ i = r.x i := rfl
@[simp] theorem Regs.f_withVsr (r : Regs) (gpr : Vector Word 32) (lr ctr tar xer dscr pc : Word) (vrsave vscr : BitVec 32) (cr : CrWord)
    (fpscr : BitVec 64) (i : Fin 32) : Regs.f ⟨gpr, lr, ctr, tar, xer, dscr, vrsave, cr, r.vsr, fpscr, vscr, pc⟩ i = r.f i := rfl
@[simp] theorem Regs.v_withVsr (r : Regs) (gpr : Vector Word 32) (lr ctr tar xer dscr pc : Word) (vrsave vscr : BitVec 32) (cr : CrWord)
    (fpscr : BitVec 64) (i : Fin 32) : Regs.v ⟨gpr, lr, ctr, tar, xer, dscr, vrsave, cr, r.vsr, fpscr, vscr, pc⟩ i = r.v i := rfl
@[simp] theorem Regs.vsrRight_withVsr (r : Regs) (gpr : Vector Word 32) (lr ctr tar xer dscr pc : Word) (vrsave vscr : BitVec 32) (cr : CrWord)
    (fpscr : BitVec 64) (i : Fin 32) : Regs.vsrRight ⟨gpr, lr, ctr, tar, xer, dscr, vrsave, cr, r.vsr, fpscr, vscr, pc⟩ i = r.vsrRight i := rfl

/-! ## writeGpr: everything it can do -/

theorem State.writeGpr_memGen (s : State) (i : Fin 32) (v : Word) : (s.writeGpr i v).memGen = s.memGen := by
  unfold State.writeGpr; split
  · rfl
  · split <;> rfl
theorem State.writeGpr_params (s : State) (i : Fin 32) (v : Word) : (s.writeGpr i v).params = s.params := by
  unfold State.writeGpr; split
  · rfl
  · split <;> rfl
theorem State.writeGpr_parked (s : State) (i : Fin 32) (v : Word) : (s.writeGpr i v).parked = s.parked := by
  unfold State.writeGpr; split
  · rfl
  · split <;> rfl
theorem State.writeGpr_activations (s : State) (i : Fin 32) (v : Word) : (s.writeGpr i v).th.activations = s.th.activations := by
  unfold State.writeGpr; split
  · rfl
  · split <;> rfl
theorem State.writeGpr_exits (s : State) (i : Fin 32) (v : Word) : (s.writeGpr i v).th.exits = s.th.exits := by
  unfold State.writeGpr; split
  · rfl
  · split <;> rfl
theorem State.writeGpr_reloadOwed (s : State) (i : Fin 32) (v : Word) : (s.writeGpr i v).th.reloadOwed = s.th.reloadOwed := by
  unfold State.writeGpr; split
  · rfl
  · split <;> rfl
theorem State.writeGpr_baseState (s : State) (i : Fin 32) (v : Word) : (s.writeGpr i v).baseState = s.baseState := by
  unfold State.writeGpr; split
  · rfl
  · split <;> rfl
theorem State.writeGpr_threadPtr (s : State) (i : Fin 32) (v : Word) : (s.writeGpr i v).th.threadPtr = s.th.threadPtr := by
  unfold State.writeGpr; split
  · rfl
  · split <;> rfl
theorem State.writeGpr_regs (s : State) (i : Fin 32) (v : Word) : (s.writeGpr i v).th.regs = s.th.regs.setX i v := by
  unfold State.writeGpr; split
  · rfl
  · split
    · next h => subst h; rfl
    · rfl
/-- Memory and the draws change with r1 alone (R113). -/
theorem State.writeGpr_mem_of_ne (s : State) {i : Fin 32} (v : Word) (h : i ≠ 1) : (s.writeGpr i v).mem = s.mem := by
  unfold State.writeGpr; split
  · rfl
  · rfl
theorem State.writeGpr_draws_of_ne (s : State) {i : Fin 32} (v : Word) (h : i ≠ 1) : (s.writeGpr i v).draws = s.draws := by
  unfold State.writeGpr; split
  · rfl
  · rfl

/-- A register other than r1 and r13 is written and nothing else happens. -/
theorem State.writeGpr_plain (s : State) {i : Fin 32} (v : Word) (h1 : i ≠ 1) (h13 : i ≠ 13) :
    s.writeGpr i v = s.setRegs (s.th.regs.setX i v) := by
  simp [State.writeGpr, h1, h13]

theorem State.writeGpr_frames_of_ne (s : State) {i : Fin 32} (v : Word) (h1 : i ≠ 1) :
    (s.writeGpr i v).th.frames = s.th.frames := by
  unfold State.writeGpr; split
  · rfl
  · simp

/-- R43: a write of r13 is marked. -/
theorem State.writeGpr_thirteen (s : State) (v : Word) :
    s.writeGpr 13 v = (s.setRegs (s.th.regs.setX 13 v)).markReserved .r13 := rfl

/-- R75 to R79: a write of r1 is held against the frames. -/
theorem State.writeGpr_one (s : State) (v : Word) :
    s.writeGpr 1 v = (s.putSp v).jumpSp v := rfl

/-- Marks are only added (R111). -/
theorem State.writeGpr_breaches (s : State) (i : Fin 32) (v : Word) :
    s.th.breaches <:+ (s.writeGpr i v).th.breaches := by
  unfold State.writeGpr; split
  · exact List.suffix_cons _ _
  · split
    · exact List.suffix_append _ _
    · exact List.suffix_refl _

end Sys2Proof.Machine
end

