-- ==== Sys2Proof/Laws/Memory.lean ====
section
/-! SUPPORT. Memory: read after write, the canonical form, byte order, and what each memory operation can do. -/

namespace Sys2Proof.Machine

/-! ## One cell -/

theorem Memory.get_put_same (m : List Host.Cell) (a : Nat) (v : Byte) : Memory.get (Memory.put m a v) a = some v := by
  induction m with
  | nil => simp [Memory.put, Memory.get]
  | cons c m ih =>
    simp only [Memory.put]
    split
    · simp [Memory.get]
    · split
      · simp [Memory.get]
      · next h1 h2 => simp [Memory.get, h2, ih]

theorem Memory.get_put_ne (m : List Host.Cell) {a b : Nat} (v : Byte) (h : b ≠ a) :
    Memory.get (Memory.put m a v) b = Memory.get m b := by
  induction m with
  | nil => simp [Memory.put, Memory.get, h]
  | cons c m ih =>
    simp only [Memory.put]
    split
    · simp [Memory.get, h]
    · split
      · next h1 h2 => subst h2; simp [Memory.get, h]
      · simp only [Memory.get, ih]

theorem Memory.mem_put {m : List Host.Cell} {a : Nat} {v : Byte} {c : Host.Cell} (h : c ∈ Memory.put m a v) :
    c = (a, v) ∨ c ∈ m := by
  induction m with
  | nil => simpa [Memory.put] using h
  | cons d m ih =>
    simp only [Memory.put] at h
    split at h
    · simpa using h
    · split at h
      · rcases List.mem_cons.mp h with h | h
        · exact .inl h
        · exact .inr (List.mem_cons_of_mem _ h)
      · rcases List.mem_cons.mp h with h | h
        · exact .inr (h ▸ List.mem_cons_self)
        · rcases ih h with h | h
          · exact .inl h
          · exact .inr (List.mem_cons_of_mem _ h)

/-- A write keeps the canonical form (R25). -/
theorem Memory.wf_put {m : List Host.Cell} {a : Nat} (v : Byte) (hm : Memory.wf m) (ha : a < addressSpace) :
    Memory.wf (Memory.put m a v) := by
  refine ⟨?_, fun c hc => ?_⟩
  · obtain ⟨hp, -⟩ := hm
    induction m with
    | nil => simp [Memory.put]
    | cons d m ih =>
      obtain ⟨hd, hp⟩ := List.pairwise_cons.mp hp
      simp only [Memory.put]
      split
      · next h =>
        refine List.pairwise_cons.mpr ⟨fun c hc => ?_, List.pairwise_cons.mpr ⟨hd, hp⟩⟩
        rcases List.mem_cons.mp hc with rfl | hc
        · exact h
        · exact Nat.lt_trans h (hd c hc)
      · split
        · next h1 h2 => exact List.pairwise_cons.mpr ⟨fun c hc => h2 ▸ hd c hc, hp⟩
        · next h1 h2 =>
          refine List.pairwise_cons.mpr ⟨fun c hc => ?_, ih hp⟩
          rcases Memory.mem_put hc with rfl | hc
          · exact Nat.lt_of_le_of_ne (Nat.le_of_not_lt h1) (Ne.symm h2)
          · exact hd c hc
  · rcases Memory.mem_put hc with rfl | hc
    · exact ha
    · exact hm.2 c hc

/-- Dropping cells keeps the canonical form. -/
theorem Memory.wf_filter {m : List Host.Cell} (f : Host.Cell → Bool) (hm : Memory.wf m) : Memory.wf (m.filter f) :=
  ⟨hm.1.filter _, fun c hc => hm.2 c (List.mem_of_mem_filter hc)⟩

/-! ## Several bytes -/

theorem Memory.wf_store {m : List Host.Cell} (a : Word) (bs : List Byte) (hm : Memory.wf m) : Memory.wf (Memory.store m a bs) := by
  induction bs generalizing m a with
  | nil => exact hm
  | cons b bs ih => exact ih (a + 1) (Memory.wf_put b hm (by simpa [addressSpace] using a.isLt))

@[simp] theorem byteAddr_zero (a : Word) : byteAddr a 0 = a.toNat := by simp [byteAddr]

theorem byteAddr_succ (a : Word) (i : Nat) : byteAddr a (i + 1) = byteAddr (a + 1) i := by
  simp only [byteAddr, BitVec.ofNat_add]
  congr 1
  rw [BitVec.add_comm (BitVec.ofNat 64 i), ← BitVec.add_assoc]
  rfl

/-- Bytes outside the access are left alone. -/
theorem Memory.get_store_outside (m : List Host.Cell) (a : Word) (bs : List Byte) (b : Nat)
    (h : ∀ i < bs.length, byteAddr a i ≠ b) : Memory.get (Memory.store m a bs) b = Memory.get m b := by
  induction bs generalizing m a with
  | nil => rfl
  | cons v bs ih =>
    have h0 : b ≠ a.toNat := by simpa using (h 0 (by simp)).symm
    simp only [Memory.store]
    rw [ih, Memory.get_put_ne m v h0]
    intro i hi
    rw [← byteAddr_succ]
    exact h (i + 1) (by simpa using hi)

theorem byteAddr_injective (a : Word) {i j : Nat} (hi : i < 2 ^ 64) (hj : j < 2 ^ 64) (h : byteAddr a i = byteAddr a j) : i = j := by
  simp only [byteAddr, BitVec.toNat_add, BitVec.toNat_ofNat] at h
  have := a.isLt
  omega

/-- Read after write: byte i of the access holds byte i of what was stored. -/
theorem Memory.get_store_inside (m : List Host.Cell) (a : Word) (bs : List Byte) (i : Nat) (hi : i < bs.length)
    (hlen : bs.length ≤ 2 ^ 64) : Memory.get (Memory.store m a bs) (byteAddr a i) = some bs[i] := by
  induction bs generalizing m a i with
  | nil => simp at hi
  | cons v bs ih =>
    simp only [List.length_cons] at hlen hi
    simp only [Memory.store]
    cases i with
    | zero =>
      rw [Memory.get_store_outside]
      · simpa using Memory.get_put_same m a.toNat v
      · intro j hj e
        rw [← byteAddr_succ] at e
        exact absurd (byteAddr_injective a (by omega) (by omega) e) (by omega)
    | succ i =>
      rw [byteAddr_succ]
      simpa using ih (Memory.put m a.toNat v) (a + 1) i (by omega) (by omega)

/-! ## Byte order (R26) -/

@[simp] theorem bytesOf_length (o : ByteOrder) (n v : Nat) : (bytesOf o n v).length = n := by
  cases o <;> simp [bytesOf]

theorem joinLittle_append (bs : List Byte) (b : Byte) : joinLittle (bs ++ [b]) = joinLittle bs + 256 ^ bs.length * b.toNat := by
  induction bs with
  | nil => simp [joinLittle]
  | cons c bs ih => simp only [List.cons_append, joinLittle, ih, List.length_cons, Nat.pow_succ]; ring

theorem joinLittle_digits (n v : Nat) :
    joinLittle ((List.range n).map fun i => BitVec.ofNat 8 (v >>> (8 * i))) = v % 256 ^ n := by
  induction n with
  | zero => simp [joinLittle, Nat.mod_one]
  | succ n ih =>
    rw [List.range_succ, List.map_append, List.map_singleton, joinLittle_append, ih]
    simp only [List.length_map, List.length_range, BitVec.toNat_ofNat, Nat.shiftRight_eq_div_pow]
    rw [show (2 : Nat) ^ 8 = 256 from rfl, Nat.pow_succ, Nat.mod_mul, show (2 : Nat) ^ (8 * n) = 256 ^ n by rw [Nat.pow_mul]]

/-- What is laid out in a byte order and read back in it is the value, in as many bytes as there are. -/
theorem joinBytes_bytesOf (o : ByteOrder) (n v : Nat) : joinBytes o (bytesOf o n v) = v % 256 ^ n := by
  cases o <;> simp [joinBytes, bytesOf, joinLittle_digits]

/-! ## Reads and writes of a state -/

/-- What the bytes of memory depend on. -/
theorem State.byteAt_congr {s t : State} (hm : t.mem = s.mem) (hg : t.memGen = s.memGen) (hp : t.params = s.params) (b : Nat) :
    t.byteAt b = s.byteAt b := by
  simp only [State.byteAt, State.genAt, hm, hg, hp]

/-- A byte of the list is the same, and the generation and parameters are: so is the byte of memory. -/
theorem State.byteAt_of_get {s t : State} {b : Nat} (hm : Memory.get t.mem b = Memory.get s.mem b) (hg : t.memGen = s.memGen)
    (hp : t.params = s.params) : t.byteAt b = s.byteAt b := by
  simp only [State.byteAt, State.genAt, hm, hg, hp]

/-- Program text: the generation does not matter (R31). -/
theorem State.byteAt_code {s t : State} {b : Nat} (hm : Memory.get t.mem b = Memory.get s.mem b) (hp : t.params = s.params)
    (hc : holdsCode s.params b = true) : t.byteAt b = s.byteAt b := by
  simp only [State.byteAt, State.genAt, hm, hp, hc, if_true]

/-- A doubleword all of whose bytes are the same is the same. -/
theorem State.contentWord_congr {s t : State} {a : Word} (h : ∀ i < 8, t.byteAt (byteAddr a i) = s.byteAt (byteAddr a i)) (hp : t.params = s.params) :
    t.contentWord a = s.contentWord a := by
  simp only [State.contentWord, accessAddrs, List.map_map, hp]
  congr 2
  apply List.map_congr_left
  intro i hi
  exact h i (by simpa using hi)

theorem State.byteAt_storeValue_outside (s : State) (a : Word) (n v : Nat) (b : Nat) (h : ∀ i < n, byteAddr a i ≠ b) :
    (s.storeValue a n v).byteAt b = s.byteAt b := by
  exact State.byteAt_of_get (Memory.get_store_outside _ _ _ _ (by simpa using h)) rfl rfl

theorem State.byteAt_storeValue_inside (s : State) (a : Word) {n : Nat} (v : Nat) {i : Nat} (hi : i < n) (hn : n ≤ 2 ^ 64) :
    (s.storeValue a n v).byteAt (byteAddr a i) = (bytesOf s.params.byteOrder n v)[i]'(by simpa using hi) := by
  simp only [State.byteAt, State.storeValue_mem]
  rw [Memory.get_store_inside _ _ _ _ (by simpa using hi) (by simpa using hn)]
  rfl

/-- Read after write of a doubleword. -/
theorem State.contentWord_storeValue (s : State) (a : Word) (v : Word) : (s.storeValue a 8 v.toNat).contentWord a = v := by
  have : (accessAddrs a 8).map (s.storeValue a 8 v.toNat).byteAt = bytesOf s.params.byteOrder 8 v.toNat := by
    apply List.ext_getElem
    · simp [accessAddrs]
    · intro i h1 h2
      simp only [accessAddrs, List.map_map, List.getElem_map, List.getElem_range, Function.comp]
      exact State.byteAt_storeValue_inside s a v.toNat (by simpa using h2) (by decide)
  simp only [State.contentWord, this, State.storeValue_params, joinBytes_bytesOf]
  apply BitVec.eq_of_toNat_eq
  have := v.isLt
  simp only [BitVec.toNat_ofNat]
  omega

/-- What is asked of every byte of an access. -/
theorem accessAddrs_all {P : Nat → Bool} {a : Word} {n : Nat} : (accessAddrs a n).all P = true ↔ ∀ i < n, P (byteAddr a i) = true := by
  simp [accessAddrs]

theorem accessAddrs_any {P : Nat → Bool} {a : Word} {n : Nat} : (accessAddrs a n).any P = false ↔ ∀ i < n, P (byteAddr a i) = false := by
  simp [accessAddrs]

/-- Everything `MemWrite` can do: it stores the value where the access is allocated and holds no code. -/
theorem State.memWrite_ok {s t : State} {a : Word} {n v : Nat} (h : s.memWrite a n v = .ok t) :
    t = s.storeValue a n v ∧ (accessAddrs a n).all (allocated s.params) = true ∧ (accessAddrs a n).any (holdsCode s.params) = false := by
  unfold State.memWrite at h
  split at h
  · exact absurd h (by simp)
  · split at h
    · exact absurd h (by simp)
    · next h1 h2 =>
      injection h with h
      exact ⟨h.symm, by simpa using h1, by simpa using h2⟩

theorem State.writeSlot_ok {s t : State} {a v : Word} (h : s.writeSlot a v = .ok t) :
    t = s.storeValue a 8 v.toNat ∧ a.toNat % 8 = 0 := by
  unfold State.writeSlot at h
  split at h
  · next h8 => exact ⟨(State.memWrite_ok h).1, h8⟩
  · exact absurd h (by simp)

/-- Everything `MemRead` can do: the value, and the draws are used up, where the access is allocated. -/
theorem State.memRead_ok {s : State} {a : Word} {n : Nat} {r : BitVec (8 * n) × State} (h : s.memRead a n = .ok r) :
    r = (s.readValue a n, s.drawn n) ∧ (accessAddrs a n).all (allocated s.params) = true := by
  unfold State.memRead at h
  split at h
  · next ha => injection h with h; exact ⟨h.symm, ha⟩
  · exact absurd h (by simp)

/-- A write that answers changes no program text (R31). -/
theorem State.memWrite_code {s t : State} {a : Word} {n v b : Nat} (h : s.memWrite a n v = .ok t) (hb : holdsCode s.params b = true) :
    Memory.get t.mem b = Memory.get s.mem b := by
  obtain ⟨rfl, -, hc⟩ := State.memWrite_ok h
  refine Memory.get_store_outside _ _ _ _ fun i hi e => ?_
  have := accessAddrs_any.mp hc i (by simpa using hi)
  rw [e, hb] at this
  exact absurd this (by decide)

theorem State.writeSlot_code {s t : State} {a v : Word} {b : Nat} (h : s.writeSlot a v = .ok t) (hb : holdsCode s.params b = true) :
    Memory.get t.mem b = Memory.get s.mem b := by
  unfold State.writeSlot at h
  split at h
  · exact State.memWrite_code h hb
  · exact absurd h (by simp)

/-- Everything `MemRead` of a slot can do: the value, and the draws are used up. -/
theorem State.readSlot_ok {s : State} {a : Word} {r : Word × State} (h : s.readSlot a = .ok r) :
    r = (s.readValue a 8, s.drawn 8) ∧ a.toNat % 8 = 0 := by
  unfold State.readSlot at h
  split at h
  · next h8 =>
    exact ⟨(State.memRead_ok h).1, h8⟩
  · exact absurd h (by simp)

/-- A doubleword no byte of which is below r1 reads as what it holds (R113). -/
theorem State.readValue_above (s : State) (a : Word) (h : ∀ i < 8, s.shifting (byteAddr a i) = false) :
    s.readValue a 8 = s.contentWord a := by
  simp only [State.readValue, State.contentWord, accessAddrs, List.map_map]
  congr 2
  apply List.map_congr_left
  intro i hi
  simp [State.readByte, h i (by simpa using hi)]

/-! ## Bytes that were below r1 -/

theorem State.drawnBytes_wf (s : State) (a : Word) (n : Nat) (h : Memory.wf s.mem) : Memory.wf (s.drawnBytes a n) := by
  induction n with
  | zero => exact h
  | succ n ih =>
    simp only [State.drawnBytes]
    split
    · exact ih
    · exact Memory.wf_put _ ih (a + BitVec.ofNat 64 n).isLt

/-- Bytes outside are left alone. -/
theorem State.drawnBytes_outside (s : State) (a : Word) (n b : Nat) (h : ∀ i < n, byteAddr a i ≠ b) :
    Memory.get (s.drawnBytes a n) b = Memory.get s.mem b := by
  induction n with
  | zero => rfl
  | succ n ih =>
    simp only [State.drawnBytes]
    split
    · exact ih fun i hi => h i (by omega)
    · rw [Memory.get_put_ne _ _ (h n (by omega)).symm]; exact ih fun i hi => h i (by omega)

/-- Program text is left alone (R31). -/
theorem State.drawnBytes_code (s : State) (a : Word) (n : Nat) {b : Nat} (h : holdsCode s.params b = true) :
    Memory.get (s.drawnBytes a n) b = Memory.get s.mem b := by
  induction n with
  | zero => rfl
  | succ n ih =>
    simp only [State.drawnBytes]
    split
    · exact ih
    · next hc => rw [Memory.get_put_ne _ _ (fun e => hc (by rw [← e]; exact h))]; exact ih

/-- Every other byte inside is a draw of its own. -/
theorem State.drawnBytes_inside (s : State) (a : Word) {n i : Nat} (hn : a.toNat + n ≤ addressSpace) (hi : i < n)
    (hc : holdsCode s.params (a.toNat + i) = false) : Memory.get (s.drawnBytes a n) (a.toNat + i) = some (Config.drawByte (s.draws + i)) := by
  have addr : ∀ k < n, byteAddr a k = a.toNat + k := by
    intro k hk
    simp only [addressSpace] at hn
    simp only [byteAddr, BitVec.toNat_add, BitVec.toNat_ofNat]
    omega
  induction n with
  | zero => exact absurd hi (Nat.not_lt_zero _)
  | succ n ih =>
    have ih := fun h => ih (by omega) h fun k hk => addr k (by omega)
    simp only [State.drawnBytes, addr n (by omega)]
    by_cases e : i = n
    · subst e
      rw [hc]
      exact Memory.get_put_same _ _ _
    · split
      · exact ih (by omega)
      · rw [Memory.get_put_ne _ _ (by omega)]; exact ih (by omega)

theorem State.putSp_wf (s : State) (v : Word) (h : Memory.wf s.mem) : Memory.wf (s.putSp v).mem := State.drawnBytes_wf s v _ h

/-- R113: bytes that were not below r1, and bytes that still are, stay. -/
theorem State.putSp_outside (s : State) (v : Word) {b : Nat} (h : b < v.toNat ∨ (s.th.regs.x 1).toNat ≤ b) : (s.putSp v).byteAt b = s.byteAt b := by
  refine State.byteAt_of_get (State.drawnBytes_outside s v _ b fun i hi e => ?_) rfl rfl
  have h1 := (s.th.regs.x 1).isLt
  simp only [State.exposed, State.x_eq] at hi
  simp only [byteAddr, BitVec.toNat_add, BitVec.toNat_ofNat] at e
  omega

/-- R113: the bytes r1 came below are draws. -/
theorem State.putSp_inside (s : State) (v : Word) {b : Nat} (h1 : v.toNat ≤ b) (h2 : b < (s.th.regs.x 1).toNat) (hc : holdsCode s.params b = false) :
    (s.putSp v).byteAt b = Config.drawByte (s.draws + (b - v.toNat)) := by
  have hx := (s.th.regs.x 1).isLt
  have hb : b = v.toNat + (b - v.toNat) := by omega
  have := State.drawnBytes_inside s v (n := s.exposed v) (i := b - v.toNat) (by simp only [State.exposed, State.x_eq, addressSpace]; omega)
    (by simp only [State.exposed, State.x_eq]; omega) (by rw [← hb]; exact hc)
  rw [← hb] at this
  simp only [State.byteAt, State.putSp_mem, this]
  rfl

theorem State.putSp_code (s : State) (v : Word) {b : Nat} (h : holdsCode s.params b = true) : Memory.get (s.putSp v).mem b = Memory.get s.mem b :=
  State.drawnBytes_code s v _ h

/-- A higher r1 leaves memory. -/
theorem State.putSp_mem_of_le (s : State) {v : Word} (h : (s.th.regs.x 1).toNat ≤ v.toNat) : (s.putSp v).mem = s.mem := by
  rw [State.putSp_mem, State.exposed, State.x_eq, Nat.sub_eq_zero_of_le h]
  rfl

/-! ### Writes of general registers -/

theorem State.writeGpr_wf (s : State) (i : Fin 32) (v : Word) (h : Memory.wf s.mem) : Memory.wf (s.writeGpr i v).mem := by
  by_cases e : i = 1
  · subst e; exact State.putSp_wf s v h
  · rw [State.writeGpr_mem_of_ne s v e]; exact h

theorem State.writeGpr_code (s : State) (i : Fin 32) (v : Word) {b : Nat} (h : holdsCode s.params b = true) :
    Memory.get (s.writeGpr i v).mem b = Memory.get s.mem b := by
  by_cases e : i = 1
  · subst e; exact State.putSp_code s v h
  · rw [State.writeGpr_mem_of_ne s v e]

/-- R113: a write of a general register leaves every byte it does not bring above r1. -/
theorem State.writeGpr_outside (s : State) (i : Fin 32) (v : Word) {b : Nat} (h : i = 1 → b < v.toNat ∨ (s.th.regs.x 1).toNat ≤ b) :
    (s.writeGpr i v).byteAt b = s.byteAt b := by
  by_cases e : i = 1
  · subst e; exact State.putSp_outside s v (h rfl)
  · exact State.byteAt_congr (State.writeGpr_mem_of_ne s v e) (State.writeGpr_memGen s i v) (State.writeGpr_params s i v) b

/-! ## Bytes listed again -/

theorem State.pin_wf (s : State) {m : List Host.Cell} (as : List Nat) (hm : Memory.wf m) (ha : ∀ a ∈ as, a < addressSpace) :
    Memory.wf (s.pin m as) := by
  induction as with
  | nil => exact hm
  | cons a as ih =>
    have h := ih fun b hb => ha b (List.mem_cons_of_mem _ hb)
    simp only [State.pin]
    split
    · exact h
    · exact Memory.wf_put _ h (ha a List.mem_cons_self)

theorem State.pin_outside (s : State) (m : List Host.Cell) (as : List Nat) {b : Nat} (hb : b ∉ as) : Memory.get (s.pin m as) b = Memory.get m b := by
  induction as with
  | nil => rfl
  | cons a as ih =>
    have h := ih fun h => hb (List.mem_cons_of_mem _ h)
    simp only [State.pin]
    split
    · exact h
    · rw [Memory.get_put_ne _ _ (fun e => hb (by rw [e]; exact List.mem_cons_self)), h]

theorem State.pin_code (s : State) (m : List Host.Cell) (as : List Nat) {b : Nat} (hb : holdsCode s.params b = true) :
    Memory.get (s.pin m as) b = Memory.get m b := by
  induction as with
  | nil => rfl
  | cons a as ih =>
    simp only [State.pin]
    split
    · exact ih
    · next hc => rw [Memory.get_put_ne _ _ (fun e => hc (by rw [← e]; exact hb)), ih]

theorem State.pin_inside (s : State) (m : List Host.Cell) (as : List Nat) {b : Nat} (hb : b ∈ as) (hc : holdsCode s.params b = false) :
    Memory.get (s.pin m as) b = some (s.byteAt b) := by
  induction as with
  | nil => exact absurd hb List.not_mem_nil
  | cons a as ih =>
    simp only [State.pin]
    by_cases e : b = a
    · subst e
      rw [if_neg (by simp [hc]), Memory.get_put_same]
    · have h := ih ((List.mem_cons.mp hb).resolve_left e)
      split
      · exact h
      · rw [Memory.get_put_ne _ _ e, h]

end Sys2Proof.Machine
end

