-- ==== Sys2Proof/Laws/Linkage.lean ====
section
/-! SUPPORT. What the linkage operations can do: one lemma per operation, which says everything a later proof needs of it. -/

namespace Sys2Proof.Machine

/-! ## Marks -/

@[simp] theorem failing_eq_nil {α : Type} {ok : Bool} {r : α} : failing ok r = [] ↔ ok = true := by
  cases ok <;> simp [failing]

theorem mem_failing {α : Type} {ok : Bool} {r q : α} : q ∈ failing ok r ↔ ok = false ∧ q = r := by
  cases ok <;> simp [failing]

/-- Marks put in front change the list exactly when there are some. -/
theorem marks_eq_self {α : Type} {xs ys : List α} : xs ++ ys = ys ↔ xs = [] :=
  ⟨fun h => by simpa using congrArg List.length h, fun h => by simp [h]⟩

theorem quadAligned_iff {v : Word} : quadAligned v = true ↔ v.toNat % 16 = 0 := by simp [quadAligned, quadwordBytes]

theorem Thread.spNotRaised_iff {t : Thread} {v : Word} :
    t.spNotRaised v = true ↔ ∀ a, t.activations.head? = some a → v.toNat ≤ (a.entry.x 1).toNat := by
  unfold Thread.spNotRaised Thread.entrySp
  cases t.activations.head? <;> simp

/-- R75, R76, R79: what an unmarked write of r1 has met. -/
theorem Thread.jumpBreaches_eq_nil {t : Thread} {v : Word} :
    t.jumpBreaches v = [] ↔ v.toNat % 16 = 0 ∧ t.spNotRaised v = true ∧ v ∈ t.frames := by
  simp [Thread.jumpBreaches, quadAligned_iff]

/-- R76, R77, R79, D26: what an unmarked allocation has met. -/
theorem Thread.allocBreaches_eq_nil {t : Thread} {p : Params} {v : Word} :
    t.allocBreaches p v = [] ↔
      v.toNat % 16 = 0 ∧ v.toNat < (t.regs.x 1).toNat ∧ t.spNotRaised v = true ∧ frameInStack p v (t.regs.x 1) = true := by
  simp [Thread.allocBreaches, quadAligned_iff]

/-- D26: every byte of a frame in the stack region is allocated and holds no code. -/
theorem frameInStack_byte {p : Params} {v top : Word} (h : frameInStack p v top = true) {a : Nat} (h1 : v.toNat ≤ a) (h2 : a < top.toNat) :
    allocated p a = true ∧ holdsCode p a = false := by
  simp only [frameInStack, inStackRegion, regionHolds, regionMisses, Bool.and_eq_true, Bool.or_eq_true, List.any_eq_true, List.all_eq_true, decide_eq_true_eq, beq_iff_eq] at h
  obtain ⟨r, hr, ⟨-, hb, ht⟩, hall⟩ := h
  constructor
  · simp only [allocated, inRegions, List.any_eq_true, Bool.and_eq_true, decide_eq_true_eq]
    exact ⟨r, hr, by simp; omega, by omega⟩
  · rw [← Bool.not_eq_true]
    simp only [holdsCode, inRegions, List.any_eq_true, Bool.and_eq_true, decide_eq_true_eq, beq_iff_eq]
    rintro ⟨q, hq, ⟨hk, g1⟩, g2⟩
    rcases hall q hq with e | e
    · rw [hk] at e; exact absurd e (by decide)
    · omega

/-! ## Frames -/

/-- R75: after an unmarked move of r1 to a frame, that frame is the lowest one. -/
theorem framesFrom_head {fs : List Word} {v : Word} (h : v ∈ fs) : (framesFrom fs v).head? = some v := by
  have hc : fs.contains v = true := by simpa using h
  simp only [framesFrom, hc, if_true]
  induction fs with
  | nil => simp at h
  | cons f fs ih =>
    by_cases hf : f = v
    · subst hf; simp
    · have hm : v ∈ fs := by
        rcases List.mem_cons.mp h with h | h
        · exact absurd h.symm hf
        · exact h
      simp only [List.dropWhile_cons, bne_iff_ne, ne_eq, hf, not_false_eq_true, if_true]
      exact ih hm (by simpa using hm)

theorem framesFrom_sublist (fs : List Word) (v : Word) : (framesFrom fs v).Sublist fs := by
  unfold framesFrom
  split
  · exact List.dropWhile_sublist _
  · exact List.Sublist.refl _

/-- The frames left are the older ones. -/
theorem framesFrom_suffix (fs : List Word) (v : Word) : ∃ newer, fs = newer ++ framesFrom fs v := by
  unfold framesFrom
  split
  · exact ⟨fs.takeWhile fun f => f != v, (List.takeWhile_append_dropWhile).symm⟩
  · exact ⟨[], rfl⟩

theorem framesFrom_of_head {fs : List Word} {v : Word} (h : fs.head? = some v) : framesFrom fs v = fs := by
  cases fs with
  | nil => simp at h
  | cons f fs =>
    have : f = v := by simpa using h
    subst this
    simp [framesFrom]

/-! ## The back chain (R78) -/

/-- The frames that have an older one, each with the one before it, are those the chain asks about. -/
theorem chainHolds_iff (s : State) (fs : List Word) :
    chainHolds s fs = true ↔ ∀ older lowest before newer, fs = newer ++ lowest :: before :: older → s.contentWord lowest = before := by
  induction fs with
  | nil => simp [chainHolds]
  | cons f fs ih =>
    cases fs with
    | nil =>
      simp only [chainHolds, true_iff]
      intro older lowest before newer h
      have := congrArg List.length h
      simp at this
      omega
    | cons g gs =>
      simp only [chainHolds, Bool.and_eq_true, beq_iff_eq, ih]
      constructor
      · rintro ⟨hf, ht⟩ older lowest before newer h
        cases newer with
        | nil =>
          simp only [List.nil_append, List.cons.injEq] at h
          obtain ⟨rfl, rfl, -⟩ := h
          exact hf
        | cons n ns =>
          simp only [List.cons_append, List.cons.injEq] at h
          exact ht older lowest before ns h.2
      · intro h
        exact ⟨h gs f g [] rfl, fun older lowest before newer e => h older lowest before (f :: newer) (by rw [e]; rfl)⟩

theorem backChainsOk_iff (s : State) : backChainsOk s = true ↔ BackChainsHold s := by
  unfold backChainsOk BackChainsHold
  rw [← chainHolds_iff]
  cases s.params.backchainsMaintained <;> simp

/-- The whole chain holds, so the newest link does. -/
theorem BackChainsHold.newest {s : State} (h : BackChainsHold s) : BackChainHolds s :=
  fun hm lowest before rest hf => h hm rest lowest before [] hf

/-- R78: an unmarked step that stored somewhere has left the chain whole. -/
theorem State.checkChain_unmarked {s : State} (h : Unmarked s.checkChain) : BackChainsHold s.checkChain := by
  simp only [Unmarked, State.checkChain_breaches, List.append_eq_nil_iff, List.map_eq_nil_iff, failing_eq_nil, backChainsOk_iff] at h
  exact h.1

/-- The chain asks for the frames, the parameters and the chain's own words. -/
theorem BackChainsHold.congr {s t : State} (h : BackChainsHold s) (hp : t.params = s.params) {newer : List Word} (hf : s.th.frames = newer ++ t.th.frames)
    (hw : ∀ f ∈ t.th.frames.dropLast, t.contentWord f = s.contentWord f) : BackChainsHold t := by
  intro hm older lowest before nw e
  rw [hw lowest]
  · exact h (hp ▸ hm) older lowest before (newer ++ nw) (by rw [hf, e, List.append_assoc])
  · rw [e, List.dropLast_append_of_ne_nil (by simp)]
    simp

/-! ## Allocation -/

theorem lowerSp_regs (s : State) (size : Word) : (lowerSp s size).th.regs = s.th.regs.setX 1 (s.th.regs.x 1 - size) := rfl
@[simp] theorem lowerSp_params (s : State) (size : Word) : (lowerSp s size).params = s.params := rfl
@[simp] theorem lowerSp_parked (s : State) (size : Word) : (lowerSp s size).parked = s.parked := rfl
@[simp] theorem lowerSp_mem (s : State) (size : Word) : (lowerSp s size).mem = (s.putSp (s.th.regs.x 1 - size)).mem := rfl
@[simp] theorem lowerSp_memGen (s : State) (size : Word) : (lowerSp s size).memGen = s.memGen := rfl
@[simp] theorem lowerSp_draws (s : State) (size : Word) : (lowerSp s size).draws = s.draws + s.exposed (s.th.regs.x 1 - size) := rfl
@[simp] theorem lowerSp_baseState (s : State) (size : Word) : (lowerSp s size).baseState = s.baseState := rfl
@[simp] theorem lowerSp_activations (s : State) (size : Word) : (lowerSp s size).th.activations = s.th.activations := rfl
@[simp] theorem lowerSp_exits (s : State) (size : Word) : (lowerSp s size).th.exits = s.th.exits := rfl
@[simp] theorem lowerSp_reloadOwed (s : State) (size : Word) : (lowerSp s size).th.reloadOwed = s.th.reloadOwed := rfl
@[simp] theorem lowerSp_threadPtr (s : State) (size : Word) : (lowerSp s size).th.threadPtr = s.th.threadPtr := rfl
theorem lowerSp_breaches (s : State) (size : Word) :
    (lowerSp s size).th.breaches = (s.th.allocBreaches s.params (s.th.regs.x 1 - size)).map Breach.abiViolation ++ s.th.breaches := rfl
theorem lowerSp_frames (s : State) (size : Word) :
    (lowerSp s size).th.frames =
      if s.th.allocBreaches s.params (s.th.regs.x 1 - size) = [] then (s.th.regs.x 1 - size) :: s.th.frames else s.th.frames := rfl

theorem lowerSp_wf (s : State) (size : Word) (h : Memory.wf s.mem) : Memory.wf (lowerSp s size).mem := State.putSp_wf s _ h

theorem lowerSp_byteAt (s : State) (size : Word) (b : Nat) : (lowerSp s size).byteAt b = (s.putSp (s.th.regs.x 1 - size)).byteAt b :=
  State.byteAt_congr rfl rfl rfl b

/-- Bytes outside the frame are left alone. -/
theorem lowerSp_outside (s : State) (size : Word) (b : Nat) (h : ∀ i < size.toNat, byteAddr (s.th.regs.x 1 - size) i ≠ b) :
    (lowerSp s size).byteAt b = s.byteAt b := by
  rw [lowerSp_byteAt]
  refine State.putSp_outside s _ ?_
  by_contra hb
  have hx := (s.th.regs.x 1).isLt
  have hz := size.isLt
  refine h (b - (s.th.regs.x 1 - size).toNat) ?_ ?_
  · simp only [BitVec.toNat_sub] at *; omega
  · simp only [byteAddr, BitVec.toNat_add, BitVec.toNat_ofNat]; omega

/-- Its own bytes are draws (R113). -/
theorem lowerSp_inside (s : State) {size : Word} {i : Nat} (hs : size.toNat ≤ (s.th.regs.x 1).toNat) (hi : i < size.toNat)
    (hc : holdsCode s.params (byteAddr (s.th.regs.x 1 - size) i) = false) :
    (lowerSp s size).byteAt (byteAddr (s.th.regs.x 1 - size) i) = Config.drawByte (s.draws + i) := by
  have hx := (s.th.regs.x 1).isLt
  have e : (s.th.regs.x 1 - size).toNat = (s.th.regs.x 1).toNat - size.toNat := by rw [BitVec.toNat_sub]; omega
  have ha : byteAddr (s.th.regs.x 1 - size) i = (s.th.regs.x 1 - size).toNat + i := by
    simp only [byteAddr, BitVec.toNat_add, BitVec.toNat_ofNat]; omega
  rw [lowerSp_byteAt, State.putSp_inside s _ (by omega) (by omega) hc, ha, Nat.add_sub_cancel_left]

/-- Program text is left alone, even where the frame meets it (R31). -/
theorem lowerSp_code (s : State) (size : Word) {b : Nat} (h : holdsCode s.params b = true) :
    Memory.get (lowerSp s size).mem b = Memory.get s.mem b := State.putSp_code s _ h

/-- Everything an allocation can do: nothing if the size is 0, else r1 is lowered and, where back chains are maintained, the back chain is stored. -/
theorem allocFrame_ok {s t : State} {size : Word} (h : allocFrame size s = .ok t) :
    (size = 0 ∧ t = s) ∨
    (size ≠ 0 ∧ s.params.backchainsMaintained = false ∧ t = lowerSp s size) ∨
    (size ≠ 0 ∧ s.params.backchainsMaintained = true ∧
      t = (lowerSp s size).storeValue (s.th.regs.x 1 - size) 8 (s.th.regs.x 1).toNat) := by
  unfold allocFrame at h
  split at h
  · next h0 => injection h with h; exact .inl ⟨h0, h.symm⟩
  · next h0 =>
    split at h
    · next hb => exact .inr (.inr ⟨h0, hb, (State.writeSlot_ok h).1⟩)
    · next hb => injection h with h; exact .inr (.inl ⟨h0, by simpa using hb, h.symm⟩)

/-! ## Saving and reloading r2 -/

theorem saveToc_ok {s t : State} (h : saveToc s = .ok t) :
    t = (s.storeValue (tocSlot s.params s.th.regs) 8 (s.th.regs.x 2).toNat).checkChain ∧ (tocSlot s.params s.th.regs).toNat % 8 = 0 := by
  unfold saveToc at h
  cases hw : s.writeSlot (tocSlot s.params s.regs) (s.x 2) with
  | error e => rw [hw] at h; exact absurd h (by simp [Except.map])
  | ok u =>
    rw [hw] at h
    injection h with h
    obtain ⟨rfl, h8⟩ := State.writeSlot_ok hw
    exact ⟨h.symm, h8⟩

theorem saveToc_code {s t : State} {b : Nat} (h : saveToc s = .ok t) (hb : holdsCode s.params b = true) :
    Memory.get t.mem b = Memory.get s.mem b := by
  unfold saveToc at h
  cases hw : s.writeSlot (tocSlot s.params s.regs) (s.x 2) with
  | error e => rw [hw] at h; exact absurd h (by simp [Except.map])
  | ok u =>
    rw [hw] at h
    injection h with h
    rw [← h]
    show Memory.get u.mem b = _
    exact State.writeSlot_code hw hb

theorem reloadToc_ok {s t : State} (h : reloadToc s = .ok t) :
    t = ((s.drawn 8).setRegs (s.th.regs.setX 2 (s.readValue (tocSlot s.params s.th.regs) 8))).setReloadOwed false := by
  unfold reloadToc at h
  cases hr : s.readSlot (tocSlot s.params s.regs) with
  | error e => rw [hr] at h; exact absurd h (by simp [Except.map])
  | ok r =>
    rw [hr] at h
    injection h with h
    obtain ⟨rfl, -⟩ := State.readSlot_ok hr
    rw [← h]
    exact congrArg (State.setReloadOwed · false) (State.writeGpr_plain _ _ (by decide) (by decide))

/-! ## Call and Return -/

theorem entryRegs_x {c : CallSite} {r : Regs} {d0 d11 d12 : Word} {i : Fin 32} (h0 : i ≠ 0) (h11 : i ≠ 11) (h12 : i ≠ 12) :
    (entryRegs c r d0 d11 d12).x i = r.x i := by
  unfold entryRegs
  cases c.kind
  · show ((r.setX 0 d0).setX 11 (c.env.getD d11)).x i = _
    rw [Regs.x_setX_ne _ _ (Ne.symm h11), Regs.x_setX_ne _ _ (Ne.symm h0)]
  · show (((r.setX 0 d0).setX 11 (c.env.getD d11)).setX 12 d12).x i = _
    rw [Regs.x_setX_ne _ _ (Ne.symm h12), Regs.x_setX_ne _ _ (Ne.symm h11), Regs.x_setX_ne _ _ (Ne.symm h0)]

theorem entryRegs_x0 {c : CallSite} {r : Regs} {d0 d11 d12 : Word} : (entryRegs c r d0 d11 d12).x 0 = d0 := by
  unfold entryRegs
  cases c.kind
  · show ((r.setX 0 d0).setX 11 (c.env.getD d11)).x 0 = _
    rw [Regs.x_setX_ne _ _ (by decide), Regs.x_setX_same]
  · show (((r.setX 0 d0).setX 11 (c.env.getD d11)).setX 12 d12).x 0 = _
    rw [Regs.x_setX_ne _ _ (by decide), Regs.x_setX_ne _ _ (by decide), Regs.x_setX_same]

theorem entryRegs_x11 {c : CallSite} {r : Regs} {d0 d11 d12 : Word} : (entryRegs c r d0 d11 d12).x 11 = c.env.getD d11 := by
  unfold entryRegs
  cases c.kind
  · show ((r.setX 0 d0).setX 11 (c.env.getD d11)).x 11 = _
    rw [Regs.x_setX_same]
  · show (((r.setX 0 d0).setX 11 (c.env.getD d11)).setX 12 d12).x 11 = _
    rw [Regs.x_setX_ne _ _ (by decide), Regs.x_setX_same]

theorem entryRegs_x12_global {c : CallSite} {r : Regs} {d0 d11 d12 : Word} (h : c.kind = .globalEntry) :
    (entryRegs c r d0 d11 d12).x 12 = r.x 12 := by
  unfold entryRegs
  rw [h]
  show ((r.setX 0 d0).setX 11 (c.env.getD d11)).x 12 = _
  rw [Regs.x_setX_ne _ _ (by decide), Regs.x_setX_ne _ _ (by decide)]

theorem entryRegs_x12_nonglobal {c : CallSite} {r : Regs} {d0 d11 d12 : Word} (h : c.kind = .nonglobalEntry) :
    (entryRegs c r d0 d11 d12).x 12 = d12 := by
  unfold entryRegs
  rw [h]
  show (((r.setX 0 d0).setX 11 (c.env.getD d11)).setX 12 d12).x 12 = _
  rw [Regs.x_setX_same]

/-- What a Call leaves of every register but the general ones, LR and pc. -/
theorem entryRegs_rest (c : CallSite) (r : Regs) (d0 d11 d12 : Word) :
    entryRegs c r d0 d11 d12 = { r with gpr := (entryRegs c r d0 d11 d12).gpr, lr := c.ret, pc := c.target } := by
  unfold entryRegs
  cases c.kind <;> rfl

theorem entryRegs_lr (c : CallSite) (r : Regs) (d0 d11 d12 : Word) : (entryRegs c r d0 d11 d12).lr = c.ret := by
  rw [entryRegs_rest]
theorem entryRegs_pc (c : CallSite) (r : Regs) (d0 d11 d12 : Word) : (entryRegs c r d0 d11 d12).pc = c.target := by
  rw [entryRegs_rest]
theorem entryRegs_cr (c : CallSite) (r : Regs) (d0 d11 d12 : Word) : (entryRegs c r d0 d11 d12).cr = r.cr := by
  rw [entryRegs_rest]
theorem entryRegs_vsr (c : CallSite) (r : Regs) (d0 d11 d12 : Word) : (entryRegs c r d0 d11 d12).vsr = r.vsr := by
  rw [entryRegs_rest]

theorem leavesModule_iff {p : Params} {kind : EntryKind} {g f : Nat} :
    leavesModule p kind g f = true ↔ kind = .globalEntry ∧ p.mayLeaveModule g f = true := by simp [leavesModule]

/-- R45: a Call whose requirements all hold. -/
theorem callBreaches_eq_nil {c : CallSite} {s : State} :
    callBreaches c s = [] ↔
      (s.th.regs.x 1).toNat % 16 = 0 ∧ tocLegal s.params c.caller (s.th.regs.x 2) = true ∧
      (c.kind = .globalEntry → s.params.mayLeaveModule c.caller c.callee = true → tocSaved s = true) ∧
      (c.kind = .globalEntry → s.th.regs.x 12 = c.target) := by
  unfold callBreaches leavesModule
  simp only [List.append_eq_nil_iff, failing_eq_nil, State.x_eq, quadAligned_iff, and_assoc]
  refine and_congr_right' (and_congr_right' (and_congr ?_ ?_))
  · cases c.kind <;> cases s.params.mayLeaveModule c.caller c.callee <;> simp
  · cases c.kind <;> simp

/-- R64, R44: and a caller that has done its own part. -/
theorem callerBreaches_eq_nil {s : State} :
    callerBreaches s = [] ↔
      s.th.reloadOwed = false ∧ ∀ a, s.th.activations.head? = some a → limitedKept s.params a.callee a.entry s.th.regs = true := by
  unfold callerBreaches
  simp only [List.append_eq_nil_iff, failing_eq_nil, State.regs_eq, Bool.not_eq_true']
  refine and_congr_right' ?_
  cases s.th.activations <;> simp

/-- An unmarked Call has met both. -/
theorem callMarks_eq_nil {c : CallSite} {s : State} : callMarks c s = [] ↔ callBreaches c s = [] ∧ callerBreaches s = [] := by
  simp [callMarks]

/-! ## Fields after the events -/

@[simp] theorem performCall_parked (c : CallSite) (s : State) : (performCall c s).parked = s.parked := rfl
@[simp] theorem performCall_params (c : CallSite) (s : State) : (performCall c s).params = s.params := rfl
@[simp] theorem performCall_frames (c : CallSite) (s : State) : (performCall c s).th.frames = s.th.frames := rfl
@[simp] theorem performCall_threadPtr (c : CallSite) (s : State) : (performCall c s).th.threadPtr = s.th.threadPtr := rfl
@[simp] theorem performCall_mem (c : CallSite) (s : State) : (performCall c s).mem = s.mem := rfl
@[simp] theorem performCall_memGen (c : CallSite) (s : State) : (performCall c s).memGen = s.memGen := rfl
@[simp] theorem performCall_baseState (c : CallSite) (s : State) : (performCall c s).baseState = s.baseState := rfl
@[simp] theorem performCall_exits (c : CallSite) (s : State) : (performCall c s).th.exits = s.th.exits := rfl
@[simp] theorem performCall_breaches (c : CallSite) (s : State) : (performCall c s).th.breaches = callMarks c s ++ s.th.breaches := rfl
@[simp] theorem performCall_reloadOwed (c : CallSite) (s : State) : (performCall c s).th.reloadOwed = false := rfl
@[simp] theorem performCall_regs (c : CallSite) (s : State) : (performCall c s).th.regs = entryRegs c s.th.regs (Config.drawWord (s.draws + 8)) (Config.drawWord (s.draws + 9)) (Config.drawWord (s.draws + 10)) := rfl
@[simp] theorem performCall_activations (c : CallSite) (s : State) : (performCall c s).th.activations = { caller := c.caller, callee := c.callee, kind := c.kind, ret := c.ret, env := c.env, pre := s.th.regs, entry := entryRegs c s.th.regs (Config.drawWord (s.draws + 8)) (Config.drawWord (s.draws + 9)) (Config.drawWord (s.draws + 10)), entryMem := s.mem, entryMemGen := s.memGen, entryBase := s.baseState, marksAtEntry := (performCall c s).th.breaches.length } :: s.th.activations := rfl
@[simp] theorem performCallOpaque_parked (c : CallSite) (s : State) : (performCallOpaque c s).parked = s.parked := by simp [performCallOpaque]
@[simp] theorem performCallOpaque_params (c : CallSite) (s : State) : (performCallOpaque c s).params = s.params := by simp [performCallOpaque]
@[simp] theorem performCallOpaque_frames (c : CallSite) (s : State) : (performCallOpaque c s).th.frames = s.th.frames := by simp [performCallOpaque]
@[simp] theorem performCallOpaque_threadPtr (c : CallSite) (s : State) : (performCallOpaque c s).th.threadPtr = s.th.threadPtr := by simp [performCallOpaque]
@[simp] theorem performCallOpaque_mem (c : CallSite) (s : State) : (performCallOpaque c s).mem = s.pin (s.mem.filter fun cell => holdsCode s.params cell.1) (chainBytes s) := by simp [performCallOpaque]
@[simp] theorem performCallOpaque_memGen (c : CallSite) (s : State) : (performCallOpaque c s).memGen = s.memGen + 1 := by simp [performCallOpaque]
@[simp] theorem performCallOpaque_baseState (c : CallSite) (s : State) : (performCallOpaque c s).baseState = ⟨Config.drawNats (s.draws + 184), Config.drawNats (s.draws + 185)⟩ := rfl
@[simp] theorem performCallOpaque_exits (c : CallSite) (s : State) : (performCallOpaque c s).th.exits = s.th.exits := by simp [performCallOpaque]
@[simp] theorem performCallOpaque_activations (c : CallSite) (s : State) : (performCallOpaque c s).th.activations = s.th.activations := by simp [performCallOpaque]
@[simp] theorem performCallOpaque_breaches (c : CallSite) (s : State) : (performCallOpaque c s).th.breaches = callMarks c s ++ s.th.breaches := by simp [performCallOpaque]
@[simp] theorem performCallOpaque_reloadOwed (c : CallSite) (s : State) : (performCallOpaque c s).th.reloadOwed = leavesModule s.params c.kind c.caller c.callee := rfl
@[simp] theorem performCallOpaque_regs (c : CallSite) (s : State) : (performCallOpaque c s).th.regs = regsAfterCall s.params c s.th.regs (s.draws + 8) := by simp [performCallOpaque]
@[simp] theorem leaveFunction_parked (a : Activation) (rest : List Activation) (s : State) : (leaveFunction a rest s).parked = s.parked := rfl
@[simp] theorem leaveFunction_params (a : Activation) (rest : List Activation) (s : State) : (leaveFunction a rest s).params = s.params := rfl
@[simp] theorem leaveFunction_frames (a : Activation) (rest : List Activation) (s : State) : (leaveFunction a rest s).th.frames = s.th.frames := rfl
@[simp] theorem leaveFunction_threadPtr (a : Activation) (rest : List Activation) (s : State) : (leaveFunction a rest s).th.threadPtr = s.th.threadPtr := rfl
@[simp] theorem leaveFunction_mem (a : Activation) (rest : List Activation) (s : State) : (leaveFunction a rest s).mem = s.mem := rfl
@[simp] theorem leaveFunction_memGen (a : Activation) (rest : List Activation) (s : State) : (leaveFunction a rest s).memGen = s.memGen := rfl
@[simp] theorem leaveFunction_baseState (a : Activation) (rest : List Activation) (s : State) : (leaveFunction a rest s).baseState = s.baseState := rfl
@[simp] theorem leaveFunction_draws (a : Activation) (rest : List Activation) (s : State) : (leaveFunction a rest s).draws = s.draws := rfl
@[simp] theorem leaveFunction_exits (a : Activation) (rest : List Activation) (s : State) : (leaveFunction a rest s).th.exits = ⟨a, { s.th.regs with pc := a.entry.lr }, s.mem, s.memGen, s.baseState⟩ :: s.th.exits := rfl
@[simp] theorem leaveFunction_activations (a : Activation) (rest : List Activation) (s : State) : (leaveFunction a rest s).th.activations = rest := rfl
@[simp] theorem leaveFunction_breaches (a : Activation) (rest : List Activation) (s : State) : (leaveFunction a rest s).th.breaches = s.th.breaches := rfl
@[simp] theorem leaveFunction_reloadOwed (a : Activation) (rest : List Activation) (s : State) : (leaveFunction a rest s).th.reloadOwed = leavesModule s.params a.kind a.caller a.callee := rfl
@[simp] theorem leaveFunction_regs (a : Activation) (rest : List Activation) (s : State) : (leaveFunction a rest s).th.regs = { s.th.regs with pc := a.entry.lr } := rfl

/-- Everything system software's setting up of a thread can do. -/
theorem bootThread_some {stack : Region} {sp tp : Word} {s t : State} : bootThread stack sp tp s = some t ↔
    firstFrameOk s.params stack sp = true ∧ t = { s with th := { s.th with regs := (s.th.regs.setX 1 sp).setX 13 tp, threadPtr := tp, frames := [sp] } } := by
  unfold bootThread
  split
  · next h => simp [h, eq_comm]
  · next h => simp [h]

/-- What a list that holds cells on some addresses only lists. -/
theorem Memory.get_filter (f : Nat → Bool) (m : List Host.Cell) (b : Nat) :
    Memory.get (m.filter fun c => f c.1) b = if f b = true then Memory.get m b else none := by
  induction m with
  | nil => simp [Memory.get]
  | cons c m ih =>
    by_cases hc : f c.1 = true
    · rw [List.filter_cons_of_pos (by simpa using hc)]
      simp only [Memory.get, ih]
      by_cases hb : b = c.1
      · subst hb; simp [hc]
      · simp [hb]
    · rw [List.filter_cons_of_neg (by simpa using hc), ih]
      simp only [Memory.get]
      by_cases hb : b = c.1
      · subst hb; simp [hc]
      · simp [hb]

/-- R31: a call whose callee is not in the program leaves program text. -/
theorem performCallOpaque_code (c : CallSite) (s : State) {b : Nat} (hb : holdsCode s.params b = true) :
    Memory.get (performCallOpaque c s).mem b = Memory.get s.mem b := by
  rw [performCallOpaque_mem, State.pin_code _ _ _ hb, Memory.get_filter]
  simp [hb]

/-- R78: and the back chain. -/
theorem performCallOpaque_chain (c : CallSite) (s : State) {b : Nat} (hb : b ∈ chainBytes s) : (performCallOpaque c s).byteAt b = s.byteAt b := by
  by_cases hc : holdsCode s.params b = true
  · exact State.byteAt_code (performCallOpaque_code c s hc) (performCallOpaque_params c s) hc
  · unfold State.byteAt
    rw [performCallOpaque_mem, State.pin_inside _ _ _ hb (by simpa using hc)]
    rfl

/-- R81, 91 N13: every other byte is arbitrary. -/
theorem performCallOpaque_free (c : CallSite) (s : State) {b : Nat} (hc : holdsCode s.params b = false) (hb : b ∉ chainBytes s) :
    (performCallOpaque c s).byteAt b = Config.arbitraryByte (s.memGen + 1) b := by
  simp only [State.byteAt, State.genAt, performCallOpaque_mem, performCallOpaque_params, performCallOpaque_memGen, State.pin_outside _ _ _ hb,
    Memory.get_filter, hc]
  simp

/-- R81: a general register the callee must preserve is kept. -/
theorem regsAfterCall_x_kept (p : Params) (c : CallSite) (r : Regs) (k : Nat) {i : Fin 32}
    (h : preservedAcross (p.sameModule c.caller c.callee) (.gpr i) = true) : (regsAfterCall p c r k).x i = r.x i := by
  simp [regsAfterCall, Regs.x, h]

/-- R41: any other general register is a draw. -/
theorem regsAfterCall_x_free (p : Params) (c : CallSite) (r : Regs) (k : Nat) {i : Fin 32}
    (h : preservedAcross (p.sameModule c.caller c.callee) (.gpr i) = false) :
    (regsAfterCall p c r k).x i = Config.drawWord (k + i.val) := by
  simp [regsAfterCall, Regs.x, h]

/-- Everything Return can do. -/
theorem performReturn_ok {f : Nat} {s t : State} (h : performReturn f s = .ok t) :
    ∃ a rest, s.th.activations = a :: rest ∧ a.callee = f ∧
      t = leaveFunction a rest (s.markAbi (returnBreaches a s)) := by
  unfold performReturn at h
  split at h
  · exact absurd h (by simp)
  · next a rest ha =>
    split at h
    · next hf => injection h with h; exact ⟨a, rest, ha, hf, h.symm⟩
    · exact absurd h (by simp)

theorem performReturn_running {s : State} {a : Activation} {rest : List Activation} (h : s.th.activations = a :: rest) :
    performReturn a.callee s = .ok (leaveFunction a rest (s.markAbi (returnBreaches a s))) := by
  unfold performReturn
  rw [h]
  simp

/-! ## Actions: what each can answer -/

theorem andThen_next {r : Except Refusal State} {k : State → Result} {t : State} (h : andThen r k = .next t) :
    ∃ u, r = .ok u ∧ k u = .next t := by
  cases r with
  | ok u => exact ⟨u, rfl, h⟩
  | error e => exact absurd h (by simp [andThen])

/-- Everything an action can do. -/
theorem perform_next {act : Action} {s t : State} (h : perform act s = .next t) :
    (∃ c, act = .call c ∧ t = performCall c s) ∨
    (∃ c, act = .callOpaque c ∧ t = performCallOpaque c s) ∨
    (∃ f, act = .ret f ∧ performReturn f s = .ok t) ∨
    (act = .saveToc ∧ ∃ u, saveToc s = .ok u ∧ t = u.advance) ∨
    (act = .reloadToc ∧ ∃ u, reloadToc s = .ok u ∧ t = u.advance) ∨
    (∃ size, act = .allocFrame size ∧ ∃ u, allocFrame size s = .ok u ∧ t = u.advance) ∨
    (∃ size, act = .freeFrame size ∧ t = (freeFrame size s).advance) := by
  cases act with
  | call c => injection h with h; exact .inl ⟨c, rfl, h.symm⟩
  | callOpaque c => injection h with h; exact .inr (.inl ⟨c, rfl, h.symm⟩)
  | ret f =>
    obtain ⟨u, hu, ht⟩ := andThen_next h
    injection ht with ht
    exact .inr (.inr (.inl ⟨f, rfl, ht ▸ hu⟩))
  | saveToc =>
    obtain ⟨u, hu, ht⟩ := andThen_next h
    injection ht with ht
    exact .inr (.inr (.inr (.inl ⟨rfl, u, hu, ht.symm⟩)))
  | reloadToc =>
    obtain ⟨u, hu, ht⟩ := andThen_next h
    injection ht with ht
    exact .inr (.inr (.inr (.inr (.inl ⟨rfl, u, hu, ht.symm⟩))))
  | allocFrame size =>
    obtain ⟨u, hu, ht⟩ := andThen_next h
    injection ht with ht
    exact .inr (.inr (.inr (.inr (.inr (.inl ⟨size, rfl, u, hu, ht.symm⟩)))))
  | freeFrame size => injection h with h; exact .inr (.inr (.inr (.inr (.inr (.inr ⟨size, rfl, h.symm⟩)))))

end Sys2Proof.Machine
end

