-- ==== Sys2Proof/Laws/BaseISA.lean ====
section
/-! SUPPORT. What an instruction of BaseISA can do (Machine/BaseISA.lean): one lemma per operation. -/

namespace Sys2Proof.Machine

theorem State.slotMisaligned_eq_true {s : State} {a : Word} {n : Nat} :
    s.slotMisaligned a n = true ↔ n = 8 ∧ (a = s.th.regs.x 1 ∨ a = tocSlot s.params s.th.regs) ∧ a.toNat % 8 ≠ 0 := by
  simp only [State.slotMisaligned, doublewordBytes, Bool.and_eq_true, Bool.or_eq_true, beq_iff_eq, bne_iff_ne, and_assoc, State.x_eq, State.regs_eq]

/-- Everything `baseRead` can do. -/
theorem baseRead_ok {s : State} {a : Word} {n : Nat} {r : BitVec (8 * n) × State} (h : baseRead s a n = .ok r) :
    s.slotMisaligned a n = false ∧ s.memRead a n = .ok r := by
  unfold baseRead at h
  split at h
  · exact absurd h (by simp)
  · next hs => exact ⟨by simpa using hs, h⟩

theorem baseWrite_ok {s t : State} {a : Word} {n v : Nat} (h : baseWrite s a n v = .ok t) :
    s.slotMisaligned a n = false ∧ s.memWrite a n v = .ok t := by
  unfold baseWrite at h
  split at h
  · exact absurd h (by simp)
  · next hs => exact ⟨by simpa using hs, h⟩

/-- What the reads `ls` find, one after the other, each with draws of its own. -/
def readsFound : List (Word × Nat) → State → List Nat
  | [], _ => []
  | l :: ls, s => (s.readValue l.1 l.2).toNat :: readsFound ls (s.drawn l.2)

theorem readsFound_append (ls ks : List (Word × Nat)) (s : State) :
    readsFound (ls ++ ks) s = readsFound ls s ++ readsFound ks (s.drawn (ls.map Prod.snd).sum) := by
  induction ls generalizing s with
  | nil => rfl
  | cons l ls ih =>
    simp only [List.cons_append, readsFound, ih, List.map_cons, List.sum_cons]
    simp only [State.drawn, Nat.add_assoc]

theorem readsFound_length (ls : List (Word × Nat)) (s : State) : (readsFound ls s).length = ls.length := by
  induction ls generalizing s with
  | nil => rfl
  | cons l ls ih => simp only [readsFound, List.length_cons, ih]

/-- Everything reads can do: what they find, the draws are used up, and none is a misaligned one of R27's (R28). -/
theorem memReads_ok {ls : List (Word × Nat)} {s : State} {q : List Nat × State} (h : memReads ls s = .ok q) :
    q = (readsFound ls s, s.drawn (ls.map Prod.snd).sum) ∧ ∀ l ∈ ls, s.slotMisaligned l.1 l.2 = false := by
  induction ls generalizing s q with
  | nil => injection h with h; exact ⟨h.symm, fun l hl => absurd hl List.not_mem_nil⟩
  | cons l ls ih =>
    unfold memReads at h
    cases hr : baseRead s l.1 l.2 with
    | error e => rw [hr] at h; exact absurd h (by simp)
    | ok r =>
      rw [hr] at h
      simp only at h
      cases hq : memReads ls r.2 with
      | error e => rw [hq] at h; exact absurd h (by simp)
      | ok q' =>
        rw [hq] at h
        injection h with h
        obtain ⟨hb, hr⟩ := baseRead_ok hr
        obtain ⟨rfl, -⟩ := State.memRead_ok hr
        obtain ⟨rfl, ha⟩ := ih hq
        refine ⟨?_, fun k hk => ?_⟩
        · rw [← h]
          simp only [readsFound, List.map_cons, List.sum_cons, State.drawn, Nat.add_assoc]
        · rcases List.mem_cons.mp hk with rfl | hk
          · exact hb
          · exact ha k hk

/-- Writes change bytes that are not program text, and nothing else. -/
structure OnlyStored (s t : State) : Prop where
  th : t.th = s.th
  parked : t.parked = s.parked
  params : t.params = s.params
  memGen : t.memGen = s.memGen
  baseShared : t.baseShared = s.baseShared
  wf : Memory.wf s.mem → Memory.wf t.mem
  code : ∀ b, holdsCode s.params b = true → Memory.get t.mem b = Memory.get s.mem b

theorem memWrites_ok {bs : List BaseStore} {s t : State} (h : memWrites bs s = .ok t) : OnlyStored s t := by
  induction bs generalizing s with
  | nil => injection h with h; subst h; exact ⟨rfl, rfl, rfl, rfl, rfl, id, fun _ _ => rfl⟩
  | cons b bs ih =>
    unfold memWrites at h
    cases hw : baseWrite s b.addr b.bytes b.value with
    | error e => rw [hw] at h; exact absurd h (by simp)
    | ok u =>
      rw [hw] at h
      have i := ih h
      have hw := (baseWrite_ok hw).2
      have hu := (State.memWrite_ok hw).1
      refine ⟨by rw [i.th, hu]; rfl, by rw [i.parked, hu]; rfl, by rw [i.params, hu]; rfl, by rw [i.memGen, hu]; rfl, by rw [i.baseShared, hu]; rfl, fun hm => i.wf ?_, fun a ha => ?_⟩
      · rw [hu]; exact Memory.wf_store _ _ hm
      · rw [i.code a (by rw [hu]; exact ha)]
        exact State.memWrite_code hw ha

/-- R28: none of several stores that are performed is a misaligned one of R27's. -/
theorem memWrites_aligned {bs : List BaseStore} {s t : State} (h : memWrites bs s = .ok t) : ∀ b ∈ bs, s.slotMisaligned b.addr b.bytes = false := by
  induction bs generalizing s with
  | nil => exact fun b hb => absurd hb List.not_mem_nil
  | cons b bs ih =>
    unfold memWrites at h
    cases hw : baseWrite s b.addr b.bytes b.value with
    | error e => rw [hw] at h; exact absurd h (by simp)
    | ok u =>
      rw [hw] at h
      obtain ⟨hb, hw⟩ := baseWrite_ok hw
      obtain ⟨rfl, -⟩ := State.memWrite_ok hw
      exact fun c hc => (List.mem_cons.mp hc).elim (fun e => e ▸ hb) (ih h c)

/-! ## Registers -/

theorem keptRegs_fpscr (p : Params) (ws : List ReservedRegister) (old new : Regs) : (keptRegs p ws old new).fpscr &&& ~~~fpscrMask p = 0#64 := by
  simp only [keptRegs]
  rw [BitVec.and_assoc]
  simp

/-- R43: r13 stays unless the instruction names it among what it writes. -/
theorem keptRegs_x13 (p : Params) {ws : List ReservedRegister} (old new : Regs) (h : ws.contains .r13 = false) : (keptRegs p ws old new).x 13 = old.x 13 := by
  simp only [keptRegs, h, Bool.false_eq_true, if_false]
  exact Regs.x_setX_same _ _ _

/-- The other general registers are those of the effect. -/
theorem keptRegs_x (p : Params) (ws : List ReservedRegister) (old new : Regs) {i : Fin 32} (h : i ≠ 13) : (keptRegs p ws old new).x i = new.x i := by
  simp only [keptRegs, Regs.x_withGpr]
  split
  · rfl
  · exact Regs.x_setX_ne _ _ (Ne.symm h)

theorem keptRegs_tar (p : Params) {ws : List ReservedRegister} (old new : Regs) (h : ws.contains .tar = false) : (keptRegs p ws old new).tar = old.tar := by
  simp only [keptRegs, h, Bool.false_eq_true, if_false]

theorem keptRegs_vrsave (p : Params) {ws : List ReservedRegister} (old new : Regs) (h : ws.contains .vrsave = false) : (keptRegs p ws old new).vrsave = old.vrsave := by
  simp only [keptRegs, h, Bool.false_eq_true, if_false]

theorem keptRegs_vsr (p : Params) (ws : List ReservedRegister) (old new : Regs) : (keptRegs p ws old new).vsr = new.vsr := by
  simp only [keptRegs]
  split <;> rfl

/-- TAR does not show through to an instruction that does not read it. -/
theorem seenRegs_hides_tar {rs : List ReservedRegister} (r : Regs) (d0 d1 v : Word) (h : rs.contains .tar = false) :
    seenRegs rs { r with tar := v } d0 d1 = seenRegs rs r d0 d1 := by
  simp only [seenRegs, h, Bool.false_eq_true, if_false]

/-- Nor does VRSAVE. -/
theorem seenRegs_hides_vrsave {rs : List ReservedRegister} (r : Regs) (d0 d1 : Word) (u : BitVec 32) (h : rs.contains .vrsave = false) :
    seenRegs rs { r with vrsave := u } d0 d1 = seenRegs rs r d0 d1 := by
  simp only [seenRegs, h, Bool.false_eq_true, if_false]

theorem drawRightHalves_vs (fs : List (Fin 32)) (k : Nat) (r : Regs) (i : Fin 64) : (drawRightHalves fs k r).vs i = rightHalfDrawn fs k r i := by
  show (Vector.ofFn (rightHalfDrawn fs k r))[i.val] = _
  rw [Vector.getElem_ofFn]

/-- R18, D23: the right half of a register written through the floating-point view is a draw. -/
theorem drawRightHalves_right {fs : List (Fin 32)} (k : Nat) (r : Regs) {n : Fin 32} (h : n ∈ fs) : (drawRightHalves fs k r).vsrRight n = Config.drawWord (k + n.val) := by
  have hn : fs.any (fun m => fprHome m == fprHome n) = true := List.any_eq_true.mpr ⟨n, h, beq_self_eq_true _⟩
  rw [Regs.vsrRight, drawRightHalves_vs, rightHalfDrawn, if_pos hn, extract_right]
  rfl

theorem drawRightHalves_x (fs : List (Fin 32)) (k : Nat) (r : Regs) (i : Fin 32) : (drawRightHalves fs k r).x i = r.x i := by
  simp only [drawRightHalves, Regs.x_withGpr]

/-- What was written is in the left halves, and every other register is as the instruction left it. -/
theorem drawRightHalves_f (fs : List (Fin 32)) (k : Nat) (r : Regs) (n : Fin 32) : (drawRightHalves fs k r).f n = r.f n := by
  rw [Regs.f, drawRightHalves_vs, rightHalfDrawn]
  split
  · exact extract_left _ _
  · rfl

@[simp] theorem drawRightHalves_nil (k : Nat) (r : Regs) : drawRightHalves [] k r = r := by
  have : Vector.ofFn (rightHalfDrawn [] k r) = r.vsr := by
    apply Vector.ext
    intro i hi
    rw [Vector.getElem_ofFn]
    rfl
  rw [drawRightHalves, this]

/-! ## The move of r1 -/

@[simp] theorem moveSp_parked (v : Word) (s : State) : (moveSp v s).parked = s.parked := by
  unfold moveSp; split
  · rfl
  · split
    · exact lowerSp_parked _ _
    · exact State.writeGpr_parked _ _ _
@[simp] theorem moveSp_params (v : Word) (s : State) : (moveSp v s).params = s.params := by
  unfold moveSp; split
  · rfl
  · split
    · exact lowerSp_params _ _
    · exact State.writeGpr_params _ _ _
@[simp] theorem moveSp_memGen (v : Word) (s : State) : (moveSp v s).memGen = s.memGen := by
  unfold moveSp; split
  · rfl
  · split
    · exact lowerSp_memGen _ _
    · exact State.writeGpr_memGen _ _ _
@[simp] theorem moveSp_baseState (v : Word) (s : State) : (moveSp v s).baseState = s.baseState := by
  unfold moveSp; split
  · rfl
  · split
    · exact lowerSp_baseState _ _
    · exact State.writeGpr_baseState _ _ _
@[simp] theorem moveSp_reloadOwed (v : Word) (s : State) : (moveSp v s).th.reloadOwed = s.th.reloadOwed := by
  unfold moveSp; split
  · rfl
  · split
    · exact lowerSp_reloadOwed _ _
    · exact State.writeGpr_reloadOwed _ _ _
@[simp] theorem moveSp_threadPtr (v : Word) (s : State) : (moveSp v s).th.threadPtr = s.th.threadPtr := by
  unfold moveSp; split
  · rfl
  · split
    · exact lowerSp_threadPtr _ _
    · exact State.writeGpr_threadPtr _ _ _
@[simp] theorem moveSp_activations (v : Word) (s : State) : (moveSp v s).th.activations = s.th.activations := by
  unfold moveSp; split
  · rfl
  · split
    · exact lowerSp_activations _ _
    · exact State.writeGpr_activations _ _ _

theorem moveSp_regs (v : Word) (s : State) : (moveSp v s).th.regs = s.th.regs.setX 1 v ∨ (v = s.th.regs.x 1 ∧ (moveSp v s).th.regs = s.th.regs) := by
  unfold moveSp; split
  · next h => exact .inr ⟨h, rfl⟩
  · split
    · left
      rw [lowerSp_regs]
      congr 1
      show s.th.regs.x 1 - (s.th.regs.x 1 - v) = v
      bv_omega
    · left; exact State.writeGpr_regs _ _ _

theorem moveSp_x (v : Word) (s : State) : (moveSp v s).x 1 = v := by
  rcases moveSp_regs v s with h | ⟨h, h'⟩
  · rw [State.x_eq, h, Regs.x_setX_same]
  · rw [State.x_eq, h', h]

theorem moveSp_breaches (v : Word) (s : State) : s.th.breaches <:+ (moveSp v s).th.breaches := by
  unfold moveSp; split
  · exact List.suffix_refl _
  · split
    · rw [lowerSp_breaches]; exact List.suffix_append _ _
    · exact State.writeGpr_breaches _ _ _

theorem moveSp_wf (v : Word) (s : State) (h : Memory.wf s.mem) : Memory.wf (moveSp v s).mem := by
  unfold moveSp; split
  · exact h
  · split
    · exact lowerSp_wf _ _ h
    · exact State.writeGpr_wf _ _ _ h

theorem moveSp_code (v : Word) (s : State) {b : Nat} (h : holdsCode s.params b = true) : Memory.get (moveSp v s).mem b = Memory.get s.mem b := by
  unfold moveSp; split
  · rfl
  · split
    · exact lowerSp_code _ _ h
    · exact State.writeGpr_code _ _ _ h

/-! ## Registers an operation of BaseISA does not look at -/

/-- `s` with the running thread's registers changed by `g`. -/
def State.mapRegs (g : Regs → Regs) (s : State) : State := s.setRegs (g s.th.regs)

/-- A change of registers other than the general ones. -/
structure SparesGprs (g : Regs → Regs) : Prop where
  gpr : ∀ r, (g r).gpr = r.gpr
  setX : ∀ r i v, g (r.setX i v) = (g r).setX i v

theorem SparesGprs.x {g : Regs → Regs} (hg : SparesGprs g) (r : Regs) (i : Fin 32) : (g r).x i = r.x i := by
  simp only [Regs.x, hg.gpr]

theorem sparesGprs_tar (v : Word) : SparesGprs fun r => { r with tar := v } := ⟨fun _ => rfl, fun _ _ _ => rfl⟩
theorem sparesGprs_vrsave (u : BitVec 32) : SparesGprs fun r => { r with vrsave := u } := ⟨fun _ => rfl, fun _ _ _ => rfl⟩

theorem State.readByte_mapRegs {g : Regs → Regs} (hg : SparesGprs g) (s : State) (a k : Nat) : (s.mapRegs g).readByte a k = s.readByte a k := by
  have : (s.mapRegs g).x 1 = s.x 1 := hg.x _ _
  simp only [State.readByte, State.shifting, this]
  rfl

theorem State.memRead_mapRegs {g : Regs → Regs} (hg : SparesGprs g) (s : State) (a : Word) (n : Nat) :
    (s.mapRegs g).memRead a n = (s.memRead a n).map fun r => (r.1, r.2.mapRegs g) := by
  have hv : (s.mapRegs g).readValue a n = s.readValue a n := by
    simp only [State.readValue, State.readByte_mapRegs hg]
    rfl
  unfold State.memRead
  rw [hv]
  show (if (accessAddrs a n).all (allocated s.params) = true then _ else _) = _
  split <;> rfl

theorem State.slotMisaligned_mapRegs {g : Regs → Regs} (hg : SparesGprs g) (s : State) (a : Word) (n : Nat) : (s.mapRegs g).slotMisaligned a n = s.slotMisaligned a n := by
  have : (g s.th.regs).x 1 = s.th.regs.x 1 := hg.x _ _
  simp only [State.slotMisaligned, tocSlot, State.mapRegs, State.x_eq, State.regs_eq, State.setRegs_regs, State.setRegs_params, this]

theorem baseRead_mapRegs {g : Regs → Regs} (hg : SparesGprs g) (s : State) (a : Word) (n : Nat) :
    baseRead (s.mapRegs g) a n = (baseRead s a n).map fun r => (r.1, r.2.mapRegs g) := by
  unfold baseRead
  rw [State.slotMisaligned_mapRegs hg, State.memRead_mapRegs hg]
  split <;> rfl

theorem memReads_mapRegs {g : Regs → Regs} (hg : SparesGprs g) (ls : List (Word × Nat)) (s : State) :
    memReads ls (s.mapRegs g) = (memReads ls s).map fun q => (q.1, q.2.mapRegs g) := by
  induction ls generalizing s with
  | nil => rfl
  | cons l ls ih =>
    unfold memReads
    rw [baseRead_mapRegs hg]
    cases hr : baseRead s l.1 l.2 with
    | error e => rfl
    | ok r =>
      simp only [Except.map, ih r.2]
      cases memReads ls r.2 <;> rfl

theorem State.memWrite_mapRegs (g : Regs → Regs) (s : State) (a : Word) (n v : Nat) :
    (s.mapRegs g).memWrite a n v = (s.memWrite a n v).map (State.mapRegs g) := by
  unfold State.memWrite
  show (if (!(accessAddrs a n).all (allocated s.params)) = true then _ else if (accessAddrs a n).any (holdsCode s.params) = true then _ else _) = _
  split
  · rfl
  · split <;> rfl

theorem baseWrite_mapRegs {g : Regs → Regs} (hg : SparesGprs g) (s : State) (a : Word) (n v : Nat) :
    baseWrite (s.mapRegs g) a n v = (baseWrite s a n v).map (State.mapRegs g) := by
  unfold baseWrite
  rw [State.slotMisaligned_mapRegs hg, State.memWrite_mapRegs]
  split <;> rfl

theorem memWrites_mapRegs {g : Regs → Regs} (hg : SparesGprs g) (bs : List BaseStore) (s : State) : memWrites bs (s.mapRegs g) = (memWrites bs s).map (State.mapRegs g) := by
  induction bs generalizing s with
  | nil => rfl
  | cons b bs ih =>
    unfold memWrites
    rw [baseWrite_mapRegs hg]
    cases hw : baseWrite s b.addr b.bytes b.value with
    | error e => rfl
    | ok u => exact ih u

theorem State.putSp_mapRegs {g : Regs → Regs} (hg : SparesGprs g) (s : State) (v : Word) : (s.mapRegs g).putSp v = (s.putSp v).mapRegs g := by
  have hx : (s.mapRegs g).exposed v = s.exposed v := by
    show ((g s.th.regs).x 1).toNat - v.toNat = _
    rw [hg.x]; rfl
  have hm : ∀ n, (s.mapRegs g).drawnBytes v n = s.drawnBytes v n := by
    intro n
    induction n with
    | zero => rfl
    | succ n ih => simp only [State.drawnBytes, ih]; rfl
  unfold State.putSp
  rw [hx, hm]
  show State.setRegs _ ((g s.th.regs).setX 1 v) = _
  rw [← hg.setX]; rfl

theorem lowerSp_mapRegs {g : Regs → Regs} (hg : SparesGprs g) (size : Word) (s : State) : lowerSp (s.mapRegs g) size = (lowerSp s size).mapRegs g := by
  have hx : (s.mapRegs g).x 1 = s.x 1 := hg.x _ _
  have hb : ∀ v, (s.mapRegs g).th.allocBreaches (s.mapRegs g).params v = s.th.allocBreaches s.params v := by
    intro v
    show (failing _ _ ++ failing (decide (v.toNat < ((g s.th.regs).x 1).toNat)) _ ++ failing _ _ ++ failing (frameInStack _ v ((g s.th.regs).x 1)) _) = _
    rw [hg.x]; rfl
  unfold lowerSp
  simp only [hx, hb, State.putSp_mapRegs hg]
  rfl

theorem State.writeGpr_mapRegs {g : Regs → Regs} (hg : SparesGprs g) (s : State) (i : Fin 32) (v : Word) : (s.mapRegs g).writeGpr i v = (s.writeGpr i v).mapRegs g := by
  have e : (s.mapRegs g).setRegs ((s.mapRegs g).regs.setX i v) = (s.setRegs (s.regs.setX i v)).mapRegs g := by
    show State.setRegs _ ((g s.th.regs).setX i v) = _
    rw [← hg.setX]; rfl
  unfold State.writeGpr
  simp only [e, State.putSp_mapRegs hg]
  split
  · rfl
  · split <;> rfl

theorem moveSp_mapRegs {g : Regs → Regs} (hg : SparesGprs g) (v : Word) (s : State) : moveSp v (s.mapRegs g) = (moveSp v s).mapRegs g := by
  have hx : (s.mapRegs g).x 1 = s.x 1 := hg.x _ _
  unfold moveSp
  simp only [hx, lowerSp_mapRegs hg, State.writeGpr_mapRegs hg]
  split
  · rfl
  · split <;> rfl

theorem State.checkChain_mapRegs (g : Regs → Regs) (s : State) : (s.mapRegs g).checkChain = s.checkChain.mapRegs g := by
  have : backChainsOk (s.mapRegs g) = backChainsOk s := by
    have h : ∀ fs, chainHolds (s.mapRegs g) fs = chainHolds s fs := by
      intro fs
      induction fs with
      | nil => rfl
      | cons f fs ih => cases fs with
        | nil => rfl
        | cons h t => simp only [chainHolds, ih]; rfl
    simp only [backChainsOk]; rw [h]; rfl
  simp only [State.checkChain, this]; rfl

/-! ## One instruction -/

/-- The state an instruction of BaseISA moves r1 and stores in: its registers but r1, its further state, whether a reload is still owed, and its Reserved accesses marked. -/
def baseMiddle (base : BaseISA) (w : InsnWord) (k : Regs) (f : BaseState) (o : Bool) (s : State) (n : Nat) : State :=
  ((((s.drawn n).setReloadOwed o).setRegs (k.setX 1 (s.th.regs.x 1))).setBaseState f).markAll (reservedMarks base w)

/-- The registers an instruction of BaseISA sees. -/
def seenBy (base : BaseISA) (w : InsnWord) (s : State) : Regs := seenRegs (base.reads w) s.th.regs (Config.drawWord s.draws) (Config.drawWord (s.draws + 1))

/-- Everything an instruction of BaseISA can answer as a next state. -/
theorem runBase_next {base : BaseISA} {w : InsnWord} {s t : State} (h : runBase base w s = .next t) :
    ∃ (r : Regs) (k : Regs) (f : BaseState) (o : Bool) (n : Nat) (u : State), (∃ vs, memReads (base.loads w (seenBy base w s) s.baseState) (s.drawn 98) = .ok (vs, s.drawn n) ∧
        o = (s.th.reloadOwed && !isReload s.params (seenBy base w s) (base.loads w (seenBy base w s) s.baseState) vs r)) ∧ k = keptRegs s.params (base.writes w) s.th.regs (drawRightHalves (base.fprs w) (s.draws + 66) r) ∧
      k.pc.toNat % 4 = 0 ∧ OnlyStored (moveSp (k.x 1) (baseMiddle base w k f o s n)) u ∧ t = u.checkChain := by
  unfold runBase at h
  simp only at h
  split at h
  · exact absurd h (by simp)
  · next q hq =>
    obtain ⟨n, hn⟩ : ∃ n, q.2 = (s.drawn 98).drawn n := ⟨_, congrArg Prod.snd (memReads_ok hq).1⟩
    have hq2 : q.2 = s.drawn (98 + n) := by rw [hn]; simp only [State.drawn, Nat.add_assoc]
    split at h
    · next r f stores hr =>
      rw [hq2] at h
      unfold applyEffect at h
      simp only at h
      split at h
      · exact absurd h (by simp)
      · next hpc =>
        obtain ⟨u, hu, ht⟩ := andThen_next h
        injection ht with ht
        exact ⟨r, _, f, _, 98 + n, u, ⟨q.1, hq.trans (by rw [← hq2]), rfl⟩, rfl, by simpa [insnBytes] using hpc, memWrites_ok hu, ht.symm⟩
    · exact absurd h (by simp [takeException])
    · exact absurd h (by simp)

/-- R43, R111: the Reserved accesses of an instruction are among the marks it leaves, and it removes none. -/
theorem runBase_breaches {base : BaseISA} {w : InsnWord} {s t : State} (h : runBase base w s = .next t) :
    reservedMarks base w ++ s.th.breaches <:+ t.th.breaches := by
  obtain ⟨r, k, f, o, n, u, -, -, -, hu, rfl⟩ := runBase_next h
  rw [State.checkChain_breaches, hu.th]
  refine List.IsSuffix.trans ?_ (List.suffix_append _ _)
  exact moveSp_breaches (k.x 1) (baseMiddle base w k f o s n)

theorem runBase_others {base : BaseISA} {w : InsnWord} {s t : State} (h : runBase base w s = .next t) :
    t.parked = s.parked ∧ t.params = s.params ∧ t.th.threadPtr = s.th.threadPtr ∧ t.th.activations = s.th.activations := by
  obtain ⟨r, k, f, o, n, u, -, -, -, hu, rfl⟩ := runBase_next h
  refine ⟨?_, ?_, ?_, ?_⟩
  · rw [State.checkChain_parked, hu.parked, moveSp_parked]; rfl
  · rw [State.checkChain_params, hu.params, moveSp_params]; rfl
  · rw [State.checkChain_threadPtr, hu.th, moveSp_threadPtr]; rfl
  · rw [State.checkChain_activations, hu.th, moveSp_activations]; rfl

/-- R31: no instruction of BaseISA changes program text. -/
theorem runBase_code {base : BaseISA} {w : InsnWord} {s t : State} (h : runBase base w s = .next t) {b : Nat} (hb : holdsCode s.params b = true) :
    Memory.get t.mem b = Memory.get s.mem b := by
  obtain ⟨r, k, f, o, n, u, -, -, -, hu, rfl⟩ := runBase_next h
  rw [State.checkChain_mem, hu.code b (by rw [moveSp_params]; exact hb), moveSp_code _ _ (by exact hb)]
  rfl

theorem Regs.setX_self (r : Regs) (i : Fin 32) : r.setX i (r.x i) = r := by simp [Regs.setX, Regs.x]

theorem Regs.setX_setX (r : Regs) (i : Fin 32) (v u : Word) : (r.setX i v).setX i u = r.setX i u := by simp [Regs.setX]

/-- The registers after an instruction of BaseISA are those of its effect, Reserved ones it does not name apart. -/
theorem runBase_regs {base : BaseISA} {w : InsnWord} {s t : State} (h : runBase base w s = .next t) :
    ∃ r, t.th.regs = keptRegs s.params (base.writes w) s.th.regs (drawRightHalves (base.fprs w) (s.draws + 66) r) ∧ t.th.regs.pc.toNat % 4 = 0 := by
  obtain ⟨r, k, f, o, n, u, -, hk, hpc, hu, rfl⟩ := runBase_next h
  have : u.checkChain.th.regs = k := by
    rw [State.checkChain_regs, hu.th]
    rcases moveSp_regs (k.x 1) (baseMiddle base w k f o s n) with hr | ⟨hx, hr⟩
    · rw [hr]
      show (k.setX 1 _).setX 1 _ = k
      rw [Regs.setX_setX, Regs.setX_self]
    · rw [hr]
      have hx' : k.x 1 = s.th.regs.x 1 := hx.trans (Regs.x_setX_same _ _ _)
      show k.setX 1 (s.th.regs.x 1) = k
      rw [← hx', Regs.setX_self]
  exact ⟨r, by rw [this, hk], by rw [this]; exact hpc⟩

/-- R64: a reload is owed after an instruction of BaseISA if it was owed before and the instruction is not the reload. -/
theorem runBase_reloadOwed {base : BaseISA} {w : InsnWord} {s t : State} (h : runBase base w s = .next t) :
    ∃ vs n, memReads (base.loads w (seenBy base w s) s.baseState) (s.drawn 98) = .ok (vs, s.drawn n) ∧
      t.th.reloadOwed = (s.th.reloadOwed && !isReload s.params (seenBy base w s) (base.loads w (seenBy base w s) s.baseState) vs t.th.regs) := by
  obtain ⟨r, k, f, o, n, u, ⟨vs, hvs, ho⟩, hk, -, hu, rfl⟩ := runBase_next h
  have hx2 : u.checkChain.th.regs.x 2 = r.x 2 := by
    have hk2 : k.x 2 = r.x 2 := by rw [hk, keptRegs_x _ _ _ _ (by decide), drawRightHalves_x]
    rw [State.checkChain_regs, hu.th, ← hk2]
    rcases moveSp_regs (k.x 1) (baseMiddle base w k f o s n) with e | ⟨-, e⟩ <;> rw [e]
    · exact (Regs.x_setX_ne _ _ (by decide)).trans (Regs.x_setX_ne _ _ (by decide))
    · exact Regs.x_setX_ne _ _ (by decide)
  refine ⟨vs, n, hvs, ?_⟩
  simp only [isReload, hx2]
  rw [State.checkChain_reloadOwed, hu.th, moveSp_reloadOwed]
  exact ho

end Sys2Proof.Machine
end

