-- ==== Sys2Proof/Laws/ConditionRegister.lean ====
section
/-! SUPPORT. Bits of the condition register's fields (10_state.md R11, R12), of `Fill`'s values (41_condition_register_mfocr.md R87), and what `mfocr` can do (R83). -/

namespace Sys2Proof.Machine

/-! ## Bits of a field -/

/-- Bit k of the word is in field n exactly when its nibble is field n's. -/
theorem fieldMask_bit (n : Fin 8) (k : Fin 32) : (fieldMask n).getLsbD k.val = inField n k := by
  revert n k; decide

theorem crf_bit (cr : CrWord) (n : Fin 8) (j : Nat) : (crf cr n).getLsbD j = (decide (j < 4) && cr.getLsbD (28 - 4 * n.val + j)) := by
  simp [crf, crfLow, BitVec.getLsbD_extractLsb']

/-- A bit of the word inside field n is the field's bit at the same place in its nibble. -/
theorem crf_bit_of_inField (cr : CrWord) (n : Fin 8) (k : Fin 32) (h : inField n k = true) :
    (crf cr n).getLsbD (k.val % 4) = cr.getLsbD k.val := by
  have h' : k.val / 4 = 7 - n.val := by simpa [inField] using h
  have : 28 - 4 * n.val + k.val % 4 = k.val := by have := n.isLt; omega
  rw [crf_bit, this]
  simp [Nat.mod_lt]

theorem atField_bit (v : BitVec 4) (n : Fin 8) (k : Fin 32) :
    (atField v n).getLsbD k.val = (inField n k && v.getLsbD (k.val % 4)) := by
  have hn := n.isLt
  have hk := k.isLt
  simp only [atField, crfLow, BitVec.getLsbD_shiftLeft, BitVec.getLsbD_setWidth, inField]
  by_cases h : k.val / 4 = 7 - n.val
  · have h1 : ¬ k.val < 28 - 4 * n.val := by omega
    have h2 : k.val - (28 - 4 * n.val) = k.val % 4 := by omega
    have h3 : k.val % 4 < 32 := by omega
    simp [h, h1, h2, h3, hk]
  · have : k.val < 28 - 4 * n.val ∨ 4 ≤ k.val - (28 - 4 * n.val) := by omega
    rcases this with h1 | h1
    · simp [h, h1]
    · simp [h, BitVec.getLsbD_of_ge v _ h1]

theorem partner_partner (n : Fin 8) : partner (partner n) = n := by revert n; decide
theorem partner_ne (n : Fin 8) : partner n ≠ n := by revert n; decide

theorem not_inField_of_ne {n m : Fin 8} (k : Fin 32) (h : m ≠ n) (hk : inField n k = true) : inField m k = false := by
  have h1 : k.val / 4 = 7 - n.val := by simpa [inField] using hk
  have h2 : m.val ≠ n.val := fun e => h (Fin.ext e)
  have := n.isLt
  have := m.isLt
  simp only [inField, beq_eq_false_iff_ne, ne_eq]
  omega

/-- Every bit of the word is in one field. -/
theorem exists_inField (k : Fin 32) : ∃ n : Fin 8, inField n k = true := by
  revert k; decide

/-- Two words that agree on every bit of field n agree on field n. -/
theorem crf_congr {a b : CrWord} {n : Fin 8} (h : ∀ k : Fin 32, inField n k = true → a.getLsbD k.val = b.getLsbD k.val) :
    crf a n = crf b n := by
  apply BitVec.eq_of_getLsbD_eq
  intro j hj
  have hn := n.isLt
  have := h ⟨28 - 4 * n.val + j, by omega⟩ (by simp only [inField, beq_iff_eq]; omega)
  rw [crf_bit, crf_bit]
  simp only [this]

theorem crf_setCrf_same (cr : CrWord) (n : Fin 8) (v : BitVec 4) : crf (setCrf cr n v) n = v := by
  apply BitVec.eq_of_getLsbD_eq
  intro j hj
  have hn := n.isLt
  let k : Fin 32 := ⟨28 - 4 * n.val + j, by omega⟩
  have hk : inField n k = true := by simp only [inField, k, beq_iff_eq]; omega
  have h1 := fieldMask_bit n k
  have h2 := atField_bit v n k
  have h3 : k.val % 4 = j := by simp only [k]; omega
  have h4 : k.val < 32 := k.isLt
  rw [hk] at h1 h2
  rw [crf_bit]
  show (decide (j < 4) && (setCrf cr n v).getLsbD k.val) = _
  simp only [setCrf, BitVec.getLsbD_or, BitVec.getLsbD_and, BitVec.getLsbD_not, h1, h2, h3, hj]
  simp

theorem crf_setCrf_ne (cr : CrWord) {n m : Fin 8} (v : BitVec 4) (h : m ≠ n) : crf (setCrf cr n v) m = crf cr m := by
  apply crf_congr
  intro k hk
  have hf := not_inField_of_ne k (Ne.symm h) hk
  have h1 := fieldMask_bit n k
  have h2 := atField_bit v n k
  rw [hf] at h1 h2
  have := k.isLt
  simp only [setCrf, BitVec.getLsbD_or, BitVec.getLsbD_and, BitVec.getLsbD_not, h1, h2]
  simp

/-! ## Bits of the fills -/

theorem compliant_bit (n : Fin 8) (cr mask : CrWord) (k : Fin 32) :
    (compliant n cr mask).getLsbD k.val = if inField n k = true then cr.getLsbD k.val else (cr.getLsbD k.val && mask.getLsbD k.val) := by
  simp only [compliant, BitVec.getLsbD_or, BitVec.getLsbD_and, fieldMask_bit]
  cases inField n k <;> cases cr.getLsbD k.val <;> simp

theorem replicated_bit (n : Fin 8) (cr : CrWord) (k : Fin 32) :
    (replicated n cr).getLsbD k.val =
      if inField n k = true then cr.getLsbD k.val
      else if inField (partner n) k = true then (crf cr n).getLsbD (k.val % 4) else false := by
  simp only [replicated, BitVec.getLsbD_or, atField_bit]
  cases h : inField n k
  · cases h2 : inField (partner n) k <;> simp
  · rw [not_inField_of_ne k (partner_ne n) h]
    simp [crf_bit_of_inField cr n k h]

/-- The 32-bit word that `Fill` extends with zeros (D11). -/
theorem fill_upper (m : MfocrMode) (n : Fin 8) (cr : CrWord) (choice : Bool) (mask : CrWord) :
    (fill m n cr choice mask).extractLsb' 32 32 = 0#32 := by
  apply BitVec.eq_of_getLsbD_eq
  intro j hj
  simp only [fill, BitVec.getLsbD_extractLsb', BitVec.getLsbD_setWidth]
  simp

/-- In every mode the selected field lands where the condition register has it (R87). -/
theorem fill_selected_bit (m : MfocrMode) (n : Fin 8) (cr : CrWord) (choice : Bool) (mask : CrWord) (k : Fin 32)
    (h : inField n k = true) : (fill m n cr choice mask).getLsbD k.val = cr.getLsbD k.val := by
  have hk := k.isLt
  have h64 : k.val < 64 := by omega
  simp only [fill, BitVec.getLsbD_setWidth, h64, decide_true, Bool.true_and]
  cases m <;> simp only [compliant_bit, replicated_bit, h, if_true]
  split
  · rw [replicated_bit, if_pos h]
  · rw [compliant_bit, if_pos h]

/-! ## mfocr -/

/-- `FXM = 0x80 >> n` selects field n (30_encoding.md R35). -/
theorem selectedField_shift (n : Fin 8) : selectedField (0x80#8 >>> n.val) = some n := by revert n; decide

/-- In a form that is not valid no field is selected (R37). -/
theorem selectedField_of_not_validForm (rt : Fin 32) (fxm : BitVec 8) (h : (Instr.mfocr rt fxm).validForm = false) :
    selectedField fxm = none := by
  unfold selectedField
  repeat' (split; next e => subst e; simp [Instr.validForm] at h; try (revert h; decide))
  rfl

/-- Everything `mfocr` can do: it always answers a next state, in which x[RT] is the result and pc has advanced. -/
theorem execMfocr_regs {rt : Fin 32} {fxm : BitVec 8} {s t : State} (h : execMfocr rt fxm s = .next t) :
    t.th.regs = { s.th.regs.setX rt (mfocrResult s.params fxm s.th.regs.cr (Config.drawWord s.draws) (Config.drawWord (s.draws + 1)))
      with pc := s.th.regs.pc + 4 } := by
  unfold execMfocr at h
  injection h with h
  subst h
  simp [State.writeGpr_regs]

theorem execMfocr_result {rt : Fin 32} {fxm : BitVec 8} {s t : State} (h : execMfocr rt fxm s = .next t) :
    t.th.regs.x rt = mfocrResult s.params fxm s.th.regs.cr (Config.drawWord s.draws) (Config.drawWord (s.draws + 1)) := by
  rw [execMfocr_regs h, Regs.x_withGpr, Regs.x_setX_same]

end Sys2Proof.Machine
end

