-- ==== Sys2Proof/Laws/Decode.lean ====
section
/-! SUPPORT. The fields of an encoded instruction word (30_encoding.md R34, R35). -/

namespace Sys2Proof

/-- Every bit of an encoded `mfocr`. -/
theorem encode_mfocr_bit (rt : Fin 32) (fxm : BitVec 8) (k : Nat) (hk : k < 32) :
    (encode (.mfocr rt fxm)).getLsbD k =
      (mfocrMatch.getLsbD k || (decide (21 ≤ k ∧ k < 26) && rt.val.testBit (k - 21)) ||
        (decide (12 ≤ k ∧ k < 20) && fxm.getLsbD (k - 12))) := by
  have hrt : ∀ j, 5 ≤ j → rt.val.testBit j = false := fun j hj =>
    Nat.testBit_lt_two_pow (Nat.lt_of_lt_of_le rt.isLt (Nat.pow_le_pow_right (by decide) hj : 2 ^ 5 ≤ 2 ^ j))
  simp only [encode, BitVec.getLsbD_or, BitVec.getLsbD_shiftLeft, BitVec.getLsbD_ofNat, BitVec.getLsbD_setWidth, hk, decide_true, Bool.true_and]
  interval_cases k <;> simp [hrt]

theorem encode_mfocr_match (rt : Fin 32) (fxm : BitVec 8) : encode (.mfocr rt fxm) &&& mfocrMask = mfocrMatch := by
  apply BitVec.eq_of_getLsbD_eq
  intro k hk
  rw [BitVec.getLsbD_and, encode_mfocr_bit rt fxm k hk]
  interval_cases k <;> simp [mfocrMask, mfocrMatch]

theorem rtField_encode (rt : Fin 32) (fxm : BitVec 8) : rtField (encode (.mfocr rt fxm)) = rt := by
  have : (encode (.mfocr rt fxm)).extractLsb' 21 5 = BitVec.ofFin rt := by
    apply BitVec.eq_of_getLsbD_eq
    intro k hk
    rw [BitVec.getLsbD_extractLsb', encode_mfocr_bit rt fxm (21 + k) (by omega)]
    interval_cases k <;> simp [mfocrMatch]
  simp [rtField, this]

theorem fxmField_encode (rt : Fin 32) (fxm : BitVec 8) : fxmField (encode (.mfocr rt fxm)) = fxm := by
  apply BitVec.eq_of_getLsbD_eq
  intro k hk
  rw [fxmField, BitVec.getLsbD_extractLsb', encode_mfocr_bit rt fxm (12 + k) (by omega)]
  interval_cases k <;> simp [mfocrMatch]

/-- A word in the layout of R34 is the encoding of its fields. -/
theorem encode_fields (w : InsnWord) (h : w &&& mfocrMask = mfocrMatch) : encode (.mfocr (rtField w) (fxmField w)) = w := by
  apply BitVec.eq_of_getLsbD_eq
  intro k hk
  have hb : w.getLsbD k = if mfocrMask.getLsbD k then mfocrMatch.getLsbD k else w.getLsbD k := by
    split
    · next hm => rw [← h, BitVec.getLsbD_and, hm, Bool.and_true]
    · rfl
  have hr : ∀ j, j < 5 → (rtField w).val.testBit j = w.getLsbD (21 + j) := by
    intro j hj
    have : (rtField w).val.testBit j = (w.extractLsb' 21 5).getLsbD j := rfl
    rw [this, BitVec.getLsbD_extractLsb']; simp [hj]
  have hf : ∀ (j : Nat) (hj : j < 8), (fxmField w)[j] = w.getLsbD (12 + j) := by
    intro j hj
    rw [← BitVec.getLsbD_eq_getElem, fxmField, BitVec.getLsbD_extractLsb']; simp [hj]
  rw [encode_mfocr_bit _ _ k hk, hb]
  interval_cases k <;> simp [mfocrMask, mfocrMatch, hr, hf]

end Sys2Proof
end

