-- ==== Sys2Proof/Laws/Run.lean ====
section
/-! SUPPORT. What a step can do: the action at pc, or the instruction fetched there. -/

namespace Sys2Proof.Machine

/-- Everything a step can answer as a next state: an action's, exec's of the instruction decoded, or BaseISA's. -/
theorem stepWith_next {base : BaseISA} {s t : State} (h : stepWith base s = .next t) :
    (∃ act, actionAt s = some act ∧ perform act s.checkText = .next t) ∨
    (actionAt s = none ∧ ∃ w i, fetch s = .ok w ∧ decodeWord w = .ok i ∧ exec i s.checkText = .next t) ∨
    (actionAt s = none ∧ ∃ w, fetch s = .ok w ∧ decodeWord w = .error (.outsideSpec w) ∧ runBase base w s.checkText = .next t) := by
  unfold stepWith at h
  split at h
  · next act ha => exact .inl ⟨act, ha, h⟩
  · next ha =>
    split at h
    · exact absurd h (by simp)
    · next w hw =>
      unfold runWord at h
      split at h
      · next i hi => exact .inr (.inl ⟨ha, w, i, hw, hi, h⟩)
      · exact absurd h (by simp)
      · next v hv =>
        have : v = w := by
          unfold decodeWord at hv
          split at hv
          · exact absurd hv (by simp)
          · split at hv <;> simp at hv
            exact hv.symm
        subst this
        exact .inr (.inr ⟨ha, v, hw, hv, h⟩)
      · exact absurd h (by simp)

theorem runBase_noBaseISA (w : InsnWord) (s : State) : runBase noBaseISA w s = .refused (.outsideSpec w) := rfl

/-- Without BaseISA only the first two are left. -/
theorem step_next {s t : State} (h : step s = .next t) :
    (∃ act, actionAt s = some act ∧ perform act s.checkText = .next t) ∨
    (actionAt s = none ∧ ∃ w i, fetch s = .ok w ∧ decodeWord w = .ok i ∧ exec i s.checkText = .next t) := by
  rcases stepWith_next h with h | h | ⟨-, w, -, -, h⟩
  · exact .inl h
  · exact .inr h
  · exact absurd h (by simp [runBase_noBaseISA])

theorem decodeWord_encoding {w : InsnWord} (h : w &&& mfocrMask = mfocrMatch) :
    decodeWord w = .ok (.mfocr (rtField w) (fxmField w)) := by simp [decodeWord, h]

/-- The bytes of an access are those the memory lists. -/
theorem textBytes_some {m : List Host.Cell} {a n : Nat} {bs : List Byte} (h : textBytes m a n = some bs) :
    bs.length = n ∧ ∀ k (hk : k < bs.length), Memory.get m (a + k) = some bs[k] := by
  induction n generalizing a bs with
  | zero => simp only [textBytes, Option.some.injEq] at h; subst h; simp
  | succ n ih =>
    unfold textBytes at h
    split at h
    · next b cs hb hcs =>
      injection h with h
      subst h
      obtain ⟨hl, hg⟩ := ih hcs
      refine ⟨by simp [hl], fun k hk => ?_⟩
      cases k with
      | zero => simpa using hb
      | succ k =>
        have := hg k (by simpa using hk)
        simpa [Nat.add_comm 1 k, Nat.add_assoc] using this
    · exact absurd h (by simp)
    · exact absurd h (by simp)

theorem textBytes_of_get {m : List Host.Cell} {a : Nat} {bs : List Byte}
    (h : ∀ k (hk : k < bs.length), Memory.get m (a + k) = some bs[k]) : textBytes m a bs.length = some bs := by
  induction bs generalizing a with
  | nil => rfl
  | cons b bs ih =>
    have h0 : Memory.get m a = some b := h 0 (by simp)
    have hr : textBytes m (a + 1) bs.length = some bs := by
      apply ih
      intro k hk
      have := h (k + 1) (by simpa using hk)
      simpa [Nat.add_comm 1 k, Nat.add_assoc] using this
    simp [textBytes, h0, hr]

/-- A fetch on the grid, from bytes that are code, answers the word they make. -/
theorem fetch_on_grid {s : State} {bs : List Byte} (hpc : s.pc.toNat % 4 = 0) (hc : ∀ k < 4, holdsCode s.params (s.pc.toNat + k) = true) (h : textBytes s.mem s.pc.toNat 4 = some bs) :
    fetch s = .ok (BitVec.ofNat 32 (joinBytes s.params.byteOrder bs)) := by
  have hlt := s.pc.isLt
  have h1 : ¬ addressSpace < s.pc.toNat + insnBytes := by simp only [addressSpace, insnBytes]; omega
  unfold fetch
  have h2 : ((List.range insnBytes).all fun k => holdsCode s.params (s.pc.toNat + k)) = true := by
    simp only [List.all_eq_true, List.mem_range]
    exact hc
  rw [if_neg h1, if_neg (by simpa [insnBytes] using hpc), if_neg (by rw [h2]; decide)]
  show (match textBytes s.mem s.pc.toNat 4 with | none => _ | some bs => _) = _
  rw [h]

end Sys2Proof.Machine
end

