-- ==== Sys2Proof/Laws/Invariant.lean ====
section
/-! SUPPORT. Each operation keeps the machine's invariant (Safety.lean); one lemma per operation. -/

namespace Sys2Proof.Machine

/-- The stack part of the invariant speaks of r1, r13, the frames, the activations and the thread pointer only. -/
theorem StackHolds.congr {t u : Thread} (h : StackHolds t) (h1 : u.regs.x 1 = t.regs.x 1) (h13 : u.regs.x 13 = t.regs.x 13)
    (hf : u.frames = t.frames) (ha : u.activations = t.activations) (hp : u.threadPtr = t.threadPtr) : StackHolds u where
  aligned := h1 ▸ h.aligned
  lowest := by rw [hf, h1]; exact h.lowest
  rising := by rw [hf]; exact h.rising
  framesAligned := by rw [hf]; exact h.framesAligned
  belowEntry := by rw [ha, h1]; exact h.belowEntry
  nested := by rw [ha]; exact h.nested
  threadPointer := by rw [h13, hp]; exact h.threadPointer

/-- R75, R77: r1 is the lowest frame, so no frame lies below it. -/
theorem StackHolds.le_of_frame {t : Thread} (h : StackHolds t) {f : Word} (hf : f ∈ t.frames) : (t.regs.x 1).toNat ≤ f.toNat := by
  have hl := h.lowest
  have hr := h.rising
  cases hfs : t.frames with
  | nil => rw [hfs] at hf; exact absurd hf List.not_mem_nil
  | cons g gs =>
    rw [hfs] at hl hr hf
    obtain rfl : g = t.regs.x 1 := by simpa using hl
    rcases List.mem_cons.mp hf with rfl | hm
    · exact Nat.le_refl _
    · exact Nat.le_of_lt ((List.pairwise_cons.mp hr).1 f hm)

theorem unmarked_of_suffix {s t : State} (h : s.th.breaches <:+ t.th.breaches) (ht : Unmarked t) : Unmarked s := by
  unfold Unmarked at *
  rw [ht] at h
  exact List.eq_nil_of_suffix_nil h

/-- What leaves r1, r13, frames, activations and parameters alone keeps the invariant, if it keeps the rest. -/
theorem InvButChain.of_same {s t : State} (h : InvButChain s) (hm : Memory.wf t.mem) (hf : t.th.regs.fpscr = s.th.regs.fpscr)
    (hpc : codeAligned t.th.regs.pc) (hp : t.params = s.params) (ha : t.th.activations = s.th.activations)
    (hfr : t.th.frames = s.th.frames) (htp : t.th.threadPtr = s.th.threadPtr)
    (h1 : t.th.regs.x 1 = s.th.regs.x 1) (h13 : t.th.regs.x 13 = s.th.regs.x 13)
    (hb : s.th.breaches <:+ t.th.breaches) : InvButChain t where
  memory := hm
  fpscr := by have := h.fpscr; simp only [State.regs_eq] at *; rw [hf, hp]; exact this
  pc := hpc
  params := hp ▸ h.params
  activations := ha ▸ h.activations
  stack := fun hu => (h.stack (unmarked_of_suffix hb hu)).congr h1 h13 hfr ha htp

/-- The same where FPSCR is written, within its width. -/
theorem InvButChain.of_same' {s t : State} (h : InvButChain s) (hm : Memory.wf t.mem) (hf : t.th.regs.fpscr &&& ~~~fpscrMask t.params = 0#64)
    (hpc : codeAligned t.th.regs.pc) (hp : t.params = s.params) (ha : t.th.activations = s.th.activations)
    (hfr : t.th.frames = s.th.frames) (htp : t.th.threadPtr = s.th.threadPtr)
    (h1 : t.th.regs.x 1 = s.th.regs.x 1) (h13 : t.th.regs.x 13 = s.th.regs.x 13)
    (hb : s.th.breaches <:+ t.th.breaches) : InvButChain t where
  memory := hm
  fpscr := hf
  pc := hpc
  params := hp ▸ h.params
  activations := ha ▸ h.activations
  stack := fun hu => (h.stack (unmarked_of_suffix hb hu)).congr h1 h13 hfr ha htp

theorem codeAligned_add_four {a : Word} (h : codeAligned a) : codeAligned (a + 4) := by
  unfold codeAligned insnBytes at *
  have := a.isLt
  have : (a + 4).toNat = (a.toNat + 4) % 2 ^ 64 := by rw [BitVec.toNat_add]; rfl
  omega

theorem InvButChain.markAbi {s : State} (h : InvButChain s) (rs : List AbiRule) : InvButChain (s.markAbi rs) :=
  h.of_same h.memory rfl h.pc rfl rfl rfl rfl rfl rfl (List.suffix_append _ _)

theorem InvButChain.checkText {s : State} (h : InvButChain s) : InvButChain s.checkText := h.markAbi _

theorem InvButChain.drawn {s : State} (h : InvButChain s) (n : Nat) : InvButChain (s.drawn n) :=
  h.of_same h.memory rfl h.pc rfl rfl rfl rfl rfl rfl (List.suffix_refl _)

theorem InvButChain.advance {s : State} (h : InvButChain s) : InvButChain s.advance :=
  h.of_same h.memory rfl (codeAligned_add_four h.pc) rfl rfl rfl rfl rfl rfl (List.suffix_refl _)

theorem InvButChain.storeValue {s : State} (h : InvButChain s) (a : Word) (n v : Nat) : InvButChain (s.storeValue a n v) :=
  h.of_same (Memory.wf_store a _ h.memory) rfl h.pc rfl rfl rfl rfl rfl rfl (List.suffix_refl _)

/-- Frames stay rising, and r1 below the entry values, when r1 moves up to a frame and nothing is marked. -/
theorem StackHolds.jump {t : Thread} {r : Regs} {v : Word} (h : StackHolds t) (hj : t.jumpBreaches v = [])
    (h1 : r.x 1 = v) (h13 : r.x 13 = t.regs.x 13) :
    StackHolds { t with regs := r, frames := framesFrom t.frames v } := by
  obtain ⟨ha, hr, hf⟩ := Thread.jumpBreaches_eq_nil.mp hj
  have hr' := Thread.spNotRaised_iff.mp hr
  refine ⟨by simpa [h1] using ha, by simpa [h1] using framesFrom_head hf, h.rising.sublist (framesFrom_sublist _ _),
    fun f hm => h.framesAligned f ((framesFrom_sublist _ _).subset hm), ?_, h.nested, ?_⟩
  · intro a hm
    show (r.x 1).toNat ≤ _
    rw [h1]
    have hn := h.nested
    cases hact : t.activations with
    | nil => simp [hact] at hm
    | cons b bs =>
      have hb : v.toNat ≤ (b.entry.x 1).toNat := hr' b (by simp [hact])
      simp only [hact, List.mem_cons] at hm
      rw [hact, List.pairwise_cons] at hn
      rcases hm with rfl | hm
      · exact hb
      · exact Nat.le_trans hb (hn.1 a hm)
  · exact h13.trans h.threadPointer

/-- x[i] <- v keeps the invariant: a write of r13 is marked, and so is a write of r1 that does not keep the stack (R43, R75 to R79). -/
theorem InvButChain.writeGpr {s : State} (h : InvButChain s) (i : Fin 32) (v : Word) : InvButChain (s.writeGpr i v) where
  memory := State.writeGpr_wf s i v h.memory
  fpscr := by have := h.fpscr; simp only [State.regs_eq, State.writeGpr_regs, State.writeGpr_params, Regs.setX_fpscr] at *; exact this
  pc := by have := h.pc; simp only [State.pc_eq, State.writeGpr_regs, Regs.setX_pc] at *; exact this
  params := by rw [State.writeGpr_params]; exact h.params
  activations := by rw [State.writeGpr_activations]; exact h.activations
  stack := by
    intro hu
    have hs := h.stack (unmarked_of_suffix (State.writeGpr_breaches s i v) hu)
    by_cases h13 : i = 13
    · subst h13; exact absurd hu (by simp [Unmarked, State.writeGpr_thirteen])
    · by_cases h1 : i = 1
      · subst h1
        have hj : s.th.jumpBreaches v = [] := by
          rw [State.writeGpr_one, Unmarked, State.jumpSp_breaches] at hu
          exact List.map_eq_nil_iff.mp (List.append_eq_nil_iff.mp hu).1
        exact (hs.jump (r := s.th.regs.setX 1 v) hj (Regs.x_setX_same _ _ _) (Regs.x_setX_ne _ _ (by decide))).congr rfl rfl rfl rfl rfl
      · rw [State.writeGpr_plain s v h1 h13]
        exact hs.congr (Regs.x_setX_ne _ _ h1) (Regs.x_setX_ne _ _ h13) rfl rfl rfl

theorem InvButChain.execMfocr {s t : State} (h : InvButChain s) {rt : Fin 32} {fxm : BitVec 8} (he : execMfocr rt fxm s = .next t) : InvButChain t := by
  unfold Machine.execMfocr at he
  injection he with he
  subst he
  exact ((h.drawn 2).writeGpr rt _).advance

theorem InvButChain.lowerSp {s : State} (h : InvButChain s) (size : Word) : InvButChain (lowerSp s size) where
  memory := lowerSp_wf s size h.memory
  fpscr := by have := h.fpscr; simp only [State.regs_eq, lowerSp_regs, lowerSp_params, Regs.setX_fpscr] at *; exact this
  pc := by have := h.pc; simp only [State.pc_eq, lowerSp_regs, Regs.setX_pc] at *; exact this
  params := by rw [lowerSp_params]; exact h.params
  activations := by rw [lowerSp_activations]; exact h.activations
  stack := by
    intro hu
    have hb : s.th.allocBreaches s.params (s.th.regs.x 1 - size) = [] := by
      rw [Unmarked, lowerSp_breaches] at hu
      exact List.map_eq_nil_iff.mp (List.append_eq_nil_iff.mp hu).1
    have hs : StackHolds s.th := h.stack (by
      rw [Unmarked, lowerSp_breaches] at hu
      exact (List.append_eq_nil_iff.mp hu).2)
    obtain ⟨hal, hlt, hr, -⟩ := Thread.allocBreaches_eq_nil.mp hb
    have hx1 : (Machine.lowerSp s size).th.regs.x 1 = s.th.regs.x 1 - size := by rw [lowerSp_regs, Regs.x_setX_same]
    have hfr : (Machine.lowerSp s size).th.frames = (s.th.regs.x 1 - size) :: s.th.frames := by rw [lowerSp_frames, if_pos hb]
    have hle : ∀ f ∈ s.th.frames, (s.th.regs.x 1).toNat ≤ f.toNat := fun f hf => hs.le_of_frame hf
    refine ⟨by rw [hx1]; exact hal, by rw [hfr, hx1]; rfl, ?_, ?_, ?_, by rw [lowerSp_activations]; exact hs.nested, ?_⟩
    · rw [hfr]
      exact List.pairwise_cons.mpr ⟨fun f hf => Nat.lt_of_lt_of_le hlt (hle f hf), hs.rising⟩
    · rw [hfr]
      exact fun f hf => (List.mem_cons.mp hf).elim (fun e => e ▸ hal) (hs.framesAligned f)
    · rw [lowerSp_activations, hx1]
      exact fun a ha => Nat.le_trans (Nat.le_of_lt hlt) (hs.belowEntry a ha)
    · rw [lowerSp_regs, Regs.x_setX_ne _ _ (by decide), lowerSp_threadPtr]
      exact hs.threadPointer

theorem InvButChain.allocFrame {s t : State} (h : InvButChain s) {size : Word} (ha : allocFrame size s = .ok t) : InvButChain t := by
  rcases allocFrame_ok ha with ⟨-, rfl⟩ | ⟨-, -, rfl⟩ | ⟨-, -, rfl⟩
  · exact h
  · exact h.lowerSp size
  · exact (h.lowerSp size).storeValue _ _ _

theorem InvButChain.freeFrame {s : State} (h : InvButChain s) (size : Word) : InvButChain (freeFrame size s) := h.writeGpr 1 _

theorem InvButChain.saveToc {s t : State} (h : InvButChain s) (hs : saveToc s = .ok t) : InvButChain t := by
  rw [(saveToc_ok hs).1]; exact (h.storeValue _ _ _).markAbi _

theorem InvButChain.reloadToc {s t : State} (h : InvButChain s) (hs : reloadToc s = .ok t) : InvButChain t := by
  rw [reloadToc_ok hs]
  exact (h.drawn 8).of_same h.memory rfl h.pc rfl rfl rfl rfl (Regs.x_setX_ne _ _ (by decide)) (Regs.x_setX_ne _ _ (by decide)) (List.suffix_refl _)

/-- A Call whose target and return address are code addresses keeps the invariant. -/
theorem InvButChain.performCall {s : State} (h : InvButChain s) {c : CallSite} (hc : c.aligned = true) : InvButChain (performCall c s) := by
  have hal : c.target.toNat % 4 = 0 ∧ c.ret.toNat % 4 = 0 := by simpa [CallSite.aligned, insnBytes] using hc
  have hx : ∀ i : Fin 32, i ≠ 0 → i ≠ 11 → i ≠ 12 → (Machine.performCall c s).th.regs.x i = s.th.regs.x i := by
    intro i h0 h11 h12
    rw [performCall_regs]
    exact entryRegs_x h0 h11 h12
  have hrest := performCall_regs c s
  rw [entryRegs_rest] at hrest
  refine ⟨h.memory, ?_, ?_, h.params, ?_, ?_⟩
  · have := h.fpscr
    simp only [State.regs_eq] at *
    rw [hrest]
    exact this
  · simp only [State.pc_eq]
    rw [hrest]
    exact hal.1
  · intro a ha
    rcases List.mem_cons.mp ha with rfl | ha
    · exact ⟨entryRegs_lr .., hal.2, fun i h0 h11 h12 => entryRegs_x h0 h11 h12, entryRegs_cr .., entryRegs_vsr ..⟩
    · exact h.activations a ha
  · intro hu
    have hs : StackHolds s.th := h.stack (unmarked_of_suffix (List.suffix_append _ _) hu)
    have h1 := hx 1 (by decide) (by decide) (by decide)
    have h13 := hx 13 (by decide) (by decide) (by decide)
    refine ⟨by rw [h1]; exact hs.aligned, by rw [h1]; exact hs.lowest, hs.rising, hs.framesAligned, ?_, ?_, by rw [h13]; exact hs.threadPointer⟩
    · intro a ha
      rcases List.mem_cons.mp ha with rfl | ha
      · exact Nat.le_refl _
      · rw [h1]; exact hs.belowEntry a ha
    · refine List.pairwise_cons.mpr ⟨fun a ha => ?_, hs.nested⟩
      show ((Machine.performCall c s).th.regs.x 1).toNat ≤ _
      rw [h1]
      exact hs.belowEntry a ha

/-- A Return keeps the invariant: pc comes from an entry's LR, which is a code address; unmarked, r1 is back at its entry value. -/
theorem InvButChain.performReturn {s t : State} (h : InvButChain s) {f : Nat} (hr : performReturn f s = .ok t) : InvButChain t := by
  obtain ⟨a, rest, ha, -, rfl⟩ := performReturn_ok hr
  have hin : a ∈ s.th.activations := by rw [ha]; exact List.mem_cons_self
  have hea := h.activations a hin
  have hmem : a ∈ s.th.activations := hin
  refine ⟨by simpa using h.memory, by simpa using h.fpscr, ?_, by simpa using h.params, ?_, ?_⟩
  · simp only [State.pc_eq, leaveFunction_regs]
    rw [hea.returnAddress]
    exact hea.returnAligned
  · intro b hb
    simp only [leaveFunction_activations] at hb
    exact h.activations b (by rw [ha]; exact List.mem_cons_of_mem _ hb)
  · intro hu
    have hs : StackHolds s.th := h.stack (by
      simp only [Unmarked, leaveFunction_breaches, State.markAbi_breaches] at hu
      exact (List.append_eq_nil_iff.mp hu).2)
    constructor
    · simpa using hs.aligned
    · simpa using hs.lowest
    · simpa using hs.rising
    · simpa using hs.framesAligned
    · intro b hb
      simp only [leaveFunction_activations] at hb
      simpa using hs.belowEntry b (by rw [ha]; exact List.mem_cons_of_mem _ hb)
    · have := hs.nested
      rw [ha, List.pairwise_cons] at this
      simpa using this.2
    · simpa using hs.threadPointer

theorem preservedAcross_one (b : Bool) : preservedAcross b (.gpr 1) = true := by cases b <;> decide
theorem preservedAcross_thirteen (b : Bool) : preservedAcross b (.gpr 13) = true := by cases b <;> decide

theorem regsAfterCall_fpscr_within (p : Params) (c : CallSite) (r : Regs) (k : Nat) :
    (regsAfterCall p c r k).fpscr &&& ~~~fpscrMask p = 0#64 := by
  simp only [regsAfterCall]
  rw [BitVec.and_assoc]
  simp

theorem chainBytes_lt (s : State) : ∀ b ∈ chainBytes s, b < addressSpace := by
  intro b hb
  unfold chainBytes at hb
  split at hb
  · obtain ⟨f, -, hb⟩ := List.mem_flatMap.mp hb
    obtain ⟨i, -, rfl⟩ := List.mem_map.mp hb
    exact (f + BitVec.ofNat 64 i).isLt
  · exact absurd hb List.not_mem_nil

/-- A call whose callee is not in the program keeps the invariant, if it comes back at a code address. -/
theorem InvButChain.performCallOpaque {s : State} (h : InvButChain s) {c : CallSite} (hc : c.aligned = true) : InvButChain (performCallOpaque c s) := by
  have hal : c.target.toNat % 4 = 0 ∧ c.ret.toNat % 4 = 0 := by simpa [CallSite.aligned, insnBytes] using hc
  refine h.of_same' ?_ ?_ ?_ ?_ ?_ ?_ ?_ ?_ ?_ ?_
  · simp only [performCallOpaque_mem]; exact State.pin_wf _ _ (Memory.wf_filter _ h.memory) (chainBytes_lt s)
  · simp only [performCallOpaque_regs, performCallOpaque_params]; exact regsAfterCall_fpscr_within _ _ _ _
  · simp only [performCallOpaque_regs]; exact hal.2
  · simp
  · simp
  · simp
  · simp
  · simp only [performCallOpaque_regs]; exact regsAfterCall_x_kept _ _ _ _ (preservedAcross_one _)
  · simp only [performCallOpaque_regs]; exact regsAfterCall_x_kept _ _ _ _ (preservedAcross_thirteen _)
  · simp only [performCallOpaque_breaches]; exact List.suffix_append _ _

/-! ## An instruction of BaseISA -/

theorem InvButChain.moveSp {s : State} (h : InvButChain s) (v : Word) : InvButChain (moveSp v s) := by
  unfold Machine.moveSp
  split
  · exact h
  · split
    · exact h.lowerSp _
    · exact h.writeGpr 1 _

theorem InvButChain.onlyStored {s t : State} (h : InvButChain s) (ho : OnlyStored s t) : InvButChain t where
  memory := ho.wf h.memory
  fpscr := by have := h.fpscr; simp only [State.regs_eq] at *; rw [ho.th, ho.params]; exact this
  pc := by have := h.pc; simp only [State.pc_eq] at *; rw [ho.th]; exact this
  params := ho.params ▸ h.params
  activations := by rw [ho.th]; exact h.activations
  stack := fun hu => by
    have hu' : Unmarked s := by rw [Unmarked, ← ho.th]; exact hu
    rw [ho.th]; exact h.stack hu'

/-- R43, R111: an instruction that writes r13 is marked, so an unmarked one leaves r13. -/
theorem InvButChain.baseMiddle {s : State} (h : InvButChain s) {base : BaseISA} {w : InsnWord} {r : Regs} {f : BaseState} {o : Bool} {n : Nat}
    (hpc : (keptRegs s.params (base.writes w) s.th.regs r).pc.toNat % 4 = 0) :
    InvButChain (baseMiddle base w (keptRegs s.params (base.writes w) s.th.regs r) f o s n) where
  memory := h.memory
  fpscr := keptRegs_fpscr s.params (base.writes w) s.th.regs r
  pc := hpc
  params := h.params
  activations := h.activations
  stack := fun hu => by
    have hb : reservedMarks base w ++ s.th.breaches = [] := hu
    obtain ⟨hr, hs⟩ := List.append_eq_nil_iff.mp hb
    have hw : (base.writes w).contains .r13 = false := by
      have hr' := List.append_eq_nil_iff.mp (List.map_eq_nil_iff.mp hr)
      rw [hr'.2]
      rfl
    exact (h.stack hs).congr (Regs.x_setX_same _ _ _) ((Regs.x_setX_ne _ _ (by decide)).trans (keptRegs_x13 _ _ _ hw)) rfl rfl rfl

/-! ## The back chain is kept (R78) -/

theorem BackChainsHold.of_same {s t : State} (h : BackChainsHold s) (hm : t.mem = s.mem) (hg : t.memGen = s.memGen) (hp : t.params = s.params)
    (hf : t.th.frames = s.th.frames) : BackChainsHold t :=
  h.congr hp (newer := []) (by rw [hf]; rfl) fun _ _ => State.contentWord_congr (fun _ _ => State.byteAt_congr hm hg hp _) hp

theorem BackChainsHold.jumpSp {s : State} (h : BackChainsHold s) {v : Word} (hv : (s.th.regs.x 1).toNat ≤ v.toNat) : BackChainsHold ((s.putSp v).jumpSp v) := by
  obtain ⟨newer, hn⟩ := framesFrom_suffix s.th.frames v
  exact h.congr rfl (newer := newer) hn fun _ _ => State.contentWord_congr (fun _ _ => State.byteAt_congr (State.putSp_mem_of_le s hv) rfl rfl _) rfl

/-- An unmarked write of a general register keeps the chain. -/
theorem BackChainsHold.writeGpr {s : State} (h : BackChainsHold s) (hs : StackHolds s.th) (i : Fin 32) (v : Word) (hu : Unmarked (s.writeGpr i v)) :
    BackChainsHold (s.writeGpr i v) := by
  by_cases h1 : i = 1
  · subst h1
    have hj : s.th.jumpBreaches v = [] := List.map_eq_nil_iff.mp (List.append_eq_nil_iff.mp hu).1
    exact h.jumpSp (hs.le_of_frame (Thread.jumpBreaches_eq_nil.mp hj).2.2)
  · exact h.of_same (State.writeGpr_mem_of_ne s v h1) (State.writeGpr_memGen s i v) (State.writeGpr_params s i v) (State.writeGpr_frames_of_ne s v h1)

theorem BackChainsHold.performCallOpaque {s : State} (h : BackChainsHold s) (c : CallSite) : BackChainsHold (performCallOpaque c s) := by
  by_cases hm : s.params.backchainsMaintained = true
  · refine h.congr (performCallOpaque_params c s) (newer := []) (by simp) fun f hf => ?_
    refine State.contentWord_congr (fun i hi => performCallOpaque_chain c s ?_) (performCallOpaque_params c s)
    unfold chainBytes
    rw [if_pos hm]
    exact List.mem_flatMap.mpr ⟨f, by simpa using hf, List.mem_map.mpr ⟨i, by simpa [backchainBytes] using hi, rfl⟩⟩
  · intro hm'
    rw [performCallOpaque_params] at hm'
    exact absurd hm' hm

/-- Bytes of a frame that is allocated lie at or above r1, so none is in a frame taken below it. -/
theorem frame_word_outside {v x f : Word} (hv : v.toNat < x.toNat) (hxf : x.toNat ≤ f.toNat) (hf : f.toNat % 16 = 0) {i : Nat} (hi : i < 8) :
    ∀ j < (x - v).toNat, byteAddr v j ≠ byteAddr f i := by
  intro j hj e
  have h1 := x.isLt
  have h2 := f.isLt
  have h3 : (x - v).toNat = x.toNat - v.toNat := by rw [BitVec.toNat_sub]; omega
  simp only [byteAddr, BitVec.toNat_add, BitVec.toNat_ofNat] at e
  omega

/-- R77, R78: an unmarked allocation keeps the chain of the frames there were, and adds its own link. -/
theorem allocFrame_chain {s t : State} {size : Word} (h : Inv s) (ha : allocFrame size s = .ok t) (hu : Unmarked t) : BackChainsHold t := by
  have hk : Unmarked s → BackChainsHold s := h.chain
  rcases allocFrame_ok ha with ⟨-, rfl⟩ | ⟨-, hb, rfl⟩ | ⟨-, hb, rfl⟩
  · exact hk hu
  · intro hm; rw [lowerSp_params, hb] at hm; exact absurd hm (by simp)
  · have hu' : (s.th.allocBreaches s.params (s.th.regs.x 1 - size)).map Breach.abiViolation ++ s.th.breaches = [] := by
      rw [← lowerSp_breaches]; exact hu
    obtain ⟨hbr, hs⟩ := List.append_eq_nil_iff.mp hu'
    have hbr := List.map_eq_nil_iff.mp hbr
    obtain ⟨hal, hlt, -, -⟩ := Thread.allocBreaches_eq_nil.mp hbr
    have st := h.stack hs
    have hfr : ((lowerSp s size).storeValue (s.th.regs.x 1 - size) 8 (s.th.regs.x 1).toNat).th.frames = (s.th.regs.x 1 - size) :: s.th.frames := by
      rw [State.storeValue_frames, lowerSp_frames, if_pos hbr]
    have hsz : s.th.regs.x 1 - (s.th.regs.x 1 - size) = size := by bv_omega
    have hle : ∀ f ∈ s.th.frames, (s.th.regs.x 1).toNat ≤ f.toNat := fun f hf => st.le_of_frame hf
    have hold : ∀ f ∈ s.th.frames, ((lowerSp s size).storeValue (s.th.regs.x 1 - size) 8 (s.th.regs.x 1).toNat).contentWord f = s.contentWord f := by
      intro f hf
      refine State.contentWord_congr (fun i hi => ?_) (by simp)
      have out := frame_word_outside hlt (hle f hf) (st.framesAligned f hf) hi
      rw [hsz] at out
      have h8 : 8 ≤ size.toNat := by
        have hx := st.aligned
        have hlt' := (s.th.regs.x 1).isLt
        have h3 : (s.th.regs.x 1 - (s.th.regs.x 1 - size)).toNat = (s.th.regs.x 1).toNat - (s.th.regs.x 1 - size).toNat := by
          rw [BitVec.toNat_sub]; omega
        rw [hsz] at h3
        omega
      rw [State.byteAt_storeValue_outside _ _ _ _ _ fun j hj => out j (by omega)]
      exact lowerSp_outside s size _ out
    intro hm older lowest before newer e
    rw [hfr] at e
    cases newer with
    | nil =>
      simp only [List.nil_append, List.cons.injEq] at e
      obtain ⟨rfl, e⟩ := e
      have hb : before = s.th.regs.x 1 := by have := st.lowest; rw [e] at this; simpa using this
      rw [State.contentWord_storeValue, hb]
    | cons n ns =>
      simp only [List.cons_append, List.cons.injEq] at e
      rw [hold lowest (by rw [e.2]; simp)]
      exact hk hs (by simpa using hm) older lowest before ns e.2

/-! ## Each operation keeps the invariant -/

/-- An operation that leaves memory and frames keeps the chain. -/
theorem Inv.of_mem {s t : State} (h : Inv s) (hb : InvButChain t) (hm : t.mem = s.mem) (hg : t.memGen = s.memGen) (hp : t.params = s.params)
    (hf : t.th.frames = s.th.frames) (hs : s.th.breaches <:+ t.th.breaches) : Inv t :=
  ⟨hb, fun hu => (h.chain (unmarked_of_suffix hs hu)).of_same hm hg hp hf⟩

theorem Inv.markAbi {s : State} (h : Inv s) (rs : List AbiRule) : Inv (s.markAbi rs) :=
  h.of_mem (h.toInvButChain.markAbi rs) rfl rfl rfl rfl (List.suffix_append _ _)

theorem Inv.checkText {s : State} (h : Inv s) : Inv s.checkText := h.markAbi _

theorem Inv.drawn {s : State} (h : Inv s) (n : Nat) : Inv (s.drawn n) :=
  h.of_mem (h.toInvButChain.drawn n) rfl rfl rfl rfl (List.suffix_refl _)

theorem Inv.advance {s : State} (h : Inv s) : Inv s.advance :=
  h.of_mem h.toInvButChain.advance rfl rfl rfl rfl (List.suffix_refl _)

theorem Inv.writeGpr {s : State} (h : Inv s) (i : Fin 32) (v : Word) : Inv (s.writeGpr i v) :=
  ⟨h.toInvButChain.writeGpr i v, fun hu =>
    have hs := unmarked_of_suffix (State.writeGpr_breaches s i v) hu
    (h.chain hs).writeGpr (h.stack hs) i v hu⟩

theorem Inv.execMfocr {s t : State} (h : Inv s) {rt : Fin 32} {fxm : BitVec 8} (he : execMfocr rt fxm s = .next t) : Inv t := by
  unfold Machine.execMfocr at he
  injection he with he
  subst he
  exact ((h.drawn 2).writeGpr rt _).advance

theorem Inv.allocFrame {s t : State} (h : Inv s) {size : Word} (ha : allocFrame size s = .ok t) : Inv t :=
  ⟨h.toInvButChain.allocFrame ha, allocFrame_chain h ha⟩

theorem Inv.freeFrame {s : State} (h : Inv s) (size : Word) : Inv (freeFrame size s) := h.writeGpr 1 _

theorem Inv.saveToc {s t : State} (h : Inv s) (hs : saveToc s = .ok t) : Inv t :=
  ⟨h.toInvButChain.saveToc hs, by rw [(saveToc_ok hs).1]; exact State.checkChain_unmarked⟩

theorem Inv.reloadToc {s t : State} (h : Inv s) (hs : reloadToc s = .ok t) : Inv t :=
  h.of_mem (h.toInvButChain.reloadToc hs) (by rw [reloadToc_ok hs]; rfl) (by rw [reloadToc_ok hs]; rfl) (by rw [reloadToc_ok hs]; rfl)
    (by rw [reloadToc_ok hs]; rfl) (by rw [reloadToc_ok hs]; exact List.suffix_refl _)

theorem Inv.performCall {s : State} (h : Inv s) {c : CallSite} (hc : c.aligned = true) : Inv (performCall c s) :=
  h.of_mem (h.toInvButChain.performCall hc) rfl rfl rfl rfl (List.suffix_append _ _)

theorem Inv.performReturn {s t : State} (h : Inv s) {f : Nat} (hr : performReturn f s = .ok t) : Inv t := by
  have hb := h.toInvButChain.performReturn hr
  obtain ⟨a, rest, -, -, rfl⟩ := performReturn_ok hr
  exact h.of_mem hb (by simp) (by simp) (by simp) (by simp) (by simp)

theorem Inv.performCallOpaque {s : State} (h : Inv s) {c : CallSite} (hc : c.aligned = true) : Inv (performCallOpaque c s) :=
  ⟨h.toInvButChain.performCallOpaque hc, fun hu => (h.chain (unmarked_of_suffix (by rw [performCallOpaque_breaches]; exact List.suffix_append _ _) hu)).performCallOpaque c⟩

/-- An instruction of any BaseISA keeps the invariant: what it could break is marked. -/
theorem Inv.runBase {s t : State} (h : Inv s) {base : BaseISA} {w : InsnWord} (hr : runBase base w s = .next t) : Inv t := by
  obtain ⟨r, k, f, o, n, u, -, rfl, hpc, hu, rfl⟩ := runBase_next hr
  exact ⟨(((h.toInvButChain.baseMiddle hpc).moveSp _).onlyStored hu).markAbi _, State.checkChain_unmarked⟩

end Sys2Proof.Machine
end

