-- ==== Sys2Proof/Laws/Contract.lean ====
section
/-! SUPPORT. The contract predicates (40_linkage_general_registers.md R80, R81): when Return finds nothing broken, and which rule it names otherwise. -/

namespace Sys2Proof.Machine

/-- A check over the registers from `n` on. -/
theorem all_from_iff (P : Fin 32 → Bool) (n : Nat) :
    ((List.finRange 32).all fun i => decide (i.val < n) || P i) = true ↔ ∀ i : Fin 32, n ≤ i.val → P i = true := by
  simp only [List.all_eq_true, List.mem_finRange, true_implies, Bool.or_eq_true, decide_eq_true_eq]
  constructor
  · intro h i hi
    exact (h i).resolve_left (by omega)
  · intro h i
    by_cases hi : i.val < n
    · exact .inl hi
    · exact .inr (h i (by omega))

/-- CR[23:12] is the fields CR2, CR3 and CR4 (R82). -/
theorem crPreservedMask_bit (k : Fin 32) :
    crPreservedMask.getLsbD k.val = true ↔ inField 2 k = true ∨ inField 3 k = true ∨ inField 4 k = true := by revert k; decide

theorem crPreserved_iff (a b : CrWord) :
    a &&& crPreservedMask = b &&& crPreservedMask ↔ ∀ n : Fin 8, 2 ≤ n.val → n.val ≤ 4 → crf a n = crf b n := by
  constructor
  · intro h n h1 h2
    apply crf_congr
    intro k hk
    have hm : crPreservedMask.getLsbD k.val = true := by
      rw [crPreservedMask_bit]
      have : n.val = 2 ∨ n.val = 3 ∨ n.val = 4 := by omega
      rcases this with e | e | e
      · exact .inl ((Fin.ext e : n = 2) ▸ hk)
      · exact .inr (.inl ((Fin.ext e : n = 3) ▸ hk))
      · exact .inr (.inr ((Fin.ext e : n = 4) ▸ hk))
    have e := congrArg (fun x => BitVec.getLsbD x k.val) h
    simpa only [BitVec.getLsbD_and, hm, Bool.and_true] using e
  · intro h
    apply BitVec.eq_of_getLsbD_eq
    intro k hk
    rw [BitVec.getLsbD_and, BitVec.getLsbD_and]
    by_cases hm : crPreservedMask.getLsbD k = true
    · have same : ∀ n : Fin 8, 2 ≤ n.val → n.val ≤ 4 → inField n ⟨k, hk⟩ = true → a.getLsbD k = b.getLsbD k := by
        intro n h1 h2 hin
        have e1 := crf_bit_of_inField a n ⟨k, hk⟩ hin
        have e2 := crf_bit_of_inField b n ⟨k, hk⟩ hin
        simp only at e1 e2
        rw [← e1, ← e2, h n h1 h2]
      rcases (crPreservedMask_bit ⟨k, hk⟩).mp hm with g | g | g
      · rw [same 2 (by decide) (by decide) g]
      · rw [same 3 (by decide) (by decide) g]
      · rw [same 4 (by decide) (by decide) g]
    · rw [Bool.not_eq_true] at hm
      rw [hm, Bool.and_false, Bool.and_false]

theorem mem_limitedFields (x : LimitedField) : x ∈ limitedFields := by
  cases x with
  | dscr => decide
  | vscrNJ => decide
  | fpscr f => cases f <;> decide

theorem limitedHeld_iff {p : Params} {f : Nat} {x : LimitedField} :
    limitedHeld p f x = true ↔ p.limitedAccessPolicy = .nonvolatileLike ∧ limitedOnPurpose p f x = false := by
  simp [limitedHeld]

/-- R44: what a function that kept the limited-access rule has met, field by field. -/
theorem limitedKept_iff {p : Params} {f : Nat} {entry now : Regs} :
    limitedKept p f entry now = true ↔ ∀ x, limitedHeld p f x = true → limitedValue entry x = limitedValue now x := by
  simp only [limitedKept, List.all_eq_true, Bool.or_eq_true, Bool.not_eq_true', beq_iff_eq]
  refine ⟨fun h x hx => (h x (mem_limitedFields x)).resolve_left (by simp [hx]), fun h x _ => ?_⟩
  cases hx : limitedHeld p f x
  · exact .inl rfl
  · exact .inr (h x hx)

/-- R44: nothing is asked under UNSAID. -/
theorem limitedKept_unsaid {p : Params} (h : p.limitedAccessPolicy = .unsaid) (f : Nat) (entry now : Regs) : limitedKept p f entry now = true :=
  limitedKept_iff.mpr fun x hx => absurd (limitedHeld_iff.mp hx).1 (by simp [h])

/-- What was put in front since there were `older`. -/
theorem Thread.marksSince_append {t : Thread} {newer older : List Breach} (h : t.breaches = newer ++ older) : t.marksSince older.length = newer := by
  simp [Thread.marksSince, h]

/-- R80, "at every moment", as the marks say it. -/
theorem spMoment_iff {top : Word} {bs : List Breach} : (quadAligned top && !bs.any (Breach.spMoment top)) = true ↔
    top.toNat % 16 = 0 ∧ .abiViolation .spMisaligned ∉ bs ∧ ∀ v, .abiViolation (.spRaised v) ∈ bs → v.toNat ≤ top.toNat := by
  simp only [Bool.and_eq_true, quadAligned_iff, Bool.not_eq_true', List.any_eq_false]
  refine and_congr_right' ⟨fun h => ⟨fun hm => h _ hm rfl, fun v hv => ?_⟩, fun ⟨hm, hv⟩ b hb => ?_⟩
  · have := h _ hv
    simpa [Breach.spMoment] using this
  · unfold Breach.spMoment
    split
    · exact absurd hb hm
    · have := hv _ hb
      simpa using this
    · simp

/-- R80, "every Call that f itself makes", as the marks say it. -/
theorem ownCall_iff {depth : Nat} {bs : List Breach} : (!bs.any (Breach.ownCall depth)) = true ↔ ∀ why, .failedCall why depth ∉ bs := by
  simp only [Bool.not_eq_true', List.any_eq_false]
  refine ⟨fun h why hm => h _ hm (by simp [Breach.ownCall]), fun h b hb => ?_⟩
  unfold Breach.ownCall
  split
  · next why d =>
    intro e
    obtain rfl : d = depth := by simpa using e
    exact h why hb
  · simp

/-- R80: Return finds nothing broken exactly when the obligations are met. -/
theorem calleeBreaches_eq_nil (p : Params) (a : Activation) (t : Thread) : calleeBreaches p a t = [] ↔ CalleeObligations p a t := by
  unfold calleeBreaches CalleeObligations
  simp only [List.append_eq_nil_iff, failing_eq_nil, all_from_iff, crPreserved_iff, spMoment_iff, ownCall_iff, and_assoc, beq_iff_eq]
  refine and_congr Iff.rfl (and_congr Iff.rfl (and_congr ?_ ?_))
  · cases p.sameModule a.caller a.callee <;> simp
  · simp [and_assoc]

/-- R46, 93 U18: what an unmarked Return has met. -/
theorem returnBreaches_eq_nil {a : Activation} {s : State} :
    returnBreaches a s = [] ↔ CalleeObligations s.params a s.th ∧ s.th.reloadOwed = false := by
  simp [returnBreaches, calleeBreaches_eq_nil]

theorem mem_failing_iff {b : Bool} {q r : AbiRule} {P : Prop} (h : b = true ↔ P) : r ∈ failing b q ↔ r = q ∧ ¬ P := by
  rw [mem_failing, ← h]
  cases b <;> simp

/-- R80, line by line: which rule a Return's mark names, and when. -/
theorem mem_calleeBreaches (p : Params) (a : Activation) (t : Thread) (r : AbiRule) : r ∈ calleeBreaches p a t ↔
    (r = .returnSp ∧ ¬ t.regs.x 1 = a.entry.x 1) ∨
    (r = .returnGpr ∧ ¬ ∀ i : Fin 32, 14 ≤ i.val → t.regs.x i = a.entry.x i) ∨
    (r = .returnToc ∧ ¬ (p.sameModule a.caller a.callee = true → t.regs.x 2 = a.entry.x 2)) ∨
    (r = .returnThreadPointer ∧ ¬ (t.regs.x 13 = a.entry.x 13 ∧ .reservedRegister .r13 ∉ t.marksSince a.marksAtEntry)) ∨
    (r = .returnCr ∧ ¬ ∀ n : Fin 8, 2 ≤ n.val → n.val ≤ 4 → crf t.regs.cr n = crf a.entry.cr n) ∨
    (r = .returnFpr ∧ ¬ ∀ i : Fin 32, 14 ≤ i.val → t.regs.f i = a.entry.f i) ∨
    (r = .returnVr ∧ ¬ ∀ i : Fin 32, 20 ≤ i.val → t.regs.v i = a.entry.v i) ∨
    (r = .returnLimitedAccess ∧ ¬ limitedKept p a.callee a.entry t.regs = true) ∨
    (r = .returnSpMoment ∧ ¬ ((a.entry.x 1).toNat % 16 = 0 ∧ .abiViolation .spMisaligned ∉ t.marksSince a.marksAtEntry ∧
      ∀ v, .abiViolation (.spRaised v) ∈ t.marksSince a.marksAtEntry → v.toNat ≤ (a.entry.x 1).toNat)) ∨
    (r = .returnSystemRegister ∧ ¬ (.reservedRegister .tar ∉ t.marksSince a.marksAtEntry ∧ .reservedRegister .vrsave ∉ t.marksSince a.marksAtEntry)) ∨
    (r = .returnOwnCall ∧ ¬ ∀ why, .failedCall why t.activations.length ∉ t.marksSince a.marksAtEntry) := by
  unfold calleeBreaches
  simp only [List.mem_append, or_assoc]
  refine or_congr (mem_failing_iff (by simp)) (or_congr (mem_failing_iff ?_) (or_congr (mem_failing_iff ?_) (or_congr (mem_failing_iff (by simp))
    (or_congr (mem_failing_iff (by rw [beq_iff_eq, crPreserved_iff])) (or_congr (mem_failing_iff ?_) (or_congr (mem_failing_iff ?_)
    (or_congr (mem_failing_iff Iff.rfl) (or_congr (mem_failing_iff spMoment_iff) (or_congr (mem_failing_iff (by simp)) (mem_failing_iff ownCall_iff))))))))))
  · simp only [all_from_iff, beq_iff_eq]
  · cases p.sameModule a.caller a.callee <;> simp
  · simp only [all_from_iff, beq_iff_eq]
  · simp only [all_from_iff, beq_iff_eq]

/-! ## A call whose callee is not in the program -/

/-- R91, R93, R105: of the vector-scalar registers the left halves of 14 to 31 and all of 52 to 63 are kept. -/
theorem regsAfterCall_vs (p : Params) (c : CallSite) (r : Regs) (k : Nat) (i : Fin 64) :
    (regsAfterCall p c r k).vs i = vsrAfterCall r k i := by
  show (Vector.ofFn (vsrAfterCall r k))[i.val] = _
  rw [Vector.getElem_ofFn]

/-- R91: f14 to f31 are kept. -/
theorem regsAfterCall_f_kept (p : Params) (c : CallSite) (r : Regs) (k : Nat) {i : Fin 32} (hi : 14 ≤ i.val) :
    (regsAfterCall p c r k).f i = r.f i := by
  have := i.isLt
  rw [Regs.f, regsAfterCall_vs, vsrAfterCall, if_neg (by simp only [fprHome]; omega), if_pos (by simp only [fprHome]; omega), extract_left]
  rfl

/-- R105: v20 to v31 are kept. -/
theorem regsAfterCall_v_kept (p : Params) (c : CallSite) (r : Regs) (k : Nat) {i : Fin 32} (hi : 20 ≤ i.val) :
    (regsAfterCall p c r k).v i = r.v i := by
  rw [Regs.v, regsAfterCall_vs, vsrAfterCall, if_neg (by simp only [vrHome]; omega), if_neg (by simp only [vrHome]; omega), if_neg (by simp only [vrHome]; omega)]
  rfl

/-- R93: every right half is a draw. -/
theorem regsAfterCall_vsrRight (p : Params) (c : CallSite) (r : Regs) (k : Nat) (i : Fin 32) :
    (regsAfterCall p c r k).vsrRight i = Config.drawWord (k + 49 + 2 * i.val) := by
  have := i.isLt
  rw [Regs.vsrRight, regsAfterCall_vs, vsrAfterCall]
  split
  · rw [extract_right]; rfl
  · rw [if_pos (by simp only [fprHome]; omega), extract_right]; rfl

end Sys2Proof.Machine
end

