-- ==== Sys2Proof/Laws/Registers.lean ====
section
/-! SUPPORT. The views of the vector-scalar register file (10_state.md R15 to R18), the status fields (R19, R20), and the placement of parameters
(42_fp_vector_registers_parameters.md R96 to R100). -/

namespace Sys2Proof.Machine

/-! ## f and v over one file -/

theorem fprHome_ne {i j : Fin 32} (h : i ≠ j) : fprHome i ≠ fprHome j :=
  fun e => h (Fin.ext (by simpa [fprHome] using congrArg Fin.val e))

theorem vrHome_ne {i j : Fin 32} (h : i ≠ j) : vrHome i ≠ vrHome j :=
  fun e => h (Fin.ext (by simpa [vrHome] using congrArg Fin.val e))

/-- The two views share no register. -/
theorem fprHome_ne_vrHome (i j : Fin 32) : fprHome i ≠ vrHome j := fun e => by
  have := congrArg Fin.val e
  simp only [fprHome, vrHome] at this
  omega

theorem State.f_writeFpr (s : State) (i : Fin 32) (w : Word) (j : Fin 32) :
    (s.writeFpr i w).th.regs.f j = if j = i then w else s.th.regs.f j := by
  simp only [State.writeFpr, State.writeVsr, State.drawn_regs, State.setRegs_regs, Regs.f]
  split
  · next h => subst h; rw [Regs.vs_setVs_same, extract_left]
  · next h => rw [Regs.vs_setVs_ne _ _ (fprHome_ne (Ne.symm h))]; rfl

theorem State.v_writeFpr (s : State) (i : Fin 32) (w : Word) (j : Fin 32) : (s.writeFpr i w).th.regs.v j = s.th.regs.v j := by
  simp only [State.writeFpr, State.writeVsr, State.drawn_regs, State.setRegs_regs, Regs.v]
  rw [Regs.vs_setVs_ne _ _ (fprHome_ne_vrHome _ _)]; rfl

theorem State.v_writeVr (s : State) (i : Fin 32) (q : Quad) (j : Fin 32) :
    (s.writeVr i q).th.regs.v j = if j = i then q else s.th.regs.v j := by
  simp only [State.writeVr, State.writeVsr, State.setRegs_regs, Regs.v]
  split
  · next h => subst h; rw [Regs.vs_setVs_same]
  · next h => rw [Regs.vs_setVs_ne _ _ (vrHome_ne (Ne.symm h))]; rfl

theorem State.f_writeVr (s : State) (i : Fin 32) (q : Quad) (j : Fin 32) : (s.writeVr i q).th.regs.f j = s.th.regs.f j := by
  simp only [State.writeVr, State.writeVsr, State.setRegs_regs, Regs.f]
  rw [Regs.vs_setVs_ne _ _ (fprHome_ne_vrHome _ _).symm]; rfl

/-! ## Status fields -/

theorem fpscrFieldMask_bit (f : FpscrField) (k : Fin 64) :
    (fpscrFieldMask f).getLsbD k.val = decide (fpscrLow f ≤ k.val ∧ k.val < fpscrLow f + fpscrFieldWidth f) := by
  revert k; cases f <;> decide

/-- Two states of FPSCR agree on a field exactly when they agree under its mask. -/
theorem fpscrField_eq_iff (a b : Regs) (f : FpscrField) :
    fpscrField a f = fpscrField b f ↔ a.fpscr &&& fpscrFieldMask f = b.fpscr &&& fpscrFieldMask f := by
  constructor
  · intro h
    apply BitVec.eq_of_getLsbD_eq
    intro k hk
    have hw : fpscrFieldWidth f ≤ 3 := by cases f <;> decide
    have hm := fpscrFieldMask_bit f ⟨k, hk⟩
    simp only at hm
    rw [BitVec.getLsbD_and, BitVec.getLsbD_and]
    by_cases hin : fpscrLow f ≤ k ∧ k < fpscrLow f + fpscrFieldWidth f
    · have e := congrArg (fun x => BitVec.getLsbD x (k - fpscrLow f)) h
      simp only [fpscrField, BitVec.getLsbD_setWidth, BitVec.getLsbD_ushiftRight] at e
      have e1 : k - fpscrLow f < 3 := by omega
      have e2 : fpscrLow f + (k - fpscrLow f) = k := by omega
      rw [e2, BitVec.getLsbD_and, BitVec.getLsbD_and] at e
      simpa only [e1, decide_true, Bool.true_and] using e
    · rw [hm, decide_eq_false hin, Bool.and_false, Bool.and_false]
  · intro h
    simp only [fpscrField, h]

/-- VSCR's NJ is bit 16 alone. -/
theorem vscrLimitedMask_bit (k : Fin 32) : vscrLimitedMask.getLsbD k.val = decide (k.val = 16) := by revert k; decide

theorem limitedValue_vscrNJ (a b : Regs) : limitedValue a .vscrNJ = limitedValue b .vscrNJ ↔ vscrNJ a = vscrNJ b := by
  constructor
  · intro h
    have e := congrArg (fun x => BitVec.getLsbD x 16) h
    simp only [limitedValue, BitVec.getLsbD_setWidth, BitVec.getLsbD_and] at e
    simpa [vscrLimitedMask, vscrNJ] using e
  · intro h
    simp only [limitedValue]
    congr 1
    apply BitVec.eq_of_getLsbD_eq
    intro k hk
    have hb := vscrLimitedMask_bit ⟨k, hk⟩
    simp only at hb
    rw [BitVec.getLsbD_and, BitVec.getLsbD_and, hb]
    by_cases e : k = 16
    · subst e; exact congrArg (· && decide (16 = 16)) h
    · simp [e]

/-- R44: the bits of FPSCR a function has to leave are those of the fields it has to leave. -/
theorem fpscrHeldMask_bit (p : Params) (f : Nat) (k : Fin 64) : (fpscrHeldMask p f).getLsbD k.val = true ↔
    ∃ x, limitedHeld p f (.fpscr x) = true ∧ fpscrLow x ≤ k.val ∧ k.val < fpscrLow x + fpscrFieldWidth x := by
  have key : ∀ xs : List FpscrField, (xs.foldr (fun x m => if limitedHeld p f (.fpscr x) then fpscrFieldMask x ||| m else m) 0#64).getLsbD k.val = true ↔
      ∃ x ∈ xs, limitedHeld p f (.fpscr x) = true ∧ fpscrLow x ≤ k.val ∧ k.val < fpscrLow x + fpscrFieldWidth x := by
    intro xs
    induction xs with
    | nil => simp
    | cons x xs ih =>
      rw [List.foldr_cons, List.exists_mem_cons_iff, ← ih]
      split
      · next hx => rw [BitVec.getLsbD_or, fpscrFieldMask_bit, Bool.or_eq_true, decide_eq_true_eq]; simp [hx]
      · next hx => simp [hx]
  refine (key fpscrFields).trans ⟨fun ⟨x, _, h⟩ => ⟨x, h⟩, fun ⟨x, h⟩ => ⟨x, ?_, h⟩⟩
  cases x <;> decide

/-! ## Placement of DFP parameters -/

/-- R96 to R100: what one placement gives. -/
theorem placeDfp_some {t : DfpType} {c c' : DfpCursor} {u : List Nat} (h : placeDfp t c = some (u, c')) :
    c'.doublewords = c.doublewords + dfpDoublewords t ∧ (t = .quad → ∃ e, e % 2 = 0 ∧ 2 ≤ e ∧ e + 1 < 32 ∧ u = [e, e + 1]) ∧
    (t ≠ .quad → ∃ r, 1 ≤ r ∧ r < 32 ∧ u = [r]) := by
  unfold placeDfp at h
  cases t
  · simp [dfpSkip] at h
    obtain ⟨h1, h2, h3⟩ := h
    subst h2 h3
    exact ⟨rfl, by simp, fun _ => ⟨_, by omega, by omega, rfl⟩⟩
  · simp [dfpSkip] at h
    obtain ⟨h1, h2, h3⟩ := h
    subst h2 h3
    exact ⟨rfl, by simp, fun _ => ⟨_, by omega, by omega, rfl⟩⟩
  · simp only [dfpSkip] at h
    by_cases hp : c.next % 2 = 1
    · simp [hp] at h
      obtain ⟨h1, h2, h3⟩ := h
      subst h2 h3
      exact ⟨rfl, fun _ => ⟨c.next + 1, by omega, by omega, by omega, rfl⟩, by simp⟩
    · have hp0 : c.next % 2 = 0 := by omega
      simp [hp0] at h
      obtain ⟨h1, h2, h3⟩ := h
      subst h2 h3
      exact ⟨rfl, fun _ => ⟨c.next, by omega, by omega, by omega, rfl⟩, by simp⟩

theorem placeDfps_cons {t : DfpType} {ts : List DfpType} {c c' : DfpCursor} {us : List (List Nat)}
    (h : placeDfps (t :: ts) c = some (us, c')) :
    ∃ u c1 us', placeDfp t c = some (u, c1) ∧ placeDfps ts c1 = some (us', c') ∧ us = u :: us' := by
  unfold placeDfps at h
  split at h
  · exact absurd h (by simp)
  · next u c1 h1 =>
    split at h
    · exact absurd h (by simp)
    · next us' c2 h2 =>
      injection h with h
      injection h with ha hb
      subst hb
      exact ⟨u, c1, us', h1, h2, ha.symm⟩

end Sys2Proof.Machine
end

