-- ==== Sys2Proof/Laws/Steps.lean ====
section
/-! SUPPORT. What every step leaves alone or only adds to: the marks, the other threads, the parameters; and the actions of well-formed parameters. -/

namespace Sys2Proof.Machine

/-! ## Marks are only added (60_exceptions.md R111) -/

theorem exec_breaches {i : Instr} {s t : State} (h : exec i s = .next t) : s.th.breaches <:+ t.th.breaches := by
  cases i with
  | mfocr rt fxm =>
    injection h with h
    subst h
    exact State.writeGpr_breaches (s.drawn 2) _ _

theorem allocFrame_breaches {s t : State} {size : Word} (h : allocFrame size s = .ok t) : s.th.breaches <:+ t.th.breaches := by
  rcases allocFrame_ok h with ⟨-, rfl⟩ | ⟨-, -, rfl⟩ | ⟨-, -, rfl⟩
  · exact List.suffix_refl _
  · rw [lowerSp_breaches]; exact List.suffix_append _ _
  · rw [State.storeValue_breaches, lowerSp_breaches]; exact List.suffix_append _ _

theorem perform_breaches {act : Action} {s t : State} (h : perform act s = .next t) : s.th.breaches <:+ t.th.breaches := by
  rcases perform_next h with ⟨c, rfl, rfl⟩ | ⟨c, rfl, rfl⟩ | ⟨f, rfl, hr⟩ | ⟨rfl, u, hu, rfl⟩ | ⟨rfl, u, hu, rfl⟩ | ⟨size, rfl, u, hu, rfl⟩ | ⟨size, rfl, rfl⟩
  · exact List.suffix_append _ _
  · exact List.suffix_append _ _
  · obtain ⟨a, rest, -, -, rfl⟩ := performReturn_ok hr
    exact List.suffix_append _ _
  · rw [(saveToc_ok hu).1]; exact List.suffix_append _ _
  · rw [reloadToc_ok hu]; exact List.suffix_refl _
  · rw [State.advance_breaches]; exact allocFrame_breaches hu
  · exact State.writeGpr_breaches s _ _

/-! ## Other threads and the parameters -/

theorem exec_others {i : Instr} {s t : State} (h : exec i s = .next t) :
    t.parked = s.parked ∧ t.params = s.params ∧ t.th.threadPtr = s.th.threadPtr := by
  cases i with
  | mfocr rt fxm =>
    injection h with h
    subst h
    exact ⟨State.writeGpr_parked (s.drawn 2) _ _, State.writeGpr_params (s.drawn 2) _ _, State.writeGpr_threadPtr (s.drawn 2) _ _⟩

theorem perform_others {act : Action} {s t : State} (h : perform act s = .next t) :
    t.parked = s.parked ∧ t.params = s.params ∧ t.th.threadPtr = s.th.threadPtr := by
  rcases perform_next h with ⟨c, rfl, rfl⟩ | ⟨c, rfl, rfl⟩ | ⟨f, rfl, hr⟩ | ⟨rfl, u, hu, rfl⟩ | ⟨rfl, u, hu, rfl⟩ | ⟨size, rfl, u, hu, rfl⟩ | ⟨size, rfl, rfl⟩
  · simp
  · simp
  · obtain ⟨a, rest, -, -, rfl⟩ := performReturn_ok hr
    simp
  · rw [(saveToc_ok hu).1]; simp
  · rw [reloadToc_ok hu]; simp
  · rcases allocFrame_ok hu with ⟨-, rfl⟩ | ⟨-, -, rfl⟩ | ⟨-, -, rfl⟩ <;> simp
  · exact ⟨State.writeGpr_parked s _ _, State.writeGpr_params s _ _, State.writeGpr_threadPtr s _ _⟩

/-! ## Program text is fixed (20_memory.md R31) -/

theorem exec_code {i : Instr} {s t : State} (h : exec i s = .next t) {b : Nat} (hb : holdsCode s.params b = true) :
    Memory.get t.mem b = Memory.get s.mem b := by
  cases i with
  | mfocr rt fxm =>
    injection h with h
    subst h
    exact State.writeGpr_code (s.drawn 2) _ _ hb

theorem perform_code {act : Action} {s t : State} (h : perform act s = .next t) {b : Nat} (hb : holdsCode s.params b = true) :
    Memory.get t.mem b = Memory.get s.mem b := by
  rcases perform_next h with ⟨c, rfl, rfl⟩ | ⟨c, rfl, rfl⟩ | ⟨f, rfl, hr⟩ | ⟨rfl, u, hu, rfl⟩ | ⟨rfl, u, hu, rfl⟩ | ⟨size, rfl, u, hu, rfl⟩ | ⟨size, rfl, rfl⟩
  · rfl
  · exact performCallOpaque_code c s hb
  · obtain ⟨a, rest, -, -, rfl⟩ := performReturn_ok hr
    rfl
  · rw [State.advance_mem]; exact saveToc_code hu hb
  · rw [reloadToc_ok hu]; rfl
  · unfold allocFrame at hu
    split at hu
    · injection hu with hu; subst hu; rfl
    · split at hu
      · exact (State.writeSlot_code hu (by rw [lowerSp_params]; exact hb)).trans (lowerSp_code s size hb)
      · injection hu with hu; subst hu; exact lowerSp_code s size hb
  · exact State.writeGpr_code s _ _ hb

/-! ## Actions of well-formed parameters (10_state.md R21) -/

theorem mem_of_lookup {α : Type} {l : List (Nat × α)} {k : Nat} {v : α} (h : l.lookup k = some v) : (k, v) ∈ l := by
  induction l with
  | nil => simp at h
  | cons p l ih =>
    obtain ⟨a, b⟩ := p
    rw [List.lookup_cons] at h
    by_cases e : k = a
    · subst e; simp at h; simp [h]
    · rw [show (k == a) = false by simpa using e] at h
      exact List.mem_cons_of_mem _ (ih h)

theorem site_aligned {s : State} (hw : s.params.wf = true) {act : Action} (h : actionAt s = some act) {c : CallSite}
    (hc : act.site? = some c) : c.aligned = true := by
  have hm := mem_of_lookup h
  simp only [Params.wf, Params.actionsOk, Bool.and_eq_true, List.all_eq_true] at hw
  have := hw.1.2.2 _ hm
  simp only [hc, Bool.and_eq_true] at this
  exact this.1

end Sys2Proof.Machine
end

