-- ==== Sys2Proof/Laws/PerInstr.lean ====
section
/-! SUPPORT. Statements for all instructions, one lemma per constructor: every encoding has the fixed bits of the opcode table (30_encoding.md R34, R36). -/

/-- The encoding has the row's `match` under its `mask`, and no reserved bit. -/
def Sys2Proof.Laws.FixedBits.Statement (i : Sys2Proof.Instr) : Prop :=
  Sys2Proof.encode i &&& Sys2Proof.mfocrMask = Sys2Proof.mfocrMatch ∧ Sys2Proof.encode i &&& 0x801#32 = 0#32

theorem Sys2Proof.Laws.FixedBits.mfocr (rt : Fin 32) (fxm : BitVec 8) :
    Sys2Proof.Laws.FixedBits.Statement (.mfocr rt fxm) := by
  have h := Sys2Proof.encode_mfocr_match rt fxm
  refine ⟨h, ?_⟩
  have e : (0x801#32 : BitVec 32) = Sys2Proof.mfocrMask &&& 0x801#32 := by decide
  rw [e, ← BitVec.and_assoc, h]
  decide
end

