-- ==== Sys2Proof/Tests/Slice0.lean ====
section
/-! SUPPORT. Tests on fixed values. Expected results come from spec/95_test_vectors.md (V-…, P1 to P4) or from the rule named beside a test; the last sections hold a witness
for every statement that has hypotheses. -/

namespace Sys2Proof.Tests

open Sys2Proof Sys2Proof.Machine

/-! ## A small machine: programs P1 and P3 of 95_test_vectors.md (caller 1, callee 2 in another module, callee 3 in the caller's) -/

def fnG : FnInfo := ⟨1, 1, false, false, []⟩
def fnF : FnInfo := ⟨2, 2, false, false, []⟩
def fnH : FnInfo := ⟨3, 1, false, false, []⟩

/-- P3 step 3. -/
def cross : CallSite := ⟨1, 2, 0x20000A40, .globalEntry, 0x10000478, none⟩
/-- A call inside the module, NONGLOBAL. -/
def near : CallSite := ⟨1, 3, 0x10000100, .nonglobalEntry, 0x10000478, some 0x55⟩

def demoParams : Params := { Params.reset with
  backchainsMaintained := true
  memmap := [⟨.code, 0x10000000, 0x1000⟩, ⟨.code, 0x20000000, 0x1000⟩, ⟨.stack, 0x7FFFFFF00000, 0x100000⟩]
  fns := [fnG, fnF, fnH]
  tocBases := [(1, 0x10027F00), (2, 0x20018000)]
  actions := [(0x10000474, .call cross), (0x10000478, .reloadToc), (0x1000010C, .ret 3), (0x10000480, .callOpaque cross)]
  tocUses := [⟨0x10000100, 1, [0x10000010]⟩] }

def demoRegs (pc : Word) : Regs :=
  { ((((Regs.reset.setX 1 0x7FFFFFFFE000).setX 2 0x10027F00).setX 12 0x20000A40).setX 13 0x7FFFF7FF7000).setX 14 0xAAAA with
    cr := 0x12345678#32, lr := 0x10000478, pc := pc }

/-- Program text of P1, the back chain and the saved TOC pointer of P3. -/
def demoMem : List Host.Cell :=
  Memory.store (Memory.store (Memory.store (Memory.store (Memory.store []
    0x7FFFFFFFE018 (bytesOf .le 8 0x10027F00)) 0x7FFFFFFFE000 (bytesOf .le 8 0x7FFFFFFFE080))
    0x10000108 (bytesOf .le 4 0x7D508026)) 0x10000104 (bytesOf .le 4 0x7D310026)) 0x10000100 (bytesOf .le 4 0x7D120026)

/-- The caller at pc, no function entered. -/
def demo (pc : Word) : State :=
  { State.reset with
    th := { Thread.reset with regs := demoRegs pc, threadPtr := 0x7FFFF7FF7000, frames := [0x7FFFFFFFE000, 0x7FFFFFFFE080] }
    mem := demoMem
    params := demoParams }

/-- A function entered from the caller with the demo's registers. -/
def entered (callee : Nat) (pc : Word) : Activation :=
  ⟨1, callee, .globalEntry, 0x10000478, none, demoRegs 0x10000474, demoRegs pc, demoMem, 0, ⟨[], []⟩, 0⟩

/-- The callee just entered. -/
def inside (callee : Nat) (pc : Word) : State :=
  { demo pc with th := { (demo pc).th with activations := [entered callee pc] } }

/-- The step answers a next state of which `ok` holds. -/
def after (r : Result) (ok : State → Bool) : Bool :=
  match r with
  | .next t => ok t
  | .fault _ => false
  | .refused _ => false

/-! ## Decoding: every vector V-E1 to V-E19, and the host's form of a word -/

theorem test_decode_E1 : decodeWord 0b01111101001100100000000000100110#32 = .ok (.mfocr 9 0x20#8) := by decide
theorem test_decode_E2_to_E5 : decodeWord 0x7D510026#32 = .ok (.mfocr 10 0x10#8) ∧ decodeWord 0x7D908026#32 = .ok (.mfocr 12 0x08#8) ∧
    decodeWord 0x7D780026#32 = .ok (.mfocr 11 0x80#8) ∧ decodeWord 0x7C701026#32 = .ok (.mfocr 3 0x01#8) := by decide
theorem test_decode_E6_to_E8 : decodeWord 0x7C140026#32 = .ok (.mfocr 0 0x40#8) ∧ decodeWord 0x7FF02026#32 = .ok (.mfocr 31 0x02#8) ∧
    decodeWord 0x7CB04026#32 = .ok (.mfocr 5 0x04#8) := by decide
theorem test_decode_invalid_forms : decodeWord 0x7C700026#32 = .ok (.mfocr 3 0x00#8) ∧ decodeWord 0x7C7FF026#32 = .ok (.mfocr 3 0xFF#8) ∧
    decodeWord 0x7C730026#32 = .ok (.mfocr 3 0x30#8) := by decide
theorem test_decode_reserved_bits : decodeWord 0x7D320027#32 = .error (.reservedBits 0x7D320027#32) ∧
    decodeWord 0x7D320826#32 = .error (.reservedBits 0x7D320826#32) := by decide
theorem test_decode_outside : decodeWord 0x7D220026#32 = .error (.outsideSpec 0x7D220026#32) ∧
    decodeWord 0x79320026#32 = .error (.outsideSpec 0x79320026#32) ∧ decodeWord 0x7C0802A6#32 = .error (.outsideSpec 0x7C0802A6#32) := by decide
theorem test_decode_table_word : decodeTableWord 32 0x7C100026 = some (.mfocr 0 0x00#8) ∧ decodeTableWord 32 0x7D320026 = some (.mfocr 9 0x20#8) ∧
    decodeTableWord 32 0x7D320027 = none := by decide
/-- 20_memory.md R26: the first byte of a big-endian word is its most significant, of a little-endian word its least significant. -/
theorem test_decode_bytes : decodeBytes .be [0x7D, 0x32, 0x00, 0x26] = .ok (.mfocr 9 0x20#8, []) ∧
    decodeBytes .le [0x26, 0x00, 0x32, 0x7D] = .ok (.mfocr 9 0x20#8, []) ∧ decodeBytes .le [0x26, 0x00] = .error .tooShort := by decide
theorem test_encode_E1_E7 : encode (.mfocr 9 0x20#8) = 0x7D320026#32 ∧ encode (.mfocr 31 0x02#8) = 0x7FF02026#32 := by decide
theorem test_assembler_text : assemblerText (.mfocr 9 0x20#8) = "mfocr r9,0x20" := by decide
theorem test_low_half : lowHalf 0x123456789ABCDEF0 = 0xDEF0#16 := by decide

/-! ## Well-formedness: each check refuses an ill-formed term -/

theorem test_wf_valid_form : (Instr.mfocr 3 0x20#8).validForm = true := by decide
theorem test_wf_invalid_forms : (Instr.mfocr 3 0x00#8).validForm = false ∧ (Instr.mfocr 3 0xFF#8).validForm = false ∧
    (Instr.mfocr 3 0x30#8).validForm = false := by decide
theorem test_wf_demo : demoParams.wf = true := by decide
theorem test_wf_toc_offset : { demoParams with tocSaveOffset := 20 }.tocOffsetOk = false := by decide
theorem test_wf_memmap : { demoParams with memmap := [⟨.data, 0xFFFFFFFFFFFFFFFF, 2⟩] }.memmapOk = false := by decide
theorem test_wf_fns : { demoParams with fns := [fnG, fnG] }.fnsOk = false ∧ { demoParams with tocBases := [(1, 0), (1, 8)] }.fnsOk = false := by decide
theorem test_wf_mode : { demoParams with processor := some .power8, mfocrMode := some .zero }.modeOk = false ∧
    { demoParams with processor := some .power9, mfocrMode := some .p8Replicate }.modeOk = false ∧
    { demoParams with processor := some .otherOpenPower, mfocrMode := some .p8Replicate }.modeOk = false := by decide
theorem test_wf_actions_twice : { demoParams with actions := [(0, .saveToc), (0, .reloadToc)] }.actionsOk = false := by decide
theorem test_wf_actions_grid : { demoParams with actions := [(2, .saveToc)] }.actionsOk = false ∧
    { demoParams with actions := [(2 ^ 64, .saveToc)] }.actionsOk = false := by decide
theorem test_wf_call_target : { demoParams with actions := [(0, .call { cross with target := 2 })] }.actionsOk = false ∧
    { demoParams with actions := [(0, .callOpaque { cross with ret := 6 })] }.actionsOk = false := by decide
/-- R47: NONGLOBAL entry from another module. -/
theorem test_wf_entry_kind : { demoParams with actions := [(0, .call { cross with kind := .nonglobalEntry })] }.actionsOk = false := by decide
theorem test_wf_text : { demoParams with tocUses := [⟨0, 1, [8, 12]⟩] }.textOk = false ∧ { demoParams with tocUses := [⟨0, 1, [8, 8]⟩, ⟨4, 1, []⟩] }.textOk = true := by decide
theorem test_wf_reset : Params.reset.wf = true ∧ Memory.wf State.reset.mem := by decide

/-! ## mfocr: what Fill gives (V-M1, V-M2, V-M6 to V-M8, V-M12), and one step -/

theorem test_fill_M1_zero : fill .zero 0 0x12345678#32 false 0 = 0x10000000#64 ∧ fill .zero 7 0x12345678#32 false 0 = 0x8#64 := by decide
theorem test_fill_M1_arch : fill .arch 2 0x12345678#32 false 0 = 0x12345678#64 := by decide
theorem test_fill_M1_p8 : fill .p8Replicate 0 0x12345678#32 false 0 = 0x11000000#64 ∧ fill .p8Replicate 1 0x12345678#32 false 0 = 0x22000000#64 ∧
    fill .p8Replicate 7 0x12345678#32 false 0 = 0x88#64 := by decide
theorem test_fill_M2_p8 : fill .p8Replicate 4 0x8421C3A5#32 false 0 = 0xCC00#64 ∧ fill .p8Replicate 5 0x8421C3A5#32 false 0 = 0x3300#64 := by decide
/-- V-M6: UNION is ABI_ANY's one value, or POWER8's. -/
theorem test_fill_M6_union : fill .union 2 0x00300000#32 false 0xFFFFFFFF#32 = 0x00300000#64 ∧ fill .union 2 0x00300000#32 true 0 = 0x00330000#64 := by decide
/-- V-M7: the free mask lets the partner field show through. -/
theorem test_fill_M7_any : fill .abiAny 3 0x00300000#32 false 0xFFEFFFFF#32 = 0x00200000#64 := by decide
theorem test_fill_M11_masked : maskField 2 0x00330000#64 = 0x00300000#64 ∧ maskField 2 0x12345678#64 = 0x00300000#64 := by decide
/-- V-M12 on POWER8: the unmasked OR is wrong in both nibbles. -/
theorem test_fill_M12_p8 : fill .p8Replicate 2 0x12345678#32 false 0 ||| fill .p8Replicate 3 0x12345678#32 false 0 = 0x00770000#64 := by decide
/-- V-M3 under ZERO, by one step from the program text. -/
theorem test_mfocr_step :
    after (step ({ demo 0x10000100 with params := { demoParams with mfocrMode := some .zero } }))
      (fun t => decide (t.x 8 = 0x0000000000300000#64 ∧ t.pc = 0x10000104 ∧ t.regs.cr = 0x12345678#32)) = true := by decide
/-- V-M12's reserved targets: r13, and r1 with a value that is the address of no frame (ZERO, so the value is known). -/
theorem test_mfocr_reserved_targets :
    after (exec (.mfocr 13 0x20#8) (demo 0)) (fun t => decide (t.th.breaches = [.reservedRegister .r13])) = true ∧
    after (exec (.mfocr 1 0x20#8) { demo 0 with params := { demoParams with mfocrMode := some .zero } })
      (fun t => decide (t.th.breaches = [.abiViolation .spNotFrame] ∧ t.x 1 = 0x00300000#64)) = true := by decide

/-- The host's two questions on the row of the opcode table. -/
theorem test_reset_runs_table_word :
    after (step (State.reset.withFetchWord 32 0x7C100026))
      (fun t => decide (t.pc = 4)) = true := by decide

/-! ## The contract: V-C1 to V-C20 -/

/-- The verdict on a Return of `callee` with the registers `r`. -/
def verdict (callee : Nat) (r : Regs) : List AbiRule :=
  calleeBreaches demoParams (entered callee 0x10000100) { (inside callee 0x10000100).th with regs := r }

def atEntry : Regs := demoRegs 0x10000100

theorem test_contract_C1 : verdict 2 { (((atEntry.setX 3 0x2A).setX 0 1).setX 11 1).setX 12 9 with lr := 1, ctr := 2, xer := 3 } = [] := by decide
theorem test_contract_C2 : verdict 2 (atEntry.setX 14 0x1112) = [.returnGpr] := by decide
theorem test_contract_C4_C6 : verdict 2 { atEntry with cr := 0xFF345FFF#32 } = [] ∧ verdict 2 { atEntry with cr := 0x12345778#32 } = [] := by decide
theorem test_contract_C5 : verdict 2 { atEntry with cr := 0x12355678#32 } = [.returnCr] := by decide
theorem test_contract_C7_C8 : verdict 2 (atEntry.setX 2 0) = [] ∧ verdict 3 (atEntry.setX 2 0) = [.returnToc] := by decide
theorem test_contract_C9 : verdict 2 (atEntry.setX 1 0x7FFFFFFFDFD0) = [.returnSp] := by decide
theorem test_contract_C10_C11 : verdict 2 (atEntry.setVs 14 0x0000000000000000BBBBBBBBBBBBBBBB#128) = [] ∧
    verdict 2 (atEntry.setVs 14 0x00000000000000010000000000000000#128) = [.returnFpr] := by decide
theorem test_contract_C12_C15 : verdict 2 (((atEntry.setVs 13 5#128).setVs 51 5#128).setVs 32 5#128) = [] := by decide
theorem test_contract_C13 : verdict 2 (atEntry.setVs 52 1#128) = [.returnVr] := by decide
theorem test_contract_C16_C17 : ((demo 0).writeGpr 13 0x7FFFF7FF7000).th.breaches = [.reservedRegister .r13] ∧ (demo 0).x 13 = 0x7FFFF7FF7000 := by decide
theorem test_contract_C18 : (demo 0).readTar.2.th.breaches = [.reservedRegister .tar] ∧ ((demo 0).writeVrsave 0).th.breaches = [.reservedRegister .vrsave] := by decide
theorem test_contract_C19 : verdict 2 { atEntry with fpscr := 3 } = [] := by decide
/-- R44 under NONVOLATILE_LIKE (G15): RN, DRN and NJ are held, a bit no row names is not. -/
theorem test_limited_access : limitedKept { demoParams with limitedAccessPolicy := .nonvolatileLike } 2 atEntry { atEntry with fpscr := 3 } = false ∧
    limitedKept { demoParams with limitedAccessPolicy := .nonvolatileLike } 2 atEntry { atEntry with vscr := 0x00010000#32 } = false ∧
    limitedKept { demoParams with limitedAccessPolicy := .nonvolatileLike } 2 atEntry { atEntry with fpscr := 0x400#64, vscr := 1#32 } = true := by decide
/-- R44 under NONVOLATILE_LIKE: callee 2's documented purpose is to change RN, and RN alone. -/
def roundingSetter : Params := { demoParams with limitedAccessPolicy := .nonvolatileLike, fns := [fnG, { fnF with changesOnPurpose := [.fpscr .rn] }, fnH] }
theorem test_limited_on_purpose : limitedKept roundingSetter 2 atEntry { atEntry with fpscr := 3 } = true ∧ limitedKept roundingSetter 3 atEntry { atEntry with fpscr := 3 } = false ∧
    limitedKept roundingSetter 2 atEntry { atEntry with dscr := 1 } = false ∧ limitedKept roundingSetter 2 atEntry { atEntry with fpscr := 0x83 } = false ∧
    limitedKept roundingSetter 2 atEntry { atEntry with vscr := 0x00010000#32 } = false ∧
    fpscrHeldMask roundingSetter 2 = 0x00000007000000F8#64 ∧ fpscrHeldMask roundingSetter 3 = fpscrLimitedMask ∧ fpscrHeldMask demoParams 2 = 0 := by decide
/-- R80's lines about the whole execution: marks left since entry, the latest first, or r1's value on entry. -/
def verdictOn (bs : List Breach) (sp : Word) : List AbiRule :=
  calleeBreaches demoParams { entered 2 0x10000100 with entry := atEntry.setX 1 sp }
    { (inside 2 0x10000100).th with regs := atEntry.setX 1 sp, breaches := bs }
/-- r1 misaligned on entry or at a later moment, above its entry value at one, r13 written, TAR or VRSAVE accessed, a Call of its own (it is at depth 1) that failed. -/
theorem test_contract_whole_execution : verdictOn [] 0x7FFFFFFFE008 = [.returnSpMoment] ∧ verdictOn [.abiViolation .spMisaligned] 0x7FFFFFFFE000 = [.returnSpMoment] ∧
    verdictOn [.abiViolation (.spRaised 0x7FFFFFFFE010)] 0x7FFFFFFFE000 = [.returnSpMoment] ∧ verdictOn [.reservedRegister .r13] 0x7FFFFFFFE000 = [.returnThreadPointer] ∧
    verdictOn [.reservedRegister .vrsave] 0x7FFFFFFFE000 = [.returnSystemRegister] ∧ verdictOn [.failedCall .tocNotSaved 1] 0x7FFFFFFFE000 = [.returnOwnCall] := by decide
/-- No line of R80: a use of r2 without its TOC pointer, a frame, a back chain, a Return and a failed Call of a function that was called, and a raise above that function's entry value alone. -/
theorem test_contract_other_marks : verdictOn [.abiViolation .textTocUnavailable, .abiViolation .spNotFrame, .abiViolation .backChainBroken, .abiViolation .returnGpr,
    .failedCall .tocIllegal 2, .abiViolation (.spRaised 0x7FFFFFFFE000)] 0x7FFFFFFFE000 = [] := by decide
/-- V-C20: control goes to entry's LR, whatever LR holds now. -/
theorem test_return_C20 :
    after (perform (.ret 2) ((inside 2 0x20000A40).writeLr 0x999))
      (fun t => decide (t.pc = 0x10000478 ∧ t.regs.lr = 0x999 ∧ t.th.breaches = [] ∧ t.th.activations = [])) = true := by decide

/-! ## Linkage: P3 step 3, P4a, V-L1, V-L3, V-L4 -/

/-- R45: entry(f) is the state after the Call: registers, memory and BaseISA's further state. -/
theorem test_call_entry :
    after (perform (.call cross) { demo 0x10000474 with memGen := 3, baseShared := [41] })
      (fun t => match t.th.activations with
        | [a] => decide (a.entry.pc = 0x20000A40 ∧ a.entryMem = demoMem ∧ a.entryMemGen = 3 ∧ a.entryBase = ⟨[], [41]⟩ ∧ a.pre.pc = 0x10000474)
        | _ => false) = true := by decide

theorem test_call_P3 :
    after (step (demo 0x10000474))
      (fun t => decide (t.pc = 0x20000A40 ∧ t.regs.lr = 0x10000478 ∧ t.x 12 = 0x20000A40 ∧ t.x 1 = 0x7FFFFFFFE000 ∧ t.th.breaches = [])) = true := by decide
/-- P4a: the doubleword does not hold r2. -/
theorem test_call_P4a : callBreaches cross ((demo 0).storeValue 0x7FFFFFFFE018 8 0) = [.tocNotSaved] := by decide
theorem test_call_L3 : callBreaches cross ((demo 0).setRegs ((demoRegs 0).setX 12 0x20000A44)) = [.entryAddress] := by decide
theorem test_call_L4 : (entryRegs near (demoRegs 0) 1 2 3).x 11 = 0x55 ∧ (entryRegs near (demoRegs 0) 1 2 3).x 12 = 3 := by decide
theorem test_toc_P3 :
    after (perform .saveToc (demo 0)) (fun t => decide (t.contentWord 0x7FFFFFFFE018 = 0x10027F00)) = true ∧
    after (step (demo 0x10000478)) (fun t => decide (t.x 2 = 0x10027F00 ∧ t.pc = 0x1000047C)) = true := by decide

/-- R64, 93 U18: a call that may leave the module comes back and its caller owes the reload, which the step after it makes (P3); a call inside the module owes none. -/
theorem test_reload_owed :
    after (perform (.ret 2) (inside 2 0x20000A40)) (fun t => t.th.reloadOwed && after (step t) fun u => !u.th.reloadOwed) = true ∧
    after (perform (.callOpaque cross) (demo 0x10000480)) (fun t => t.th.reloadOwed) = true ∧
    after (perform (.ret 3) { inside 3 0x1000010C with th := { (inside 3 0x1000010C).th with activations := [{ entered 3 0x1000010C with kind := .nonglobalEntry }] } })
      (fun t => !t.th.reloadOwed) = true := by decide
/-- Without the reload the caller is marked at its next Call and at its Return. -/
theorem test_reload_missing :
    after (perform (.call cross) ((demo 0x10000474).setReloadOwed true)) (fun t => decide (t.th.breaches = [.abiViolation .tocNotReloaded]) && !t.th.reloadOwed) = true ∧
    after (perform (.ret 2) ((inside 2 0x20000A40).setReloadOwed true)) (fun t => decide (t.th.breaches = [.abiViolation .tocNotReloaded])) = true := by decide

/-! ## The stack: V-S1 to V-S8 -/

/-- What lowering r1 by `n` in the running function breaks. -/
def lowering (s : State) (n : Word) : List AbiRule := s.th.allocBreaches s.params (s.x 1 - n)

theorem test_stack_S1_S2 : lowering (inside 2 0) 32 = [] ∧ lowering (inside 2 0) 48 = [] := by decide
theorem test_stack_S3_S4 : lowering (inside 2 0) 40 = [.spMisaligned] ∧ lowering (inside 2 0) 8 = [.spMisaligned] := by decide
theorem test_stack_S5 : .spRaised 0x7FFFFFFFE010 ∈ (inside 2 0).th.jumpBreaches 0x7FFFFFFFE010 := by decide
theorem test_stack_S7 : AbiRule.spWraps ∈ lowering ((inside 2 0).setRegs ((demoRegs 0).setX 1 0x20)) 48 := by decide
/-- V-S8: the word at the new r1 is the address of the caller's frame. -/
theorem test_stack_S8 :
    after (perform (.allocFrame 16) (inside 2 0))
      (fun t => decide (t.x 1 = 0x7FFFFFFFDFF0 ∧ t.contentWord 0x7FFFFFFFDFF0 = 0x7FFFFFFFE000 ∧ t.th.breaches = [] ∧
        t.th.frames = [0x7FFFFFFFDFF0, 0x7FFFFFFFE000, 0x7FFFFFFFE080])) = true := by decide

/-- Regions: an access outside MEMMAP, a write to program text, a misaligned slot (R32, R31, R28). -/
theorem test_memory_refusals : ((demo 0).memWrite 0x30000000 8 0).toOption.isNone = true ∧ ((demo 0).memWrite 0x10000000 4 0).toOption.isNone = true ∧
    ((demo 0).writeSlot 0x7FFFFFFFE004 0).toOption.isNone = true ∧ ((demo 0).writeSlot 0x7FFFFFFFE008 0).toOption.isSome = true := by decide

/-! ## Parameters: V-D1 to V-D4, V-X1 to V-X4 -/

theorem test_dfp_D1_D2 : placeDfp .quad ⟨2, [], 0⟩ = some ([2, 3], ⟨4, [], 2⟩) ∧ placeDfp .quad ⟨1, [], 0⟩ = some ([2, 3], ⟨4, [1], 2⟩) := by decide
theorem test_dfp_D3 : placeDfps [.double, .quad] ⟨1, [], 0⟩ = some ([[1], [2, 3]], ⟨4, [], 3⟩) := by decide
theorem test_dfp_D4 : placeDfps [.quad, .double, .quad] ⟨1, [], 0⟩ = some ([[2, 3], [4], [6, 7]], ⟨8, [1, 5], 5⟩) := by decide
theorem test_binary128_X1 : placeBinary128 2 = some (2, 3) ∧ placeBinary128 13 = some (13, 14) ∧ placeBinary128 14 = none := by decide
theorem test_ibm_X2_to_X4 : placeIbmExtended 1 (.gpr 9) = some (.fpr 1, .fpr 2, 3) ∧ placeIbmExtended 2 (.gpr 9) = some (.fpr 2, .fpr 3, 4) ∧
    placeIbmExtended 13 (.gpr 9) = some (.fpr 13, .gpr 9, 14) ∧ placeIbmExtended 13 (.fpr 14) = none := by decide

/-! ## Views of one register (10_state.md R16, R17, R12) -/

theorem test_views : ((demo 0).writeVr 20 7#128).regs.vs 52 = 7#128 ∧ ((demo 0).writeVsr 3 0x11#128).regs.f 3 = 0 ∧
    ((demo 0).writeVsr 3 0x00000000000000110000000000000000#128).regs.f 3 = 0x11 := by decide
theorem test_cr_bytes : crf 0x12345678#32 0 = 1#4 ∧ crf 0x12345678#32 7 = 8#4 ∧ crByte 0x12345678#32 1 = 0x34#8 ∧ partner 2 = 3 ∧
    setCrf 0x12345678#32 3 0xF#4 = 0x123F5678#32 := by decide

/-! ## Witnesses: a concrete state and operands that meet all the hypotheses of a statement, for each clause -/

theorem next_of_after {r : Result} {ok : State → Bool} (h : after r ok = true) : ∃ t, r = .next t ∧ ok t = true := by
  cases r with
  | next t => exact ⟨t, rfl, h⟩
  | fault _ => exact absurd h (by simp [after])
  | refused _ => exact absurd h (by simp [after])

/-- An access answers a state of which `ok` holds. -/
def okAnd {α : Type} (r : Except Refusal α) (ok : α → Bool) : Bool :=
  match r with
  | .ok a => ok a
  | .error _ => false

theorem ok_of_okAnd {α : Type} {r : Except Refusal α} {ok : α → Bool} (h : okAnd r ok = true) : ∃ a, r = .ok a ∧ ok a = true := by
  cases r with
  | ok a => exact ⟨a, rfl, h⟩
  | error _ => exact absurd h (by simp [okAnd])

theorem demo_stack (pc : Word) : StackHolds (demo pc).th :=
  ⟨(by decide : (0x7FFFFFFFE000 : Word).toNat % 16 = 0), rfl,
    (by decide : [(0x7FFFFFFFE000 : Word), 0x7FFFFFFFE080].Pairwise fun u v => u.toNat < v.toNat),
    (by simp : ∀ f ∈ [(0x7FFFFFFFE000 : Word), 0x7FFFFFFFE080], f.toNat % 16 = 0),
    (fun _ h => absurd h List.not_mem_nil), List.Pairwise.nil, rfl⟩

theorem demo_chain (pc : Word) : BackChainsHold (demo pc) :=
  ((backChainsOk_iff (demo 0)).mp (by decide)).of_same rfl rfl rfl rfl

/-- The caller meets the invariant. -/
theorem demo_inv (pc : Word) (h : pc.toNat % 4 = 0) : Inv (demo pc) :=
  ⟨⟨(by decide : Memory.wf demoMem), (by decide : 0#64 &&& ~~~fpscrMask demoParams = 0#64), h, (by decide : demoParams.wf = true),
    (fun _ h => absurd h List.not_mem_nil), fun _ => demo_stack pc⟩, fun _ => demo_chain pc⟩

/-- So does the callee just entered. -/
theorem inside_inv (callee : Nat) (pc : Word) (h : pc.toNat % 4 = 0) : Inv (inside callee pc) := by
  refine ⟨⟨(by decide : Memory.wf demoMem), (by decide : 0#64 &&& ~~~fpscrMask demoParams = 0#64), h, (by decide : demoParams.wf = true), fun a ha => ?_,
    fun _ => ⟨(demo_stack pc).aligned, rfl, (demo_stack pc).rising, (demo_stack pc).framesAligned, fun a ha => ?_, ?_, rfl⟩⟩,
    fun _ => (demo_chain pc).of_same rfl rfl rfl rfl⟩
  · obtain rfl := List.mem_singleton.mp ha
    exact ⟨rfl, (by decide : (0x10000478 : Word).toNat % 4 = 0), fun _ _ _ _ => rfl, rfl, rfl⟩
  · obtain rfl := List.mem_singleton.mp ha
    exact Nat.le_refl _
  · exact List.pairwise_singleton _ _

/-- A state at the low end of the address space: r1 = 16 in the reset memory map. -/
def lowStack : State :=
  { State.reset with th := { Thread.reset with regs := Regs.reset.setX 1 16, frames := [16] } }

theorem lowStack_inv : Inv lowStack :=
  ⟨⟨by decide, by decide, (by decide : (0 : Nat) % 4 = 0), by decide, (fun _ h => absurd h List.not_mem_nil),
    fun _ => ⟨by decide, by decide, by decide, (by simp : ∀ f ∈ [(16 : Word)], f.toNat % 16 = 0), (fun _ h => absurd h List.not_mem_nil), List.Pairwise.nil, by decide⟩⟩,
    fun _ => (backChainsOk_iff _).mp (by decide)⟩

/-! ### Encoding, fetch and step -/

/-- A state whose next fetch finds `w`. -/
def holding (w : InsnWord) : State := placeWord (demo 0x10000200) w

theorem test_witness_reserved_bit_words :
    (0x7D320027#32 = encode (.mfocr 9 0x20#8) ||| 0x1#32 ∧ actionAt (holding 0x7D320027#32) = none ∧ fetch (holding 0x7D320027#32) = .ok 0x7D320027#32) ∧
    (0x7D320826#32 = encode (.mfocr 9 0x20#8) ||| 0x800#32 ∧ actionAt (holding 0x7D320826#32) = none ∧ fetch (holding 0x7D320826#32) = .ok 0x7D320826#32) ∧
    0x7D320827#32 = encode (.mfocr 9 0x20#8) ||| 0x801#32 := by decide

theorem test_witness_foreign_words :
    (∀ i : Instr, 0x7D220026#32 &&& 0xFFFFF7FE#32 ≠ encode i) ∧ actionAt (holding 0x7D220026#32) = none ∧ fetch (holding 0x7D220026#32) = .ok 0x7D220026#32 := by
  refine ⟨fun i h => ?_, by decide, by decide⟩
  cases i with
  | mfocr rt fxm =>
    have := encode_mfocr_match rt fxm
    rw [← h] at this
    exact absurd this (by decide)

/-- A small BaseISA: 1 adds TAR to r13, 2 loads the doubleword at r1 into r5 and stores it at r1 + 8, 3 takes a frame of 32 bytes with its back chain, 4 takes one without,
5 copies r3 to r4, 6 writes f3, 7 loads where a reservation of its own is held into r5, holds one at r1 and adds 1 to a counter of all threads, 8 copies r3 to TAR, 9 loads the doubleword at r1 + 24 into r2. Any other word raises an exception. -/
def smallBase : BaseISA where
  reads w := if w = 1#32 then [.tar, .r13] else []
  writes w := if w = 1#32 then [.r13] else if w = 8#32 then [.tar] else []
  fprs w := if w = 6#32 then [3] else []
  loads w r f := if w = 2#32 then [(r.x 1, 8)] else if w = 9#32 then [(r.x 1 + 24, 8)] else if w = 7#32 then f.own.map fun a => (BitVec.ofNat 64 a, 8) else []
  run w r f l _ :=
    if w = 1#32 then .effect { r.setX 13 (r.tar + r.x 13) with pc := r.pc + 4 } f []
    else if w = 2#32 then .effect { r.setX 5 (BitVec.ofNat 64 (l.headD 0)) with pc := r.pc + 4 } f [⟨r.x 1 + 8, 8, l.headD 0⟩]
    else if w = 3#32 then .effect { r.setX 1 (r.x 1 - 32) with pc := r.pc + 4 } f [⟨r.x 1 - 32, 8, (r.x 1).toNat⟩]
    else if w = 4#32 then .effect { r.setX 1 (r.x 1 - 32) with pc := r.pc + 4 } f []
    else if w = 5#32 then .effect { r.setX 4 (r.x 3) with pc := r.pc + 4 } f []
    else if w = 6#32 then .effect { r.setVs 3 (0x1111#64 ++ 0x2222#64) with pc := r.pc + 4 } f []
    else if w = 7#32 then .effect { r.setX 5 (BitVec.ofNat 64 (l.headD 0)) with pc := r.pc + 4 } ⟨[(r.x 1).toNat], f.shared.map (· + 1)⟩ []
    else if w = 8#32 then .effect { r with tar := r.x 3, pc := r.pc + 4 } f []
    else if w = 9#32 then .effect { r.setX 2 (BitVec.ofNat 64 (l.headD 0)) with pc := r.pc + 4 } f []
    else .exception

/-- R43: reading TAR and writing r13 leave a mark each, reading r13 none. -/
theorem test_base_reserved : after (runBase smallBase 1#32 (demo 0x10000200))
    (fun t => decide (t.th.breaches = [.reservedRegister .tar, .reservedRegister .r13] ∧ t.x 13 = 0x7FFFF7FF7000)) = true := by decide
/-- R30: a load sees what was stored before. -/
theorem test_base_load_store : after (runBase smallBase 2#32 (demo 0x10000200))
    (fun t => decide (t.x 5 = 0x7FFFFFFFE080 ∧ t.contentWord 0x7FFFFFFFE008 = 0x7FFFFFFFE080 ∧ t.th.breaches = [])) = true := by decide
/-- R23: a BaseISA's further state, its own for the thread and one for all: with a reservation held, the load is made there, and both states are what the instruction leaves. -/
theorem test_base_further : after (runBase smallBase 7#32 { (demo 0x10000200) with th := { (demo 0x10000200).th with baseOwn := [0x7FFFFFFFE018] }, baseShared := [41] })
    (fun t => decide (t.x 5 = 0x10027F00 ∧ t.baseState = ⟨[0x7FFFFFFFE000], [42]⟩)) = true := by decide
/-- R64: an instruction that loads the doubleword at r1 + TOC_SAVE_OFFSET into r2 is the reload; one that loads another is not. -/
theorem test_base_reload : after (runBase smallBase 9#32 ((demo 0x10000200).setReloadOwed true)) (fun t => decide (t.x 2 = 0x10027F00 ∧ t.th.reloadOwed = false)) = true ∧
    after (runBase smallBase 2#32 ((demo 0x10000200).setReloadOwed true)) (fun t => t.th.reloadOwed) = true := by decide
/-- R18: a word that names f3 as written through the floating-point view; the left half is what it wrote (the right half, a draw, is FloatAndVectorViewsShareTheFile's). -/
theorem test_base_fpr : 3 ∈ smallBase.fprs 6#32 ∧ after (runBase smallBase 6#32 (demo 0x10000200)) (fun t => decide (t.regs.f 2 = 0)) = true ∧
    (drawRightHalves (smallBase.fprs 6#32) 0 ((demoRegs 0).setVs 3 (0x1111#64 ++ 0x2222#64))).f 3 = 0x1111 :=
  ⟨by decide, by decide, (drawRightHalves_f _ _ _ _).trans (by decide)⟩
/-- R78: a frame taken with its back chain in the same step is unmarked, one without is marked. -/
theorem test_base_frame : after (runBase smallBase 3#32 (demo 0x10000200))
    (fun t => decide (t.th.frames = [0x7FFFFFFFDFE0, 0x7FFFFFFFE000, 0x7FFFFFFFE080] ∧ t.th.breaches = [])) = true ∧
    ∃ t, runBase smallBase 4#32 (demo 0x10000200) = .next t :=
  ⟨by decide, (next_of_after (ok := fun _ => true) (by decide)).imp fun _ h => h.1⟩
def refusedAs (r : Result) (e : Refusal) : Bool :=
  match r with
  | .next _ => false
  | .fault _ => false
  | .refused f => f == e
/-- D5, D6, R21: a store to program text and one outside MEMMAP are refused, and so is an instruction that leaves pc off the grid. -/
theorem test_base_refusals :
    refusedAs (runBase { smallBase with run := fun _ r f _ _ => .effect r f [⟨0x10000000, 4, 0⟩] } 5#32 (demo 0x10000200)) .writeToCode = true ∧
    refusedAs (runBase { smallBase with run := fun _ r f _ _ => .effect r f [⟨0x30000000, 4, 0⟩] } 5#32 (demo 0x10000200)) .unallocated = true ∧
    refusedAs (runBase { smallBase with run := fun _ r f _ _ => .effect { r with pc := 2 } f [] } 5#32 (demo 0x10000200)) .fetchMisaligned = true := by decide

/-- The demo state at 0x10000200 with r1 misaligned. -/
def offGrid : State := (demo 0x10000200).setRegs ((demoRegs 0x10000200).setX 1 0x7FFFFFFFE004)
def storing (b : Regs → BaseStore) : BaseISA := { smallBase with run := fun _ r f _ _ => .effect r f [b r] }
/-- R28, D4: at r1 and at r1 + TOC_SAVE_OFFSET a misaligned doubleword that an instruction of BaseISA loads or stores is refused, the new r1 being the one a store is held to (P3 step 5).
Log entries 18, 28: 4 bytes there, a misaligned doubleword at another place, and one of a parameter in memory are stored. -/
theorem test_misaligned : okAnd (passDouble (.memory 0x7FFFFFFFE021) 1 (demo 0)) (fun t => decide (t.contentWord 0x7FFFFFFFE021 = 1)) = true ∧
    refusedAs (runBase (storing fun r => ⟨r.x 1, 8, 5⟩) 5#32 offGrid) .slotMisaligned = true ∧
    refusedAs (runBase (storing fun r => ⟨r.x 1 + 24, 8, 5⟩) 5#32 offGrid) .slotMisaligned = true ∧
    refusedAs (runBase smallBase 3#32 offGrid) .slotMisaligned = true ∧
    refusedAs (runBase smallBase 2#32 offGrid) .slotMisaligned = true ∧ refusedAs (runBase smallBase 9#32 offGrid) .slotMisaligned = true ∧
    after (runBase (storing fun r => ⟨r.x 1, 4, 5⟩) 5#32 offGrid) (fun t => decide (t.byteAt 0x7FFFFFFFE004 = 5)) = true ∧
    after (runBase (storing fun r => ⟨r.x 1 + 8, 8, 5⟩) 5#32 offGrid) (fun t => decide (t.contentWord 0x7FFFFFFFE00C = 5)) = true ∧
    okAnd ((demo 0).writeSlot 0x7FFFFFFFE004 5) (fun _ => true) = false := by decide

/-- An exception, a word BaseISA does not know, and an instruction without accesses (r4 <- r3). -/
theorem test_witness_base_answers : (∀ r f, smallBase.loads 0x7D220026#32 r f = []) ∧ (∀ r f l d, smallBase.run 0x7D220026#32 r f l d = .exception) ∧
    (∀ r f l d, noBaseISA.run 0x7D220026#32 r f l d = .outside) ∧
    (∀ q f l d, smallBase.run 5#32 q f l d = .effect { q.setX 4 (q.x 3) with pc := q.pc + 4 } f []) ∧ smallBase.reads 5#32 = [] ∧ smallBase.writes 5#32 = [] ∧ smallBase.fprs 5#32 = [] ∧
    actionAt (holding 5#32) = none ∧ fetch (holding 5#32) = .ok 5#32 ∧ (0x10000200 + 4 : Word).toNat % 4 = 0 :=
  ⟨fun _ _ => rfl, fun _ _ _ _ => rfl, fun _ _ _ _ => rfl, fun _ _ _ _ => rfl, rfl, rfl, rfl, by decide, by decide, by decide⟩

theorem test_witness_step_runs_decoded : actionAt (demo 0x10000100) = none ∧ (demo 0x10000100).pc.toNat % 4 = 0 ∧
    (∀ k < 4, holdsCode (demo 0x10000100).params ((demo 0x10000100).pc.toNat + k) = true) ∧
    textBytes (demo 0x10000100).mem (demo 0x10000100).pc.toNat 4 = some [0x26, 0x00, 0x12, 0x7D] ∧
    decodeBytes (demo 0x10000100).params.byteOrder [0x26, 0x00, 0x12, 0x7D] = .ok (.mfocr 8 0x20#8, []) := by decide

theorem test_witness_step_performs_action : actionAt (demo 0x10000474) = some (.call cross) ∧ actionAt (demo 0x10000478) = some .reloadToc := by decide

/-- The clauses at their boundaries: 2^64 - 3 wraps, 2^64 - 5 is off the grid, 2^64 - 4 is on it and no code; the last word of a code region is code and not given;
the word at r1 is known and no code. -/
theorem test_witness_fetch_stops :
    (actionAt (demo 0xFFFFFFFFFFFFFFFD) = none ∧ 2 ^ 64 - 4 < (demo 0xFFFFFFFFFFFFFFFD).pc.toNat) ∧
    (actionAt (demo 0xFFFFFFFFFFFFFFFB) = none ∧ (demo 0xFFFFFFFFFFFFFFFB).pc.toNat ≤ 2 ^ 64 - 4 ∧ (demo 0xFFFFFFFFFFFFFFFB).pc.toNat % 4 ≠ 0) ∧
    (actionAt (demo 0xFFFFFFFFFFFFFFFC) = none ∧ (demo 0xFFFFFFFFFFFFFFFC).pc.toNat % 4 = 0 ∧
      ∃ k < 4, holdsCode (demo 0xFFFFFFFFFFFFFFFC).params ((demo 0xFFFFFFFFFFFFFFFC).pc.toNat + k) = false) ∧
    (actionAt (demo 0x10000FFC) = none ∧ (∀ k < 4, holdsCode (demo 0x10000FFC).params ((demo 0x10000FFC).pc.toNat + k) = true) ∧
      ∃ k < 4, Memory.get (demo 0x10000FFC).mem ((demo 0x10000FFC).pc.toNat + k) = none) ∧
    (actionAt (demo 0x7FFFFFFFE000) = none ∧ (textBytes (demo 0x7FFFFFFFE000).mem (demo 0x7FFFFFFFE000).pc.toNat 4).isSome = true ∧
      ∃ k < 4, holdsCode (demo 0x7FFFFFFFE000).params ((demo 0x7FFFFFFFE000).pc.toNat + k) = false) := by decide

/-! ### mfocr -/

theorem test_witness_invalid_forms : (Instr.mfocr 0 0x00#8).validForm = false ∧ (Instr.mfocr 31 0xFF#8).validForm = false ∧
    (Instr.mfocr 13 0x03#8).validForm = false := by decide

theorem test_witness_mfocr_frame : (∃ t, exec (.mfocr 9 0x20#8) (demo 0) = .next t) ∧ (∃ t, exec (.mfocr 1 0x01#8) (demo 0) = .next t) ∧
    ∃ t, exec (.mfocr 13 0x80#8) (demo 0) = .next t := ⟨⟨_, rfl⟩, ⟨_, rfl⟩, ⟨_, rfl⟩⟩

def onProcessor (p : Processor) : State := { demo 0 with params := { demoParams with processor := some p } }

theorem test_witness_power9 : (onProcessor .power9).params.processor = some .power9 ∧ (onProcessor .power9).params.mfocrMode = none ∧
    (onProcessor .otherOpenPower).params.processor = some .otherOpenPower ∧ (onProcessor .otherOpenPower).params.mfocrMode = none ∧
    (demo 0).params.processor = none ∧ (demo 0).params.mfocrMode = none := by decide
/-- R87's last paragraph: the mode that follows from PROCESSOR. -/
theorem test_mode_of_processor : mfocrModeOf (onProcessor .power8).params = .p8Replicate ∧ mfocrModeOf (onProcessor .power9).params = .abiAny ∧
    mfocrModeOf (onProcessor .otherOpenPower).params = .abiAny ∧ mfocrModeOf (demo 0).params = .union := by decide
theorem test_witness_power8 : (onProcessor .power8).params.processor = some .power8 ∧ (onProcessor .power8).params.mfocrMode = none := by decide

/-- V-M12, ARCH and ZERO: two compliant results; bit 20 is in a field read, bit 0 in none. -/
theorem test_witness_or_of_compliant :
    (∀ p ∈ [((2 : Fin 8), 0x12345678#64), (3, 0x00040000#64)], CompliantFill p.1 0x12345678#32 p.2) ∧
    (∃ p ∈ [((2 : Fin 8), 0x12345678#64), (3, 0x00040000#64)], inField p.1 20 = true) ∧
    ¬ ∃ p ∈ [((2 : Fin 8), 0x12345678#64), (3, 0x00040000#64)], inField p.1 0 = true := by
  refine ⟨fun p hp => ?_, by decide, by decide⟩
  rcases List.mem_cons.mp hp with rfl | hp
  · exact ⟨by decide, by decide⟩
  · obtain rfl := List.mem_singleton.mp hp
    exact ⟨by decide, by decide⟩

theorem test_witness_unmasked_pair : crf 0x12345678#32 2 ≠ crf 0x12345678#32 (partner 2) ∧ crf 0x12345678#32 7 ≠ crf 0x12345678#32 (partner 7) := by decide

/-! ### Registers and memory -/

theorem test_witness_fpscr : (demo 0).params.hasDfpHw = true ∧
    ({ demo 0 with params := { demoParams with hasDfpHw := false, fpscrWidthNoDfp := .w64 } }).params.fpscrWidthNoDfp = .w64 ∧
    ({ demo 0 with params := { demoParams with hasDfpHw := false, fpscrWidthNoDfp := .w32 } }).params.hasDfpHw = false ∧
    ({ demo 0 with params := { demoParams with hasDfpHw := false, fpscrWidthNoDfp := .w32 } }).params.fpscrWidthNoDfp = .w32 := by decide

/-- The lowest slot that is not below r1, in both byte orders. -/
theorem test_witness_reserved_of_base : (∃ t, runBase smallBase 1#32 (demo 0x10000200) = .next t) ∧ .r13 ∈ smallBase.writes 1#32 ∧
    (.tar ∈ smallBase.reads 1#32 ∧ ReservedRegister.tar ≠ .r13) ∧ .tar ∉ smallBase.writes 1#32 ∧ .vrsave ∉ smallBase.writes 1#32 ∧
    (∃ t, runBase smallBase 5#32 (demo 0x10000200) = .next t) ∧ .r13 ∉ smallBase.writes 5#32 ∧ .tar ∉ smallBase.reads 5#32 ∧ .vrsave ∉ smallBase.reads 5#32 ∧
    .vrsave ∉ smallBase.reads 1#32 ∧ (.tar ∉ smallBase.reads 8#32 ∧ .tar ∈ smallBase.writes 8#32) :=
  ⟨(next_of_after (ok := fun _ => true) (by decide)).imp fun _ h => h.1, by decide, by decide, by decide, by decide,
    (next_of_after (ok := fun _ => true) (by decide)).imp fun _ h => h.1, by decide, by decide, by decide, by decide, by decide⟩

/-- A word that writes TAR and does not read it: from two values of TAR the same state; one that names neither leaves each (R43). -/
theorem test_base_hides_tar : after (runBase smallBase 8#32 (((demo 0x10000200).setRegs { demoRegs 0x10000200 with tar := 9 }))) (fun t => decide (t.regs.tar = 0)) = true ∧
    after (runBase smallBase 5#32 (((demo 0x10000200).setRegs { demoRegs 0x10000200 with tar := 9 }))) (fun t => decide (t.regs.tar = 9)) = true := by decide

/-- R51, R90, R103, R56: each purpose at the ends of its range. -/
theorem test_witness_purposes : purposeOf false (.gpr 3) = .parametersAndReturns ∧ purposeOf false (.gpr 10) = .parametersAndReturns ∧
    purposeOf false (.fpr 13) = .binaryFloatParametersAndReturns ∧ purposeOf false (.vr 13) = .parametersAndReturns ∧ purposeOf true (.gpr 31) = .framePointer ∧
    purposeOf false (.gpr 31) = .localVariables ∧ purposeOf true (.gpr 30) = .localVariables := by decide

theorem test_witness_slot_reads_back :
    ((∃ t, (demo 0).writeSlot 0x7FFFFFFFE000 5 = .ok t) ∧ ∀ i < 8, (demo 0).shifting (byteAddr 0x7FFFFFFFE000 i) = false) ∧
    ∃ t, ({ demo 0 with params := { demoParams with byteOrder := .be } }).writeSlot 0x7FFFFFFFE000 5 = .ok t :=
  ⟨⟨(ok_of_okAnd (ok := fun _ => true) (by decide)).imp fun _ h => h.1, by decide⟩, (ok_of_okAnd (ok := fun _ => true) (by decide)).imp fun _ h => h.1⟩

theorem test_witness_store : ∃ t, (demo 0).memWrite 0x7FFFFFF00000 2 0xFFFF = .ok t :=
  (ok_of_okAnd (ok := fun _ => true) (by decide)).imp fun _ h => h.1

/-- The highest slot below r1 (V-S10), and a MemRead of program text below r1. -/
theorem test_witness_below_sp : (∃ r, (demo 0).readSlot 0x7FFFFFFFDFF8 = .ok r) ∧ (∀ i < 8, byteAddr 0x7FFFFFFFDFF8 i < ((demo 0).x 1).toNat) ∧
    (∃ r, (demo 0).memRead 0x10000100 4 = .ok r) ∧ holdsCode (demo 0).params 0x10000100 = true ∧ byteAddr 0x10000100 0 < ((demo 0).x 1).toNat :=
  ⟨(ok_of_okAnd (ok := fun _ => true) (by decide)).imp fun _ h => h.1, by decide, (ok_of_okAnd (ok := fun _ => true) (by decide)).imp fun _ h => h.1, by decide, by decide⟩
/-- R113: such a read of the byte 0x7D of text is a draw, while the fetch from the same bytes finds the word of P1 (R31). -/
theorem test_text_below_sp : Memory.get (demo 0).mem 0x10000103 = some 0x7D ∧ (demo 0).readByte 0x10000103 7 = Config.drawByte 7 ∧ fetch (demo 0x10000100) = .ok 0x7D120026#32 :=
  ⟨by decide, if_pos (by decide), rfl⟩
/-- R113: 16 bytes that hold known values come above r1: the lowest and the highest is a draw, the ones on either side are kept, and so is program text, wherever r1 comes. -/
def lowered : State := ((demo 0).storeValue 0x7FFFFFFFDFE0 48 0).writeGpr 1 0x7FFFFFFFDFF0
theorem test_lowered_sp : (∃ t, exec (.mfocr 1 0x80#8) (demo 0) = .next t) ∧ ((lowered.x 1).toNat ≤ 0x7FFFFFFFDFF0 ∧ 0x7FFFFFFFDFFF < ((demo 0).x 1).toNat) ∧
    lowered.byteAt 0x7FFFFFFFDFF0 = Config.drawByte 0 ∧ lowered.byteAt 0x7FFFFFFFDFFF = Config.drawByte 15 ∧ lowered.draws = 16 ∧
    lowered.byteAt 0x7FFFFFFFDFEF = 0 ∧ lowered.byteAt 0x7FFFFFFFE000 = 0 ∧ ∀ v, Memory.get ((demo 0).writeGpr 1 v).mem 0x10000103 = some 0x7D :=
  ⟨⟨_, rfl⟩, by decide, State.putSp_inside _ _ (by decide) (by decide) (by decide), State.putSp_inside _ _ (by decide) (by decide) (by decide), by decide,
    (State.putSp_outside _ _ (by decide)).trans (by decide), (State.putSp_outside _ _ (by decide)).trans (by decide), fun v => (State.writeGpr_code _ 1 v (by decide)).trans (by decide)⟩
/-- A frame of 48 bytes whose first doubleword is the back chain: the bytes 8 to 47 are the drawn ones. -/
theorem test_witness_frame_drawn : (∃ t, allocFrame 48 (demo 0) = .ok t) ∧ (48 : Word).toNat ≤ ((demo 0).x 1).toNat ∧ (demo 0).params.backchainsMaintained = true ∧
    (∀ i < 48, holdsCode (demo 0).params (byteAddr ((demo 0).x 1 - 48) i) = false) ∧ byteAddr ((demo 0).x 1 - 48) 47 = 0x7FFFFFFFDFFF :=
  ⟨(ok_of_okAnd (ok := fun _ => true) (by decide)).imp fun _ h => h.1, by decide, by decide, by decide, by decide⟩

/-- Clauses at a boundary: the last byte of a code region, and one byte more. -/
theorem test_witness_forbidden_base : (∀ f, smallBase.loads 2#32 offGrid.regs f = [(offGrid.x 1, 8)]) ∧
    (∀ f, smallBase.loads 9#32 offGrid.regs f = [(tocSlot offGrid.params offGrid.regs, 8)]) ∧ (offGrid.x 1).toNat % 8 ≠ 0 ∧ (tocSlot offGrid.params offGrid.regs).toNat % 8 ≠ 0 ∧
    (∀ vs d f, smallBase.run 3#32 offGrid.regs f vs d =
      .effect { offGrid.regs.setX 1 (offGrid.x 1 - 32) with pc := offGrid.pc + 4 } f [⟨offGrid.x 1 - 32, 8, (offGrid.x 1).toNat⟩]) ∧ (offGrid.x 1 - 32).toNat % 8 ≠ 0 :=
  ⟨fun _ => rfl, fun _ => rfl, by decide, by decide, fun _ _ _ => rfl, by decide⟩
theorem test_witness_forbidden : (0x7FFFFFFFE007 : Word).toNat % 8 ≠ 0 ∧
    (∃ i < 2, allocated (demo 0).params (byteAddr 0x10000FFF i) = false) ∧
    (∀ i < 1, allocated (demo 0).params (byteAddr 0x10000FFF i) = true) ∧ ∃ i < 1, holdsCode (demo 0).params (byteAddr 0x10000FFF i) = true := by decide

/-! ### Calls -/

theorem test_witness_call : (∃ t, perform (.call cross) (demo 0x10000474) = .next t) ∧ (∃ t, perform (.call near) (inside 2 0) = .next t) := ⟨⟨_, rfl⟩, ⟨_, rfl⟩⟩

/-- Each clause of LinkageRegistersOnEntry: GLOBAL and unmarked without an environment pointer, NONGLOBAL with one. -/
theorem test_witness_linkage_registers : cross.kind = .globalEntry ∧ cross.env = none ∧ (performCall cross (demo 0x10000474)).th.breaches = (demo 0x10000474).th.breaches ∧
    near.kind = .nonglobalEntry ∧ near.env = some 0x55 := by decide

/-- Each requirement of a Call can fail (a limited-access field changed by the running function among them). -/
theorem test_witness_call_requirements :
    callMarks cross (demo 0) = [] ∧ callMarks cross ((demo 0).setRegs ((demoRegs 0).setX 2 0)) = [.failedCall .tocIllegal 0, .failedCall .tocNotSaved 0] ∧
    callMarks near ((inside 2 0).setRegs ((demoRegs 0).setX 1 0x7FFFFFFFDFF8)) = [.failedCall .spMisaligned 1] ∧
    callMarks near ({ inside 2 0 with params := { demoParams with limitedAccessPolicy := .nonvolatileLike } }.writeDscr 1) = [.abiViolation .callLimitedAccess] ∧
    callMarks near ((inside 2 0).setReloadOwed true) = [.abiViolation .tocNotReloaded] := by decide

theorem test_witness_entered_function : Inv (demo 0x10000474) ∧ Unmarked (demo 0x10000474) ∧
    ∃ t, perform (.call cross) (demo 0x10000474) = .next t ∧ Unmarked t := by
  refine ⟨demo_inv _ (by decide), rfl, _, rfl, ?_⟩
  have h : callMarks cross (demo 0x10000474) = [] := by decide
  rw [Unmarked, performCall_breaches, h]
  rfl

/-- The demo's stack region, with the first frame in the quadword at its top and at its low end. -/
def demoStack : Region := ⟨.stack, 0x7FFFFFF00000, 0x100000⟩

theorem test_witness_boot : Unmarked (demo 0) ∧ (∃ t, bootThread demoStack 0x7FFFFFFFFFF0 0x7FFFF7FF7000 (demo 0) = some t) ∧
    (∃ t, bootThread demoStack 0x7FFFFFF00000 0x7FFFF7FF7000 (demo 0) = some t) ∧ tocLegal (demo 0).params cross.caller 0x10027F00 = true :=
  ⟨rfl, ⟨_, rfl⟩, ⟨_, rfl⟩, by decide⟩

/-- R119 (1): no frame below the region, past its top, off the grid of 16, in a region of another kind, in one that is none of MEMMAP's, or where code lies in a stack region. The first frame
of the state after reset (log entry 4) is in its stack region. -/
theorem test_first_frame : firstFrameOk demoParams demoStack 0x7FFFFFEFFFF0 = false ∧ firstFrameOk demoParams demoStack 0x800000000000 = false ∧
    firstFrameOk demoParams demoStack 0x7FFFFFFFFFE8 = false ∧ firstFrameOk demoParams ⟨.code, 0x10000000, 0x1000⟩ 0x10000000 = false ∧
    firstFrameOk demoParams ⟨.stack, 0, addressSpace⟩ 0x100 = false ∧
    firstFrameOk { Params.reset with memmap := [⟨.stack, 0, 0x100⟩, ⟨.code, 0x48, 4⟩] } ⟨.stack, 0, 0x100⟩ 0x40 = false ∧
    firstFrameOk Params.reset ⟨.stack, 0, addressSpace⟩ 0 = true := by decide

theorem test_witness_saved_toc : ∃ t, saveToc (demo 0) = .ok t ∧ t.params = (demo 0).params ∧ t.x 1 = (demo 0).x 1 ∧
    ∀ i < 8, (demo 0).shifting (byteAddr (tocSlot (demo 0).params (demo 0).regs) i) = false := by
  obtain ⟨t, ht, -⟩ := ok_of_okAnd (r := saveToc (demo 0)) (ok := fun _ => true) (by decide)
  have := (saveToc_ok ht).1
  exact ⟨t, ht, by rw [this, State.checkChain_params, State.storeValue_params], by rw [this, State.x_eq, State.checkChain_regs, State.storeValue_regs]; rfl, by decide⟩

/-- One that reads the slot between two other reads. -/
def loadsAround : BaseISA :=
  { smallBase with
    loads := fun _ r _ => [(r.x 1, 8), (r.x 1 + 24, 8), (r.x 1 + 8, 4)]
    run := fun _ r f l _ => .effect { r.setX 2 (BitVec.ofNat 64 (l.getD 1 0)) with pc := r.pc + 4 } f [] }
theorem test_witness_base_reload_among : after (runBase loadsAround 5#32 ((demo 0x10000200).setReloadOwed true)) (fun t => decide (t.x 2 = 0x10027F00 ∧ t.th.reloadOwed = false)) = true ∧
    ((demo 0x10000200).drawn (98 + 8)).readValue (tocSlot (demo 0x10000200).params (demo 0x10000200).regs) 8 = 0x10027F00 ∧
    ∀ r f, loadsAround.loads 5#32 r f = [(r.x 1, 8)] ++ (r.x 1 + 24, 8) :: [(r.x 1 + 8, 4)] := ⟨by decide, by decide, fun _ _ => rfl⟩
/-- A BaseISA's reload, and an instruction of one that reads no doubleword at the slot. -/
theorem test_witness_base_reload : (∃ t, runBase smallBase 9#32 (demo 0x10000200) = .next t ∧ t.x 2 = 0x10027F00) ∧ tocSlot (demo 0x10000200).params (demo 0x10000200).regs = (demo 0x10000200).x 1 + 24 ∧
    ((demo 0x10000200).drawn 98).readValue (tocSlot (demo 0x10000200).params (demo 0x10000200).regs) 8 = 0x10027F00 ∧ (∃ t, runBase smallBase 2#32 (demo 0x10000200) = .next t) ∧
    ((demo 0x10000200).x 1 + 24, 8) ∉ [((demo 0x10000200).x 1, 8)] :=
  ⟨(next_of_after (ok := fun t => decide (t.x 2 = 0x10027F00)) (by decide)).imp fun _ h => ⟨h.1, of_decide_eq_true h.2⟩, by decide, by decide,
    (next_of_after (ok := fun _ => true) (by decide)).imp fun _ h => h.1, by decide⟩

/-- The save and the reload as steps; a TOC_SAVE_OFFSET of 0 puts the slot on the back chain, and the save is marked (R78). -/
theorem test_witness_toc_steps : (∃ t, perform .saveToc (demo 0) = .next t) ∧ (∃ t, perform .reloadToc (demo 0) = .next t) ∧
    after (perform .saveToc { demo 0 with params := { demoParams with tocSaveOffset := 0 } }) (fun t => decide (t.th.breaches = [.abiViolation .backChainBroken])) = true :=
  ⟨(next_of_after (ok := fun _ => true) (by decide)).imp fun _ h => h.1, (next_of_after (ok := fun _ => true) (by decide)).imp fun _ h => h.1, by decide⟩

/-! ### Returns -/

theorem test_witness_return (callee : Nat) : (inside callee 0x20000A40).th.activations = [entered callee 0x20000A40] ∧ (entered callee 0x20000A40).callee = callee ∧
    ∃ t, performReturn (entered callee 0x20000A40).callee (inside callee 0x20000A40) = .ok t := ⟨rfl, rfl, ⟨_, performReturn_running rfl⟩⟩

theorem test_witness_toc_clauses : demoParams.sameModule (entered 3 0).caller (entered 3 0).callee = true ∧
    demoParams.sameModule (entered 2 0).caller (entered 2 0).callee = false := by decide

/-- V-C4. -/
theorem test_witness_condition_fields : (0xFF345FFF#32).extractLsb' 12 12 = (demo 0).th.regs.cr.extractLsb' 12 12 := by decide

/-- V-C1: LR, CTR and XER changed, no preserved register. -/
theorem test_witness_volatile : demoParams.limitedAccessPolicy = .unsaid ∧
    ∀ n : RegName, preservedAcross (demoParams.sameModule 1 2) n = true →
      ({ demoRegs 0 with lr := 1, ctr := 2, xer := 3 } : Regs).read n = (demoRegs 0).read n := by
  refine ⟨rfl, fun n hn => ?_⟩
  cases n with
  | lr => exact absurd hn (by decide)
  | ctr => exact absurd hn (by decide)
  | xer => exact absurd hn (by decide)
  | _ => rfl

theorem test_witness_limited : demoParams.limitedAccessPolicy = .unsaid ∧
    (∀ x ∈ limitedFields, limitedOnPurpose { demoParams with fns := [{ fnF with changesOnPurpose := limitedFields }] } 2 x = true) ∧
    roundingSetter.limitedAccessPolicy = .nonvolatileLike ∧ limitedOnPurpose roundingSetter 2 (.fpscr .rn) = true ∧
    limitedOnPurpose roundingSetter 2 .dscr = false ∧ limitedOnPurpose roundingSetter 2 (.fpscr .drn) = false ∧ limitedOnPurpose roundingSetter 2 .vscrNJ = false := by decide

/-- A run with marks since entry, and one with marks before it. -/
theorem test_witness_marks_since_entry : ((inside 2 0).markReserved .tar).th.breaches = [.reservedRegister .tar] ++ [] ∧ (entered 2 0).marksAtEntry = ([] : List Breach).length ∧
    (performCall cross ((demo 0x10000474).markReserved .tar)).th.breaches = [] ++ [.reservedRegister .tar] ∧
    ((performCall cross ((demo 0x10000474).markReserved .tar)).th.activations.map Activation.marksAtEntry) = [([.reservedRegister .tar] : List Breach).length] := by decide

theorem entered_obligations : CalleeObligations (inside 2 0x20000A40).params (entered 2 0x20000A40) (inside 2 0x20000A40).th :=
  (calleeBreaches_eq_nil _ _ _).mp (by decide)

theorem test_witness_unmarked_return : Inv (inside 2 0x20000A40) ∧ (inside 2 0x20000A40).th.activations = [entered 2 0x20000A40] ∧
    ∃ t, performReturn (entered 2 0x20000A40).callee (inside 2 0x20000A40) = .ok t ∧ t.th.breaches = (inside 2 0x20000A40).th.breaches := by
  refine ⟨inside_inv 2 _ (by decide), rfl, _, performReturn_running rfl, ?_⟩
  rw [leaveFunction_breaches, State.markAbi_breaches, returnBreaches_eq_nil.mpr ⟨entered_obligations, rfl⟩]
  rfl

theorem test_witness_run_ends : Unmarked (inside 2 0x20000A40) ∧
    (inside 2 0x20000A40).th.activations = [entered 2 0x20000A40] ∧
    CalleeObligations (inside 2 0x20000A40).params (entered 2 0x20000A40) (inside 2 0x20000A40).th ∧ (inside 2 0x20000A40).th.reloadOwed = false := ⟨rfl, rfl, entered_obligations, rfl⟩

/-- P5 of 95_test_vectors.md: function 3 at 0x10000200, with an outer function (1) entered before it. -/
def leafCall : CallSite := ⟨1, 3, 0x10000200, .globalEntry, 0x10000478, none⟩
def leafStart : State :=
  let s := placeWord (demo 0x10000200) 0x7C780026#32
  let t : State := { s with
    th := { s.th with regs := (s.th.regs.setX 12 0x10000200), activations := [entered 1 0x10000100] }
    params := { s.params with actions := [(0x10000204, .ret 3)], tocUses := [] } }
  launch leafCall t
def leafActivation : Activation := ⟨1, 3, .globalEntry, 0x10000478, none, leafStart.th.regs, leafStart.th.regs, leafStart.mem, leafStart.memGen, leafStart.baseState, 0⟩

theorem test_witness_leaf_run : LaunchPremises leafStart leafActivation ∧ actionAt leafStart = none ∧ fetch leafStart = .ok 0x7C780026#32 ∧
    leafStart.params.actions.lookup (leafStart.pc + 4).toNat = some (.ret leafActivation.callee) ∧
    (∀ u ∈ leafStart.params.tocUses, u.addr ≠ leafStart.pc.toNat ∧ u.addr ≠ (leafStart.pc + 4).toNat) :=
  ⟨⟨⟨rfl, rfl⟩, ⟨rfl, rfl⟩, rfl, rfl, rfl, by decide, ⟨by decide, by decide⟩, ((backChainsOk_iff leafStart).mp (by decide)).newest, by decide, fun _ => by decide,
    (fun _ h => absurd h (by simp [leafActivation])), by decide, by decide, rfl⟩, by decide, by decide, by decide, by decide⟩

/-- P5 with CR = 0x12345678: x[3] under ZERO, ARCH and P8_REPLICATE, and the end of the run. -/
def leafRun (m : MfocrMode) : Result :=
  match step { leafStart with params := { leafStart.params with mfocrMode := some m } } with
  | .next t => step t
  | .fault f => .fault f
  | .refused r => .refused r
theorem test_leaf_run_P5 :
    after (leafRun .zero) (fun u => decide (u.x 3 = 0x10000000 ∧ u.pc = 0x10000478 ∧ u.th.breaches = [] ∧ u.th.activations = [entered 1 0x10000100])) = true ∧
    after (leafRun .arch) (fun u => decide (u.x 3 = 0x12345678)) = true ∧ after (leafRun .p8Replicate) (fun u => decide (u.x 3 = 0x11000000)) = true := by decide

/-- A run that has ended, and an instruction after it. -/
theorem test_witness_after_the_end : ∃ t u, RunEnded (inside 2 0x20000A40) t ∧ exec (.mfocr 3 0x80#8) t = .next u := by
  have h := test_witness_unmarked_return.2.2
  obtain ⟨t, ht, hb⟩ := h
  obtain ⟨a, rest, ha, -, rfl⟩ := performReturn_ok ht
  have hh : [entered 2 0x20000A40] = a :: rest := ha
  obtain ⟨rfl, rfl⟩ := List.cons.inj hh
  exact ⟨_, _, ⟨hb, _, _, rfl, rfl, rfl⟩, rfl⟩

theorem test_witness_other_return : (∀ a, (inside 2 0).th.activations.head? = some a → a.callee ≠ 3) ∧ (demo 0).th.activations.head? = none := by
  refine ⟨fun a h => ?_, rfl⟩
  have h' : some (entered 2 0) = some a := h
  injection h' with h'
  subst h'
  decide

/-- Each clause: both ends of the Volatile registers, another module, both policies, program text, the back chain's bytes and the byte after them. -/
theorem test_witness_opaque_call : classOf (.gpr 0) = .volatile ∧ classOf (.gpr 12) = .volatile ∧ holdsCode (demo 0).params 0x10000FFF = true ∧
    holdsCode (demo 0).params 0x10001000 = false ∧ demoParams.sameModule cross.caller cross.callee = false ∧ demoParams.limitedAccessPolicy = .unsaid ∧
    roundingSetter.limitedAccessPolicy = .nonvolatileLike ∧ (limitedOnPurpose roundingSetter cross.callee (.fpscr .drn) = false ∧ fpscrLow .drn ≤ 34 ∧ 34 < fpscrLow .drn + fpscrFieldWidth .drn) ∧
    (∀ f ∈ fpscrFields, fpscrLow f ≤ 1 → 1 < fpscrLow f + fpscrFieldWidth f → limitedOnPurpose roundingSetter cross.callee (.fpscr f) = true) ∧
    (∀ f ∈ fpscrFields, ¬ (fpscrLow f ≤ 2 ∧ 2 < fpscrLow f + fpscrFieldWidth f)) ∧ 0x7FFFFFFFE007 ∈ chainBytes (demo 0) ∧ 0x7FFFFFFFE008 ∉ chainBytes (demo 0) ∧
    holdsCode (demo 0).params 0x7FFFFFFFE008 = false := by decide

/-! ### The stack -/

/-- V-S1 and V-S2, and a frame that ends at address 0. -/
theorem test_witness_frame_allocation :
    (Inv (inside 2 0) ∧ Unmarked (inside 2 0) ∧ (48 : Word) ≠ 0 ∧ (48 : Word).toNat % 16 = 0 ∧ (48 : Word).toNat ≤ ((inside 2 0).x 1).toNat ∧
      frameInStack (inside 2 0).params ((inside 2 0).x 1 - 48) ((inside 2 0).x 1) = true) ∧
    (Inv lowStack ∧ Unmarked lowStack ∧ (16 : Word).toNat ≤ (lowStack.x 1).toNat ∧ frameInStack lowStack.params (lowStack.x 1 - 16) (lowStack.x 1) = true) :=
  ⟨⟨inside_inv 2 0 (by decide), rfl, by decide, by decide, by decide, by decide⟩, lowStack_inv, rfl, by decide, by decide⟩

theorem test_witness_frame_given_back : Inv lowStack ∧ Unmarked lowStack ∧ ∃ t, allocFrame 16 lowStack = .ok t ∧ Unmarked t := by
  refine ⟨lowStack_inv, rfl, lowerSp lowStack 16, rfl, ?_⟩
  rw [Unmarked, lowerSp_breaches]
  decide

/-- D26: a frame that starts in one stack region and spans a data region between two of them. -/
def splitStack : Params := { Params.reset with memmap := [⟨.stack, 0, 0x100⟩, ⟨.data, 0x100, 0x100⟩, ⟨.stack, 0x200, 0x100⟩] }
theorem test_frame_spans_data : frameInStack splitStack 0x80 0x280 = false ∧ frameInStack splitStack 0x80 0x100 = true ∧ frameInStack splitStack 0x200 0x300 = true ∧
    frameInStack { Params.reset with memmap := [⟨.stack, 0, 0x100⟩, ⟨.code, 0x40, 4⟩] } 0x30 0x50 = false := by decide

/-- A step that lowers r1, off the grid of 16 and on it, in a function that has been entered. -/
theorem test_witness_step_moves_stack :
    (∃ t, stepWith smallBase (holding 3#32) = .next t ∧ t.x 1 ≠ (holding 3#32).x 1) ∧
    (∃ t, stepWith { smallBase with run := fun _ r f _ _ => .effect { r.setX 1 (r.x 1 - 8) with pc := r.pc + 4 } f [] } (holding 5#32) = .next t ∧ (t.x 1).toNat % 16 ≠ 0) ∧
    ∃ t, stepWith { smallBase with run := fun _ r f _ _ => .effect { r.setX 1 (r.x 1 + 16) with pc := r.pc + 4 } f [] } (placeWord (inside 2 0x10000200) 5#32) = .next t ∧
      ((entered 2 0x10000200).entry.x 1).toNat < (t.x 1).toNat :=
  ⟨(next_of_after (ok := fun t => decide (t.x 1 ≠ (holding 3#32).x 1)) (by decide)).imp fun _ h => ⟨h.1, of_decide_eq_true h.2⟩,
    (next_of_after (ok := fun t => decide ((t.x 1).toNat % 16 ≠ 0)) (by decide)).imp fun _ h => ⟨h.1, of_decide_eq_true h.2⟩,
    (next_of_after (ok := fun t => decide (((entered 2 0x10000200).entry.x 1).toNat < (t.x 1).toNat)) (by decide)).imp fun _ h => ⟨h.1, of_decide_eq_true h.2⟩⟩

/-- V-S3, V-S7, a frame below the stack region; V-S5, a raise off the grid of 16, and one to no frame. -/
theorem test_witness_broken_stack_moves :
    ((∃ t, allocFrame 40 (inside 2 0) = .ok t) ∧ ((inside 2 0).x 1 - 40).toNat % 16 ≠ 0) ∧
    ((∃ t, allocFrame 32 lowStack = .ok t) ∧ (lowStack.x 1).toNat < (32 : Word).toNat) ∧
    ((∃ t, allocFrame 16 { lowStack with params := { Params.reset with memmap := [⟨.stack, 16, 16⟩] } } = .ok t) ∧
      frameInStack { Params.reset with memmap := [⟨.stack, 16, 16⟩] } (lowStack.x 1 - 16) (lowStack.x 1) = false) ∧
    ((inside 2 0).th.activations.head? = some (entered 2 0) ∧ ((entered 2 0).entry.x 1).toNat < ((inside 2 0).x 1 + 16).toNat) ∧
    ((inside 2 0).x 1 + 8).toNat % 16 ≠ 0 ∧ (inside 2 0).x 1 + 16 ∉ (inside 2 0).th.frames :=
  ⟨⟨(ok_of_okAnd (ok := fun _ => true) (by decide)).imp fun _ h => h.1, by decide⟩, ⟨⟨_, rfl⟩, by decide⟩, ⟨⟨_, rfl⟩, by decide⟩, ⟨rfl, by decide⟩, by decide, by decide⟩

/-! ### The machine as a whole -/

/-- An instruction of the table, and one of a BaseISA that takes a frame. -/
theorem test_witness_base_step : actionAt (holding 3#32) = none ∧ ∃ t, stepWith smallBase (holding 3#32) = .next t :=
  ⟨by decide, (next_of_after (ok := fun _ => true) (by decide)).imp fun _ h => h.1⟩

theorem test_witness_step : Inv (demo 0x10000100) ∧ ∃ t, stepWith noBaseISA (demo 0x10000100) = .next t :=
  ⟨demo_inv _ (by decide), (next_of_after (ok := fun _ => true) (by decide)).imp fun _ h => h.1⟩

/-- Program text of the demo, and an address that is none. -/
theorem test_witness_text : holdsCode (demo 0x10000100).params 0x10000FFF = true ∧ holdsCode (demo 0x10000100).params 0x10001000 = false := by decide

theorem test_witness_threads : ({ demo 0 with parked := [Thread.reset] } : State).parked[0]? = some Thread.reset := rfl

theorem test_witness_special_registers : (∀ c, actionAt (demo 0x10000100) ≠ some (.callOpaque c)) ∧ (∀ c, actionAt (demo 0x10000100) ≠ some (.call c)) ∧
    (∀ c, actionAt (demo 0x10000478) ≠ some (.callOpaque c)) ∧ (∃ t, step (demo 0x10000100) = .next t) ∧ ∃ t, step (demo 0x10000478) = .next t := by
  have h : actionAt (demo 0x10000100) = none := by decide
  have h2 : actionAt (demo 0x10000478) = some .reloadToc := by decide
  refine ⟨fun c => by rw [h]; simp, fun c => by rw [h]; simp, fun c => by rw [h2]; simp, ?_, ?_⟩
  · exact (next_of_after (ok := fun _ => true) (by decide)).imp fun _ h => h.1
  · exact (next_of_after (ok := fun _ => true) (by decide)).imp fun _ h => h.1

/-- R68 and R70, each broken alone. -/
def badText (u : TocUse) : State := { demo 0x10000100 with params := { demoParams with tocUses := [u] } }

theorem test_witness_broken_toc_uses :
    (⟨0x10000100, 2, [8]⟩ ∈ (badText ⟨0x10000100, 2, [8]⟩).params.tocUses ∧ tocLegal demoParams 2 ((badText ⟨0x10000100, 2, [8]⟩).x 2) = false ∧
      ∃ t, step (badText ⟨0x10000100, 2, [8]⟩) = .next t) ∧
    ((⟨0x10000100, 1, [8, 12]⟩ : TocUse).defsAgree = false ∧ ∃ t, step (badText ⟨0x10000100, 1, [8, 12]⟩) = .next t) ∧
    ∃ t, stepWith smallBase { holding 5#32 with params := { (holding 5#32).params with tocUses := [⟨0x10000200, 2, [8]⟩] } } = .next t :=
  ⟨⟨by decide, by decide, (next_of_after (ok := fun _ => true) (by decide)).imp fun _ h => h.1⟩, ⟨by decide,
    (next_of_after (ok := fun _ => true) (by decide)).imp fun _ h => h.1⟩, (next_of_after (ok := fun _ => true) (by decide)).imp fun _ h => h.1⟩

/-! ### Parameters -/

/-- R89: no DFP parameter is placed in f0; f1 is the first register one can have, f31 the last. -/
theorem test_dfp_f0 : placeDfp .quad ⟨0, [], 0⟩ = none ∧ placeDfp .single ⟨0, [], 0⟩ = none ∧ placeDfp .double ⟨0, [], 0⟩ = none ∧
    placeDfp .double ⟨1, [], 0⟩ = some ([1], ⟨2, [], 1⟩) ∧ placeDfp .single ⟨31, [], 0⟩ = some ([31], ⟨32, [], 1⟩) ∧ placeDfp .double ⟨32, [], 0⟩ = none := by decide

/-- The first and the last pair of the file, with and without a register skipped. -/
theorem test_witness_dfp_sequences : placeDfps [.quad, .single] ⟨2, [], 0⟩ = some ([[2, 3], [4]], ⟨5, [], 3⟩) ∧
    placeDfps [.quad] ⟨29, [], 0⟩ = some ([[30, 31]], ⟨32, [29], 2⟩) ∧ placeDfps [.quad] ⟨30, [], 0⟩ = some ([[30, 31]], ⟨32, [], 2⟩) ∧
    placeDfps [.quad] ⟨31, [], 0⟩ = none ∧ placeDfps [.quad, .single] ⟨1, [], 0⟩ = some ([[2, 3], [4]], ⟨5, [1], 3⟩) := by decide

theorem test_witness_wide_types : placeBinary128 2 = some (2, 3) ∧ placeBinary128 13 = some (13, 14) ∧
    placeIbmExtended 12 (.gpr 3) = some (.fpr 12, .fpr 13, 14) ∧ placeIbmExtended 13 (.memory 0x7FFFFFFFE020) = some (.fpr 13, .memory 0x7FFFFFFFE020, 14) ∧
    okAnd (passIbmExtended (.fpr 13) (.memory 0x7FFFFFFFE020) 1 2 (demo 0)) (fun _ => true) = true := by decide

end Sys2Proof.Tests
end

section
/-! Proofs of the statements about the register state, fetch, threads and what a step leaves alone (10_state.md). -/

namespace Sys2Proof.Machine

/-! ## What a step answers (R21, R31) -/

/-- The action at pc is performed, whatever BaseISA is. -/
theorem stepWith_of_action (base : BaseISA) {s : State} {act : Action} (h : actionAt s = some act) :
    stepWith base s = perform act s.checkText := by
  simp only [stepWith, h]

/-- Where no action stands, the word fetched is run. -/
theorem stepWith_of_fetch_ok (base : BaseISA) {s : State} {w : InsnWord} (ha : actionAt s = none) (hw : fetch s = .ok w) :
    stepWith base s = runWord base w s.checkText := by
  simp only [stepWith, ha, hw]

/-- Where no action stands, a step stops with the refusal of the fetch. -/
theorem stepWith_of_fetch_error (base : BaseISA) {s : State} {e : Refusal} (ha : actionAt s = none) (he : fetch s = .error e) :
    stepWith base s = .refused e := by
  simp only [stepWith, ha, he]

/-- A word that decodes goes to exec, never to BaseISA. -/
theorem runWord_of_decodeWord (base : BaseISA) {w : InsnWord} {i : Instr} (s : State) (h : decodeWord w = .ok i) :
    runWord base w s = exec i s := by
  simp only [runWord, h]

/-- Bytes that decode to one instruction with nothing left over are four, and the word they make decodes to it. -/
theorem decodeWord_of_decodeBytes {o : ByteOrder} {bs : List Byte} {i : Instr} (h : decodeBytes o bs = .ok (i, [])) :
    decodeWord (BitVec.ofNat 32 (joinBytes o bs)) = .ok i := by
  match bs, h with
  | b0 :: b1 :: b2 :: b3 :: rest, h =>
    rw [decodeBytes] at h
    cases hd : decodeWord (BitVec.ofNat 32 (joinBytes o [b0, b1, b2, b3])) with
    | error e => simp [hd, Except.map] at h
    | ok j =>
      obtain ⟨rfl, rfl⟩ : j = i ∧ rest = [] := by simpa [hd, Except.map] using h
      exact hd

/-- D2: a fetch above 2^64 - 4 wraps, on the grid or off it. -/
theorem fetch_above_last {s : State} (h : 2 ^ 64 - 4 < s.pc.toNat) : fetch s = .error .fetchWraps := by
  rw [fetch, if_pos (by simp only [addressSpace, insnBytes]; omega)]

/-- D2: any other fetch off the grid of 4 is misaligned. -/
theorem fetch_off_grid {s : State} (hle : s.pc.toNat ≤ 2 ^ 64 - 4) (h : s.pc.toNat % 4 ≠ 0) : fetch s = .error .fetchMisaligned := by
  rw [fetch, if_neg (by simp only [addressSpace, insnBytes]; omega), if_pos (by simpa only [insnBytes] using h)]

/-- A byte of the access that memory does not list leaves no bytes of text. -/
theorem textBytes_none {m : List Host.Cell} {a n k : Nat} (hk : k < n) (h : Memory.get m (a + k) = none) : textBytes m a n = none := by
  cases ht : textBytes m a n with
  | none => rfl
  | some bs =>
    obtain ⟨hl, hg⟩ := textBytes_some ht
    exact absurd (h.symm.trans (hg k (by omega))) (by simp)

/-- R31: a fetch on the grid finds no text where one of the four bytes is not code or not known. -/
theorem fetch_without_text {s : State} (hpc : s.pc.toNat % 4 = 0) {k : Nat} (hk : k < 4)
    (h : holdsCode s.params (s.pc.toNat + k) = false ∨ Memory.get s.mem (s.pc.toNat + k) = none) : fetch s = .error .noProgramText := by
  have hlt := s.pc.isLt
  rw [fetch, if_neg (by simp only [addressSpace, insnBytes]; omega), if_neg (by simpa only [insnBytes, not_not] using hpc)]
  split
  · rfl
  · next hcode =>
    have hall : ∀ j < 4, holdsCode s.params (s.pc.toNat + j) = true := by simpa [insnBytes] using hcode
    have hget : Memory.get s.mem (s.pc.toNat + k) = none := h.resolve_left (by rw [hall k hk]; decide)
    rw [show textBytes s.mem s.pc.toNat insnBytes = none from textBytes_none hk hget]

/-- Settles O6: a fetch on the grid answers the word of the four bytes, and that word decodes as they do. -/
theorem stepRunsDecodedInstruction : Obligations.StepRunsDecodedInstruction := by
  refine ⟨fun s bs i ha hpc hcode hbytes hdec => ?_, fun s act ha => ⟨stepWith_of_action _ ha, fun base => stepWith_of_action base ha⟩⟩
  have hfetch := fetch_on_grid hpc hcode hbytes
  have hrun : ∀ base : BaseISA, stepWith base s = exec i s.checkText := fun base =>
    (stepWith_of_fetch_ok base ha hfetch).trans (runWord_of_decodeWord base _ (decodeWord_of_decodeBytes hdec))
  exact ⟨hrun noBaseISA, hrun⟩

/-- Settles O8: each clause is one refusal of the fetch, which the step passes on. -/
theorem fetchOffProgramTextStops : Obligations.FetchOffProgramTextStops := by
  intro s ha
  have hstop : ∀ {e : Refusal}, fetch s = .error e → step s = .refused e := stepWith_of_fetch_error noBaseISA ha
  refine ⟨fun h => hstop (fetch_above_last h), fun hle h => hstop (fetch_off_grid hle h), ?_⟩
  rintro hpc ⟨k, hk, h⟩
  exact hstop (fetch_without_text hpc hk h)

/-! ## What every step leaves alone (R22, R31) -/

/-- The other threads, the parameters and the running thread's thread pointer. -/
theorem stepWith_others {base : BaseISA} {s t : State} (h : stepWith base s = .next t) :
    t.parked = s.parked ∧ t.params = s.params ∧ t.th.threadPtr = s.th.threadPtr := by
  rcases stepWith_next h with ⟨act, -, h⟩ | ⟨-, w, i, -, -, h⟩ | ⟨-, w, -, -, h⟩
  · exact (perform_others h :)
  · exact (exec_others h :)
  · obtain ⟨hparked, hparams, hptr, -⟩ := runBase_others h
    exact ⟨hparked, hparams, hptr⟩

/-- R31: program text. -/
theorem stepWith_code {base : BaseISA} {s t : State} (h : stepWith base s = .next t) {b : Nat} (hb : holdsCode s.params b = true) :
    Memory.get t.mem b = Memory.get s.mem b := by
  rcases stepWith_next h with ⟨act, -, h⟩ | ⟨-, w, i, -, -, h⟩ | ⟨-, w, -, -, h⟩
  · exact perform_code h hb
  · exact exec_code h hb
  · exact runBase_code h hb

/-- Settles O51: a byte of text depends on what memory lists there and on the parameters, and a step keeps both. -/
theorem stepLeavesOtherThreadsAndParameters : Obligations.StepLeavesOtherThreadsAndParameters := by
  intro base s t h
  obtain ⟨hparked, hparams, hptr⟩ := stepWith_others h
  refine ⟨hparked, hparams, hptr, fun b hb => ?_⟩
  have hget := stepWith_code h hb
  exact ⟨State.byteAt_code hget hparams hb, hget⟩

/-! ## Threads (R22) -/

/-- The parked thread and the running one change places; nothing else changes. -/
theorem State.switchTo_of_parked {s : State} {k : Nat} {u : Thread} (h : s.parked[k]? = some u) :
    s.switchTo k = { s with th := u, parked := s.parked.set k s.th } := by
  simp only [State.switchTo, h]

/-- The place of the thread switched to holds the one that ran. -/
theorem State.switchTo_parked_same {s : State} {k : Nat} {u : Thread} (h : s.parked[k]? = some u) :
    (s.switchTo k).parked[k]? = some s.th := by
  obtain ⟨hk, -⟩ := List.getElem?_eq_some_iff.mp h
  rw [State.switchTo_of_parked h]
  exact List.getElem?_set_self hk

/-- Switching back restores the state. -/
theorem State.switchTo_switchTo {s : State} {k : Nat} {u : Thread} (h : s.parked[k]? = some u) : (s.switchTo k).switchTo k = s := by
  obtain ⟨hk, rfl⟩ := List.getElem?_eq_some_iff.mp h
  rw [State.switchTo_of_parked (State.switchTo_parked_same h), State.switchTo_of_parked h]
  simp only [List.set_set, List.set_getElem_self]

/-- Settles O52: switchTo exchanges the two threads and touches nothing else. -/
theorem threadsHaveTheirOwnRegisters : Obligations.ThreadsHaveTheirOwnRegisters := by
  intro s k u h
  have hsw := State.switchTo_of_parked h
  refine ⟨by rw [hsw], fun b => ?_, by rw [hsw], State.switchTo_parked_same h, fun j hj => ?_, State.switchTo_switchTo h⟩
  · rw [hsw]
    exact State.byteAt_congr rfl rfl rfl b
  · rw [hsw]
    exact List.getElem?_set_ne (Ne.symm hj)

/-! ## Bytes of the condition register (R11, R12) -/

/-- A byte is its field of even number followed by the next field. -/
theorem crByte_eq_append (cr : CrWord) (b : Fin 4) {n m : Fin 8} (hn : n.val = 2 * b.val) (hm : m.val = 2 * b.val + 1) :
    crByte cr b = crf cr n ++ crf cr m := by
  have hb := b.isLt
  apply BitVec.eq_of_getLsbD_eq
  intro j hj
  rw [crByte, BitVec.getLsbD_extractLsb', BitVec.getLsbD_append, crf_bit, crf_bit, hn, hm]
  by_cases hlow : j < 4
  · have hplace : 28 - 4 * (2 * b.val + 1) + j = 24 - 8 * b.val + j := by omega
    simp [hlow, hj, hplace]
  · have hplace : 28 - 4 * (2 * b.val) + (j - 4) = 24 - 8 * b.val + j := by omega
    have hhigh : j - 4 < 4 := by omega
    simp [hlow, hj, hplace, hhigh]

/-- R12: the two fields of a byte are each other's partners. -/
theorem partner_of_byte (b : Fin 4) :
    partner ⟨2 * b.val, by omega⟩ = ⟨2 * b.val + 1, by omega⟩ ∧ partner ⟨2 * b.val + 1, by omega⟩ = ⟨2 * b.val, by omega⟩ := by
  revert b; decide

theorem crf_setCrf (cr : CrWord) (n m : Fin 8) (v : BitVec 4) : crf (setCrf cr n v) m = if m = n then v else crf cr m := by
  split
  · next h => rw [h, crf_setCrf_same]
  · next h => exact crf_setCrf_ne cr v h

/-- Settles O20, byte by byte and field by field. -/
theorem crBytesHoldFieldPairs : Obligations.CrBytesHoldFieldPairs := fun cr =>
  ⟨fun b => ⟨crByte_eq_append cr b rfl rfl, partner_of_byte b⟩, fun n m v => crf_setCrf cr n m v⟩

/-! ## Right halves of the vector-scalar registers (R18, D22, D23) -/

/-- A write of f[i] leaves a draw in the right half of vsr[i] and the other right halves alone. -/
theorem State.vsrRight_writeFpr (s : State) (i : Fin 32) (w : Word) (j : Fin 32) :
    (s.writeFpr i w).th.regs.vsrRight j = if j = i then Config.drawWord s.draws else s.th.regs.vsrRight j := by
  simp only [State.writeFpr, State.writeVsr, State.drawn_regs, State.setRegs_regs, Regs.vsrRight]
  split
  · next h => subst h; rw [Regs.vs_setVs_same, extract_right]
  · next h => rw [Regs.vs_setVs_ne _ _ (fprHome_ne (Ne.symm h))]; rfl

/-- A write of v[i] is in the other half of the file. -/
theorem State.vsrRight_writeVr (s : State) (i : Fin 32) (q : Quad) (j : Fin 32) :
    (s.writeVr i q).th.regs.vsrRight j = s.th.regs.vsrRight j := by
  simp only [State.writeVr, State.writeVsr, State.setRegs_regs, Regs.vsrRight]
  rw [Regs.vs_setVs_ne _ _ (fprHome_ne_vrHome _ _).symm]; rfl

/-- D23: an instruction of BaseISA leaves a draw in the right half of every register it writes through the floating-point view. -/
theorem runBase_vsrRight {base : BaseISA} {w : InsnWord} {s t : State} (h : runBase base w s = .next t) {n : Fin 32} (hn : n ∈ base.fprs w) :
    t.th.regs.vsrRight n = Config.drawWord (s.draws + 66 + n.val) := by
  obtain ⟨r, hr, -⟩ := runBase_regs h
  have hvs : t.th.regs.vsr = (drawRightHalves (base.fprs w) (s.draws + 66) r).vsr := by rw [hr, keptRegs_vsr]
  rw [Regs.vsrRight, Regs.vs, hvs]
  exact drawRightHalves_right _ r hn

/-- Settles O21: the homes of the two views are disjoint, and no two registers of one view share a home. -/
theorem floatAndVectorViewsShareTheFile : Obligations.FloatAndVectorViewsShareTheFile := by
  refine ⟨fun base w s t h n hn => runBase_vsrRight h hn, fun s i w q => ?_⟩
  have hv : (s.writeVr i q).th.regs.v i = q := by rw [State.v_writeVr, if_pos rfl]
  refine ⟨?_, ?_, fun j hj => ⟨?_, ?_⟩, State.v_writeFpr s i w, hv, hv, fun j hj => ?_, fun j => ⟨State.f_writeVr s i q j, State.vsrRight_writeVr s i q j⟩⟩
  · exact (State.f_writeFpr s i w i).trans (if_pos rfl)
  · exact (State.vsrRight_writeFpr s i w i).trans (if_pos rfl)
  · exact (State.f_writeFpr s i w j).trans (if_neg hj)
  · exact (State.vsrRight_writeFpr s i w j).trans (if_neg hj)
  · exact (State.v_writeVr s i q j).trans (if_neg hj)

/-! ## The width of FPSCR (R19, R95) -/

theorem State.writeFpscr_fpscr (s : State) (v : BitVec 64) : (s.writeFpscr v).th.regs.fpscr = v &&& fpscrMask s.params := rfl

theorem fpscrMask_of_w64 {p : Params} (h : fpscrWidth p = .w64) : fpscrMask p = BitVec.allOnes 64 := by
  simp only [fpscrMask, h]; decide

theorem fpscrMask_of_w32 {p : Params} (h : fpscrWidth p = .w32) : fpscrMask p = (BitVec.allOnes 32).setWidth 64 := by
  simp only [fpscrMask, h]; decide

theorem fpscrWidth_of_dfp {p : Params} (h : p.hasDfpHw = true) : fpscrWidth p = .w64 := if_pos h

theorem fpscrWidth_of_no_dfp {p : Params} (h : p.hasDfpHw = false) : fpscrWidth p = p.fpscrWidthNoDfp := if_neg (by simp [h])

/-- All 64 bits are written where FPSCR has them. -/
theorem State.writeFpscr_w64 {s : State} (v : BitVec 64) (h : fpscrWidth s.params = .w64) : (s.writeFpscr v).th.regs.fpscr = v := by
  rw [State.writeFpscr_fpscr, fpscrMask_of_w64 h, BitVec.and_allOnes]

/-- Only the lower half is written, and the upper half is 0, where FPSCR has 32 bits. -/
theorem State.writeFpscr_w32 {s : State} (v : BitVec 64) (h : fpscrWidth s.params = .w32) :
    (s.writeFpscr v).th.regs.fpscr = (v.setWidth 32).setWidth 64 := by
  rw [State.writeFpscr_fpscr, fpscrMask_of_w32 h]
  apply BitVec.eq_of_getLsbD_eq
  intro k hk
  simp only [BitVec.getLsbD_and, BitVec.getLsbD_setWidth, BitVec.getLsbD_allOnes]
  ac_rfl

/-- DRN lies in the upper half (G8). -/
theorem fpscrField_drn_of_lower_half {r : Regs} {v : BitVec 32} (h : r.fpscr = v.setWidth 64) : fpscrField r .drn = 0#3 := by
  have hupper : v.setWidth 64 >>> 32 = 0#64 := by
    apply BitVec.eq_of_toNat_eq
    have := v.isLt
    simp only [BitVec.toNat_ushiftRight, BitVec.toNat_setWidth, BitVec.toNat_zero, Nat.shiftRight_eq_div_pow]
    omega
  rw [fpscrField, h, BitVec.ushiftRight_and_distrib]
  simp only [fpscrLow, hupper, BitVec.zero_and, BitVec.setWidth_zero]

/-- Settles O22: the width fixes the mask of a write. -/
theorem fpscrHoldsTheBitsItHas : Obligations.FpscrHoldsTheBitsItHas := by
  intro s v
  refine ⟨fun hdfp => State.writeFpscr_w64 v (fpscrWidth_of_dfp hdfp),
    fun hdfp hw => State.writeFpscr_w64 v ((fpscrWidth_of_no_dfp hdfp).trans hw), fun hdfp hw => ?_⟩
  have hlower := State.writeFpscr_w32 v ((fpscrWidth_of_no_dfp hdfp).trans hw)
  exact ⟨hlower, fpscrField_drn_of_lower_half hlower⟩

end Sys2Proof.Machine
end

section
/-! Proofs of the statements about memory (20_memory.md), and of the invariant every step keeps, canonical memory (R25) among it. -/

namespace Sys2Proof.Machine

/-! ## Every step keeps the invariant (R19, R21, R25, R43, R75 to R79) -/

/-- An action keeps the invariant, if a call it performs goes to and comes back at code addresses (R21). -/
theorem Inv.perform {act : Action} {s t : State} (h : Inv s) (hsite : ∀ c, act.site? = some c → c.aligned = true)
    (hp : perform act s = .next t) : Inv t := by
  rcases perform_next hp with ⟨c, rfl, rfl⟩ | ⟨c, rfl, rfl⟩ | ⟨f, rfl, hr⟩ | ⟨rfl, u, hu, rfl⟩ | ⟨rfl, u, hu, rfl⟩ | ⟨size, rfl, u, hu, rfl⟩ | ⟨size, rfl, rfl⟩
  · exact h.performCall (hsite c rfl)
  · exact h.performCallOpaque (hsite c rfl)
  · exact h.performReturn hr
  · exact (h.saveToc hu).advance
  · exact (h.reloadToc hu).advance
  · exact (h.allocFrame hu).advance
  · exact (h.freeFrame size).advance

theorem Inv.exec {i : Instr} {s t : State} (h : Inv s) (he : exec i s = .next t) : Inv t := by
  cases i with
  | mfocr rt fxm => exact h.execMfocr he

/-- Settles O49: the check of the text duties keeps the invariant, and so does each of the three things a step can then do. -/
theorem stepKeepsTheInvariant : Obligations.StepKeepsTheInvariant := by
  intro base s t h hstep
  rcases stepWith_next hstep with ⟨act, hact, hp⟩ | ⟨-, w, i, -, -, he⟩ | ⟨-, w, -, -, hr⟩
  · exact h.checkText.perform (fun c hc => site_aligned h.params hact hc) hp
  · exact h.checkText.exec he
  · exact h.checkText.runBase hr

/-! ## Slots: read after write (R26, R27, R30) -/

/-- A slot access on the grid of 8 is an access of 8 bytes (R28). -/
theorem State.readSlot_on_grid (s : State) {a : Word} (h : a.toNat % 8 = 0) : s.readSlot a = s.memRead a 8 := if_pos h

theorem State.writeSlot_on_grid (s : State) {a : Word} (v : Word) (h : a.toNat % 8 = 0) : s.writeSlot a v = s.memWrite a 8 v.toNat := if_pos h

/-- A read of allocated bytes is performed (log entry 38). -/
theorem State.memRead_of_allocated {s : State} {a : Word} {n : Nat} (h : (accessAddrs a n).all (allocated s.params) = true) :
    s.memRead a n = .ok (s.readValue a n, s.drawn n) := if_pos h

/-- A store leaves r1, so the bytes below it are the same ones (R113). -/
theorem State.storeValue_shifting (s : State) (a : Word) (n v b : Nat) : (s.storeValue a n v).shifting b = s.shifting b := by
  have hx : (s.storeValue a n v).x 1 = s.x 1 := rfl
  rw [State.shifting, State.shifting, hx]

/-- A doubleword stored at or above r1 is the one read there. -/
theorem State.readValue_storeValue (s : State) (a v : Word) (h : ∀ i < 8, s.shifting (byteAddr a i) = false) :
    (s.storeValue a 8 v.toNat).readValue a 8 = v := by
  rw [State.readValue_above _ a fun i hi => (State.storeValue_shifting ..).trans (h i hi), State.contentWord_storeValue]

/-- Settles O25: the slot written is on the grid and allocated, so it can be read. -/
theorem slotReadsBackWhatWasWritten : Obligations.SlotReadsBackWhatWasWritten := by
  intro s t a v hw habove
  have h8 : a.toNat % 8 = 0 := (State.writeSlot_ok hw).2
  rw [State.writeSlot_on_grid s v h8] at hw
  obtain ⟨rfl, ha, -⟩ := State.memWrite_ok hw
  rw [State.readSlot_on_grid _ h8, State.memRead_of_allocated (by rwa [State.storeValue_params]), State.readValue_storeValue s a v habove]

/-! ## The frame of a store (R26, R31) -/

/-- Settles O26: a write that succeeds is the plain store of its bytes, none of which is program text. -/
theorem storeLeavesEverythingElse : Obligations.StoreLeavesEverythingElse := by
  intro s t a n v h
  have hcode : ∀ b, holdsCode s.params b = true → Memory.get t.mem b = Memory.get s.mem b := fun b hb => State.memWrite_code h hb
  obtain ⟨rfl, -, -⟩ := State.memWrite_ok h
  exact ⟨fun b hb => State.byteAt_storeValue_outside s a n v b hb, fun b hb => State.byteAt_code (hcode b hb) rfl hb, rfl, rfl, rfl, rfl, rfl⟩

/-! ## Forbidden accesses (R28, R31) -/

theorem State.readSlot_misaligned (s : State) {a : Word} (h : a.toNat % 8 ≠ 0) : s.readSlot a = .error .slotMisaligned := if_neg h

theorem State.writeSlot_misaligned (s : State) {a : Word} (v : Word) (h : a.toNat % 8 ≠ 0) : s.writeSlot a v = .error .slotMisaligned := if_neg h

/-- An access with a byte that fails a test does not pass it. -/
theorem accessAddrs_all_false {P : Nat → Bool} {a : Word} {n : Nat} (h : ∃ i < n, P (byteAddr a i) = false) : (accessAddrs a n).all P = false := by
  simpa [accessAddrs] using h

theorem State.memRead_unallocated {s : State} {a : Word} {n : Nat} (h : ∃ i < n, allocated s.params (byteAddr a i) = false) :
    s.memRead a n = .error .unallocated := by
  rw [State.memRead, if_neg (by simp [accessAddrs_all_false h])]

theorem State.memWrite_unallocated {s : State} {a : Word} {n : Nat} (u : Nat) (h : ∃ i < n, allocated s.params (byteAddr a i) = false) :
    s.memWrite a n u = .error .unallocated := by
  rw [State.memWrite, if_pos (by simp [accessAddrs_all_false h])]

theorem State.memWrite_to_code {s : State} {a : Word} {n : Nat} (u : Nat) (ha : ∀ i < n, allocated s.params (byteAddr a i) = true)
    (hc : ∃ i < n, holdsCode s.params (byteAddr a i) = true) : s.memWrite a n u = .error .writeToCode := by
  have hany : (accessAddrs a n).any (holdsCode s.params) = true := by simpa [accessAddrs] using hc
  rw [State.memWrite, if_neg (by simp [accessAddrs_all.mpr ha]), if_pos hany]

/-- R28: several reads stop where one of them is a misaligned one of R27's; the reason is that one's if it is the only read. -/
theorem memReads_misaligned {ls : List (Word × Nat)} {s : State} {l : Word × Nat} (hl : l ∈ ls) (hm : s.slotMisaligned l.1 l.2 = true) :
    ∃ e, memReads ls s = .error e ∧ (ls.length = 1 → e = .slotMisaligned) := by
  cases h : memReads ls s with
  | ok q => exact absurd ((memReads_ok h).2 l hl) (by simp [hm])
  | error e =>
    refine ⟨e, rfl, fun hone => ?_⟩
    obtain ⟨k, rfl⟩ := List.length_eq_one_iff.mp hone
    obtain rfl := List.mem_singleton.mp hl
    have hread : baseRead s l.1 l.2 = .error .slotMisaligned := if_pos hm
    rw [memReads, hread] at h
    injection h with h
    exact h.symm

/-- R28: several stores stop where one of them is a misaligned one of R27's. -/
theorem memWrites_misaligned {bs : List BaseStore} {s : State} {b : BaseStore} (hb : b ∈ bs) (hm : s.slotMisaligned b.addr b.bytes = true) :
    ∃ e, memWrites bs s = .error e := by
  cases h : memWrites bs s with
  | error e => exact ⟨e, rfl⟩
  | ok t => exact absurd (memWrites_aligned h b hb) (by simp [hm])

/-- An instruction one of whose reads is refused is refused so. -/
theorem runBase_of_reads_error {base : BaseISA} {w : InsnWord} {s : State} {e : Refusal}
    (h : memReads (base.loads w (seenBy base w s) s.baseState) (s.drawn 98) = .error e) : runBase base w s = .refused e := by
  unfold seenBy at h
  simp only [runBase, State.regs_eq, h]

/-- R27's two slots after r1 has come to `v` (log entry 18). -/
theorem moveSp_slotMisaligned {v : Word} {s : State} {a : Word} {n : Nat} :
    (moveSp v s).slotMisaligned a n = true ↔ n = 8 ∧ (a = v ∨ a = v + s.params.tocSaveOffset) ∧ a.toNat % 8 ≠ 0 := by
  rw [State.slotMisaligned_eq_true, tocSlot, moveSp_params, ← State.x_eq, moveSp_x]

theorem andThen_refused {r : Except Refusal State} {k : State → Result} (h : ∃ e, r = .error e) : ∃ e, andThen r k = .refused e := by
  obtain ⟨e, rfl⟩ := h
  exact ⟨e, rfl⟩

/-- R28: an effect is refused that has a misaligned store at one of R27's slots, x[1] being the effect's. -/
theorem applyEffect_misaligned {base : BaseISA} {w : InsnWord} {r : Regs} {f : BaseState} {st : List BaseStore} {s : State} {b : BaseStore} (hb : b ∈ st)
    (hbytes : b.bytes = 8) (hslot : b.addr = r.x 1 ∨ b.addr = tocSlot s.params r) (hoff : b.addr.toNat % 8 ≠ 0) :
    ∃ e, applyEffect base w r f st s = .refused e := by
  have hx : (keptRegs s.params (base.writes w) s.regs r).x 1 = r.x 1 := keptRegs_x _ _ _ _ (by decide)
  simp only [applyEffect, hx]
  split
  · exact ⟨_, rfl⟩
  · exact andThen_refused (memWrites_misaligned hb (moveSp_slotMisaligned.mpr ⟨hbytes, hslot, hoff⟩))

/-- An instruction whose effect, whatever it reads and draws, has a misaligned store of R27's is refused, by a read or by the store. -/
theorem runBase_misaligned_store {base : BaseISA} {w : InsnWord} {s : State}
    (h : ∀ vs d, ∃ r f st, base.run w (seenBy base w s) s.baseState vs d = .effect r f st ∧
      ∃ b ∈ st, b.bytes = 8 ∧ (b.addr = r.x 1 ∨ b.addr = tocSlot s.params r) ∧ b.addr.toNat % 8 ≠ 0) : ∃ e, runBase base w s = .refused e := by
  cases hq : memReads (base.loads w (seenBy base w s) s.baseState) (s.drawn 98) with
  | error e => exact ⟨e, runBase_of_reads_error hq⟩
  | ok q =>
    obtain ⟨r, f, st, hrun, b, hb, hbytes, hslot, hoff⟩ := h q.1 fun i => Config.drawWord (s.draws + 2 + i.val)
    have hparams : q.2.params = s.params := by rw [(memReads_ok hq).1]; rfl
    unfold seenBy at hq hrun
    simp only [runBase, State.regs_eq, hq, hrun]
    refine applyEffect_misaligned hb hbytes ?_ hoff
    rw [tocSlot, State.setReloadOwed_params, hparams, drawRightHalves_x]
    exact hslot

/-- Settles O28: the checks of `runBase`, `readSlot`, `writeSlot`, `memRead` and `memWrite`, in this order. -/
theorem forbiddenAccessesStop : Obligations.ForbiddenAccessesStop := by
  refine ⟨fun base w s seen hseen => ?_, fun s a v => ⟨fun h => ?_, fun n u h => ?_, fun n u => State.memWrite_to_code u⟩⟩
  · obtain rfl : seen = seenBy base w s := hseen
    refine ⟨?_, runBase_misaligned_store⟩
    rintro ⟨l, hl, hbytes, hslot, hoff⟩
    have hm : (s.drawn 98).slotMisaligned l.1 l.2 = true := State.slotMisaligned_eq_true.mpr ⟨hbytes, hslot, hoff⟩
    obtain ⟨e, he, hone⟩ := memReads_misaligned hl hm
    exact ⟨e, runBase_of_reads_error he, hone⟩
  · exact ⟨State.writeSlot_misaligned s v h, State.readSlot_misaligned s h⟩
  · exact ⟨State.memWrite_unallocated u h, State.memRead_unallocated h⟩

end Sys2Proof.Machine
end

section
/-! Proofs of the statements about encoding and decoding, the words that go to BaseISA, and the form of `mfocr` that is not valid (30_encoding.md). -/

namespace Sys2Proof

/-! ## Decoding a word (R34, R36, R38) -/

/-- The open mask is the mask without the bits `insn[11]` and `insn[0]`. -/
theorem mfocrMaskOpen_eq : mfocrMaskOpen = 0xFFFFF7FE#32 &&& mfocrMask := by decide

/-- The layout of R34 asks nothing of the reserved bits that the open mask drops. -/
theorem match_open_of_match {w : InsnWord} (h : w &&& mfocrMask = mfocrMatch) : w &&& mfocrMaskOpen = mfocrMatch := by
  rw [mfocrMaskOpen_eq, BitVec.and_comm 0xFFFFF7FE#32, ← BitVec.and_assoc, h]
  decide

theorem decodeWord_reservedBits {w : InsnWord} (h : w &&& mfocrMask ≠ mfocrMatch) (ho : w &&& mfocrMaskOpen = mfocrMatch) :
    decodeWord w = .error (.reservedBits w) := by
  rw [decodeWord, if_neg h, if_pos ho]

theorem decodeWord_outsideSpec {w : InsnWord} (h : w &&& mfocrMaskOpen ≠ mfocrMatch) : decodeWord w = .error (.outsideSpec w) := by
  rw [decodeWord, if_neg (mt match_open_of_match h), if_neg h]

/-- Only a word in the layout of R34 decodes to an instruction. -/
theorem match_of_decodeWord {w : InsnWord} {i : Instr} (h : decodeWord w = .ok i) : w &&& mfocrMask = mfocrMatch := by
  by_contra hm
  by_cases ho : w &&& mfocrMaskOpen = mfocrMatch
  · exact absurd ((decodeWord_reservedBits hm ho).symm.trans h) (by simp)
  · exact absurd ((decodeWord_outsideSpec ho).symm.trans h) (by simp)

/-! ## Decoding an encoding -/

theorem encode_match (i : Instr) : encode i &&& mfocrMask = mfocrMatch := by
  cases i with
  | mfocr rt fxm => exact encode_mfocr_match rt fxm

theorem decodeWord_encode (i : Instr) : decodeWord (encode i) = .ok i := by
  rw [Machine.decodeWord_encoding (encode_match i)]
  cases i with
  | mfocr rt fxm => rw [rtField_encode, fxmField_encode]

theorem encode_of_decodeWord {w : InsnWord} {i : Instr} (h : decodeWord w = .ok i) : w = encode i := by
  have hm := match_of_decodeWord h
  rw [Machine.decodeWord_encoding hm] at h
  injection h with h
  rw [← h, encode_fields w hm]

/-- Four bytes are decoded as the word they make; the rest is left over. -/
theorem decodeBytes_append (o : ByteOrder) {bs : List Byte} (rest : List Byte) (h : bs.length = insnBytes) :
    decodeBytes o (bs ++ rest) = (decodeWord (BitVec.ofNat 32 (joinBytes o bs))).map fun i => (i, rest) := by
  match bs, h with
  | [_, _, _, _], _ => rfl

/-- A word laid out in a byte order and put together in it is the word. -/
theorem ofNat_joinBytes_bytesOf (o : ByteOrder) (w : InsnWord) : BitVec.ofNat 32 (joinBytes o (bytesOf o insnBytes w.toNat)) = w := by
  have hlt : w.toNat < 256 ^ insnBytes := w.isLt
  rw [Machine.joinBytes_bytesOf, Nat.mod_eq_of_lt hlt, BitVec.ofNat_toNat, BitVec.setWidth_eq]

theorem decodeBytes_encodeBytes (o : ByteOrder) (i : Instr) (rest : List Byte) : decodeBytes o (encodeBytes o i ++ rest) = .ok (i, rest) := by
  rw [encodeBytes, decodeBytes_append o rest (Machine.bytesOf_length ..), ofNat_joinBytes_bytesOf, decodeWord_encode]
  rfl

/-- A word of 32 bits is read from the opcode table as it is. -/
theorem tableWord_toNat (w : InsnWord) : tableWord 32 w.toNat = w := by
  rw [tableWord, Nat.mod_eq_of_lt w.isLt, BitVec.ofNat_toNat, BitVec.setWidth_eq]

theorem decodeTableWord_encode (i : Instr) : decodeTableWord 32 (encode i).toNat = some i := by
  have h := decodeBytes_encodeBytes .be i []
  rw [List.append_nil, encodeBytes] at h
  simp only [decodeTableWord, tableWord_toNat, h]

/-- Settles O2: the fields of an encoding are those of the instruction, and its bytes make its word again. -/
theorem decodeOfEncodeIsIdentity : Obligations.DecodeOfEncodeIsIdentity :=
  fun i => ⟨decodeWord_encode i, fun o rest => decodeBytes_encodeBytes o i rest⟩

/-- Settles O3: a word that decodes is in the layout of R34, so it is the encoding of its fields. -/
theorem onlyEncodingsDecode : Obligations.OnlyEncodingsDecode := by
  refine fun w i => ⟨encode_of_decodeWord, ?_⟩
  rintro rfl
  exact decodeWord_encode i

/-- Settles O1: each word is the encoding of its instruction (O3), the last one as the opcode table has it. -/
theorem writtenOutWordsDecode : Obligations.WrittenOutWordsDecode := by
  refine ⟨(onlyEncodingsDecode _ _).mpr ?_, (onlyEncodingsDecode _ _).mpr ?_, (onlyEncodingsDecode _ _).mpr ?_,
    (onlyEncodingsDecode _ _).mpr ?_, decodeTableWord_encode (.mfocr 3 0x01#8)⟩ <;> decide

/-! ## Words that are no encoding (R36, R38) -/

/-- An encoding with bits set outside the open mask is still in the open layout. -/
theorem encode_or_match_open (i : Instr) {r : InsnWord} (h : r &&& mfocrMaskOpen = 0#32) :
    (encode i ||| r) &&& mfocrMaskOpen = mfocrMatch := by
  rw [BitVec.and_or_distrib_right, match_open_of_match (encode_match i), h, BitVec.or_zero]

/-- An encoding with more bits of the mask set than R34 has is out of its layout. -/
theorem encode_or_match_ne (i : Instr) {r : InsnWord} (h : mfocrMatch ||| (r &&& mfocrMask) ≠ mfocrMatch) :
    (encode i ||| r) &&& mfocrMask ≠ mfocrMatch := by
  rwa [BitVec.and_or_distrib_right, encode_match]

/-- R36: an encoding with one or both of the reserved bits set is named so. -/
theorem decodeWord_encode_or (i : Instr) {r : InsnWord} (h : mfocrMatch ||| (r &&& mfocrMask) ≠ mfocrMatch) (ho : r &&& mfocrMaskOpen = 0#32) :
    decodeWord (encode i ||| r) = .error (.reservedBits (encode i ||| r)) :=
  decodeWord_reservedBits (encode_or_match_ne i h) (encode_or_match_open i ho)

/-- R38: a word that is no encoding even with the reserved bits cleared is outside the spec. -/
theorem decodeWord_foreign {w : InsnWord} (h : ∀ i : Instr, w &&& 0xFFFFF7FE#32 ≠ encode i) : decodeWord w = .error (.outsideSpec w) := by
  refine decodeWord_outsideSpec fun ho => ?_
  have hm : (w &&& 0xFFFFF7FE#32) &&& mfocrMask = mfocrMatch := by rw [BitVec.and_assoc, ← mfocrMaskOpen_eq, ho]
  exact h _ (encode_fields _ hm).symm

end Sys2Proof

namespace Sys2Proof.Machine

/-! ## The step of a word that is no encoding -/

theorem runWord_reservedBits (base : BaseISA) {w v : InsnWord} (s : State) (h : decodeWord w = .error (.reservedBits v)) :
    runWord base w s = .refused (.reservedBits v) := by
  simp only [runWord, h]

theorem runWord_outsideSpec (base : BaseISA) {w v : InsnWord} (s : State) (h : decodeWord w = .error (.outsideSpec v)) :
    runWord base w s = runBase base v s := by
  simp only [runWord, h]

/-- Settles O4: the three patterns are in the open layout and out of the layout of R34. -/
theorem reservedBitWordsStop : Obligations.ReservedBitWordsStop := by
  intro i w hw
  have hdec : decodeWord w = .error (.reservedBits w) := by
    rcases hw with rfl | rfl | rfl
    · exact decodeWord_encode_or i (r := 0x1#32) (by decide) (by decide)
    · exact decodeWord_encode_or i (r := 0x800#32) (by decide) (by decide)
    · exact decodeWord_encode_or i (r := 0x801#32) (by decide) (by decide)
  exact ⟨hdec, fun base s ha hf => (stepWith_of_fetch_ok base ha hf).trans (runWord_reservedBits base _ hdec)⟩

/-! ## An instruction of BaseISA that reads no memory (R38, R110; log entries 18, 42) -/

theorem keptRegs_pc (p : Params) (ws : List ReservedRegister) (old new : Regs) : (keptRegs p ws old new).pc = new.pc := by
  simp only [keptRegs]
  split <;> rfl

/-- r1 that stays moves nothing. -/
theorem moveSp_self (s : State) : moveSp (s.x 1) s = s := if_pos rfl

theorem reservedMarks_nil {base : BaseISA} {w : InsnWord} (hreads : base.reads w = []) (hwrites : base.writes w = []) :
    reservedMarks base w = [] := by
  simp only [reservedMarks, hreads, hwrites, List.filter_nil, List.append_nil, List.map_nil]

theorem State.markAll_nil (s : State) : s.markAll [] = s := rfl

/-- An effect without Reserved accesses and stores that leaves r1 and the grid alone comes to its registers and its further state. -/
theorem applyEffect_plain {base : BaseISA} {w : InsnWord} {r : Regs} {s : State} (f : BaseState) (hreads : base.reads w = []) (hwrites : base.writes w = [])
    (hx : r.x 1 = s.th.regs.x 1) (hpc : r.pc.toNat % 4 = 0) :
    applyEffect base w r f [] s = .next ((s.setRegs (keptRegs s.params [] s.th.regs r)).setBaseState f).checkChain := by
  have hkx : (keptRegs s.params [] s.th.regs r).x 1 = s.th.regs.x 1 := (keptRegs_x _ _ _ _ (by decide)).trans hx
  have hk : (keptRegs s.params [] s.th.regs r).setX 1 (s.th.regs.x 1) = keptRegs s.params [] s.th.regs r := by rw [← hkx, Regs.setX_self]
  have hsp : (((s.setRegs (keptRegs s.params [] s.th.regs r)).setBaseState f).x 1) = s.th.regs.x 1 := hkx
  simp only [applyEffect, hwrites, State.regs_eq, State.x_eq, keptRegs_pc, hkx, hk, reservedMarks_nil hreads hwrites, State.markAll_nil]
  rw [if_neg (by simpa only [insnBytes, not_not] using hpc), ← hsp, moveSp_self]
  rfl

section
variable {base : BaseISA} {w : InsnWord} (hloads : ∀ r f, base.loads w r f = [])
include hloads

/-- R110, decision D7: its exception ends the run. -/
theorem runBase_exception (s : State) (h : ∀ r f l d, base.run w r f l d = .exception) : runBase base w s = .fault .baseException := by
  simp only [runBase, hloads, memReads, h, takeException]

/-- R38: a word BaseISA does not know is refused. -/
theorem runBase_outside (s : State) (h : ∀ r f l d, base.run w r f l d = .outside) : runBase base w s = .refused (.outsideSpec w) := by
  simp only [runBase, hloads, memReads, h]

/-- An effect that names no Reserved and no floating-point register, stores nothing and leaves r1 and the grid alone: the registers and the further state are
those of the effect, the draws are used up, and whether a reload is owed stays. -/
theorem runBase_effect {s : State} {g : Regs → Regs} {f : BaseState → BaseState} {r : Regs} (h : ∀ q b l d, base.run w q b l d = .effect (g q) (f b) [])
    (hreads : base.reads w = []) (hwrites : base.writes w = []) (hfprs : base.fprs w = []) (hr : r = g (seenBy base w s))
    (hx : r.x 1 = s.th.regs.x 1) (hpc : r.pc.toNat % 4 = 0) :
    runBase base w s = .next (((s.drawn 98).setRegs (keptRegs s.params [] s.th.regs r)).setBaseState (f s.baseState)).checkChain := by
  subst hr
  have howed : (s.drawn 98).setReloadOwed s.th.reloadOwed = s.drawn 98 := rfl
  unfold seenBy at hx hpc ⊢
  simp only [runBase, hloads, memReads, h, hfprs, drawRightHalves_nil, isReload, List.zip_nil_left, List.any_nil, Bool.not_false, Bool.and_true, State.regs_eq, howed]
  exact applyEffect_plain (s := s.drawn 98) _ hreads hwrites hx hpc

end

/-- Settles O5: a foreign word decodes to none, so that the step is runBase, which has each of the three answers of BaseISA as it is. -/
theorem foreignWordsGoToBaseISA : Obligations.ForeignWordsGoToBaseISA := by
  intro w hw
  have hdec := decodeWord_foreign hw
  refine ⟨hdec, fun s ha hf => ?_⟩
  have hrun : ∀ base : BaseISA, stepWith base s = runBase base w s.checkText := fun base =>
    (stepWith_of_fetch_ok base ha hf).trans (runWord_outsideSpec base _ hdec)
  refine ⟨(hrun noBaseISA).trans (runBase_noBaseISA w _), fun base => ⟨hrun base, fun hloads => ⟨?_, ?_, ?_⟩⟩⟩
  · exact fun h => (hrun base).trans (runBase_exception hloads _ h)
  · exact fun h => (hrun base).trans (runBase_outside hloads _ h)
  · intro g f r h hreads hwrites hfprs hr hx hpc
    have hseen : r = g (seenBy base w s.checkText) := by rw [hr, seenBy, hreads]; rfl
    exact ⟨_, (hrun base).trans (runBase_effect hloads h hreads hwrites hfprs hseen hx hpc), rfl, rfl, fun b => State.byteAt_congr rfl rfl rfl b⟩

/-! ## A placed word is the one fetched (R21, R31, R33; log entry 9) -/

/-- The address a word is placed at is on the grid of 4. -/
theorem placeWord_pc_grid (s : State) (w : InsnWord) : (placeWord s w).pc.toNat % 4 = 0 := by
  have h : (s.pc &&& 0xFFFFFFFFFFFFFFFC#64).toNat % 2 ^ 2 = 0 := by
    rw [BitVec.toNat_and, Nat.and_mod_two_pow]
    exact Nat.and_zero _
  exact h

/-- No action stands where a word is placed. -/
theorem actionAt_placeWord (s : State) (w : InsnWord) : actionAt (placeWord s w) = none := by
  refine List.lookup_eq_none_iff.mpr fun e he => ?_
  have := (List.mem_filter.mp he).2
  rwa [bne_comm]

/-- The placed word's bytes are code. -/
theorem holdsCode_placeWord (s : State) (w : InsnWord) {k : Nat} (hk : k < 4) : holdsCode (placeWord s w).params ((placeWord s w).pc.toNat + k) = true := by
  refine List.any_eq_true.mpr ⟨⟨.code, (placeWord s w).pc.toNat, insnBytes⟩, List.mem_cons_self, ?_⟩
  simp [insnBytes, hk]

/-- On the grid of 4 an access of 4 bytes does not wrap. -/
theorem byteAddr_of_grid {a : Word} (h : a.toNat % 4 = 0) {k : Nat} (hk : k < 4) : byteAddr a k = a.toNat + k := by
  have := a.isLt
  simp only [byteAddr, BitVec.toNat_add, BitVec.toNat_ofNat]
  omega

/-- The program text at the placed word is its bytes in the run's byte order. -/
theorem textBytes_placeWord (s : State) (w : InsnWord) :
    textBytes (placeWord s w).mem (placeWord s w).pc.toNat 4 = some (bytesOf s.params.byteOrder insnBytes w.toNat) := by
  have hlen : (bytesOf s.params.byteOrder insnBytes w.toNat).length = 4 := bytesOf_length ..
  rw [← hlen]
  refine textBytes_of_get fun k hk => ?_
  rw [← byteAddr_of_grid (placeWord_pc_grid s w) (hlen ▸ hk)]
  exact Memory.get_store_inside _ _ _ k hk (by rw [hlen]; decide)

theorem fetch_placeWord (s : State) (w : InsnWord) : fetch (placeWord s w) = .ok w := by
  have h := fetch_on_grid (placeWord_pc_grid s w) (fun _ hk => holdsCode_placeWord s w hk) (textBytes_placeWord s w)
  exact h.trans (congrArg _ (ofNat_joinBytes_bytesOf s.params.byteOrder w))

/-- Settles O7: no action stands at the placed word, it is the one fetched, and it decodes to the instruction. -/
theorem placedInstructionRunsNext : Obligations.PlacedInstructionRunsNext := by
  intro s i
  rw [State.withFetchWord, tableWord_toNat]
  exact (stepWith_of_fetch_ok noBaseISA (actionAt_placeWord s _) (fetch_placeWord s _)).trans (runWord_of_decodeWord noBaseISA _ (decodeWord_encode i))

/-! ## The form of mfocr that is not valid (R37, decision D28) -/

theorem mfocrResult_of_not_validForm (p : Params) {rt : Fin 32} {fxm : BitVec 8} (cr : CrWord) (d0 d1 : Word) (h : (Instr.mfocr rt fxm).validForm = false) :
    mfocrResult p fxm cr d0 d1 = d0 := by
  simp only [mfocrResult, selectedField_of_not_validForm rt fxm h]

/-- Settles O11: in an invalid form no field is selected, so that the result is the first of the two draws. -/
theorem mfocrInvalidFormIsFree : Obligations.MfocrInvalidFormIsFree := by
  intro rt fxm s h
  obtain ⟨t, ht⟩ : ∃ t, execMfocr rt fxm s = .next t := ⟨_, rfl⟩
  refine ⟨t, ht, (execMfocr_result ht).trans (mfocrResult_of_not_validForm _ _ _ _ h), ?_⟩
  rw [State.pc_eq, execMfocr_regs ht]
  rfl

end Sys2Proof.Machine
end

section
/-! Proofs of the statements about Call and Return (40_linkage_general_registers.md R44 to R46, R57, R66, R72 to R74, R80, R81). -/

namespace Sys2Proof.Machine

/-! ## A Call (R45, R72 to R74) -/

/-- Settles O29: the registers are those `entryRegs` gives, every one but r0, r11, r12, LR and pc the caller's. -/
theorem callTransfersControl : Obligations.CallTransfersControl := by
  intro c s
  have hrest := entryRegs_rest c s.th.regs (Config.drawWord (s.draws + 8)) (Config.drawWord (s.draws + 9)) (Config.drawWord (s.draws + 10))
  refine ⟨performCall c s, rfl, entryRegs_lr .., entryRegs_pc .., ⟨_, _, rfl, rfl, rfl, rfl, rfl, rfl, rfl, rfl, rfl, rfl, rfl, rfl⟩,
    fun i h0 h11 h12 => entryRegs_x h0 h11 h12, entryRegs_cr .., entryRegs_vsr .., (congrArg Regs.ctr hrest :), (congrArg Regs.xer hrest :), (congrArg Regs.tar hrest :),
    (congrArg Regs.dscr hrest :), (congrArg Regs.vrsave hrest :), (congrArg Regs.fpscr hrest :), (congrArg Regs.vscr hrest :), ?_, rfl, rfl, rfl, rfl⟩
  exact fun b => State.byteAt_congr rfl rfl rfl b

/-- R45, line by line: which requirement a Call's mark names, and when. -/
theorem mem_callBreaches {c : CallSite} {s : State} {r : CallRule} : r ∈ callBreaches c s ↔
    ((s.th.regs.x 1).toNat % 16 ≠ 0 ∧ r = .spMisaligned) ∨
    (tocLegal s.params c.caller (s.th.regs.x 2) = false ∧ r = .tocIllegal) ∨
    ((c.kind = .globalEntry ∧ s.params.mayLeaveModule c.caller c.callee = true ∧ tocSaved s = false) ∧ r = .tocNotSaved) ∨
    ((c.kind = .globalEntry ∧ s.th.regs.x 12 ≠ c.target) ∧ r = .entryAddress) := by
  unfold callBreaches
  simp only [List.mem_append, mem_failing, or_assoc, State.x_eq]
  refine or_congr (and_congr_left' ?_) (or_congr Iff.rfl (or_congr (and_congr_left' ?_) (and_congr_left' ?_)))
  · rw [← Bool.not_eq_true, quadAligned_iff]
  · rw [Bool.or_eq_false_iff, Bool.not_eq_false', leavesModule_iff, and_assoc]
  · simp

/-- What the caller has left undone beside R45's lines. -/
theorem mem_callerBreaches {s : State} {r : AbiRule} : r ∈ callerBreaches s ↔
    (s.th.reloadOwed = true ∧ r = .tocNotReloaded) ∨
    ((∃ a, s.th.activations.head? = some a ∧ limitedKept s.params a.callee a.entry s.th.regs = false) ∧ r = .callLimitedAccess) := by
  unfold callerBreaches
  simp only [List.mem_append, mem_failing, State.regs_eq, Bool.not_eq_false']
  refine or_congr Iff.rfl (and_congr_left' ?_)
  cases s.th.activations <;> simp

theorem failedCall_mem_callMarks {c : CallSite} {s : State} {r : CallRule} :
    .failedCall r s.th.activations.length ∈ callMarks c s ↔ r ∈ callBreaches c s := by simp [callMarks]

theorem abiViolation_mem_callMarks {c : CallSite} {s : State} {r : AbiRule} : .abiViolation r ∈ callMarks c s ↔ r ∈ callerBreaches s := by
  simp [callMarks]

/-- What a Call without a mark has met. -/
theorem callMarks_eq_nil_iff {c : CallSite} {s : State} : callMarks c s = [] ↔
    (s.th.regs.x 1).toNat % 16 = 0 ∧ tocLegal s.params c.caller (s.th.regs.x 2) = true ∧
    (c.kind = .globalEntry → s.params.mayLeaveModule c.caller c.callee = true → tocSaved s = true) ∧
    (c.kind = .globalEntry → s.th.regs.x 12 = c.target) ∧ s.th.reloadOwed = false ∧
    ∀ a, s.th.activations.head? = some a → limitedKept s.params a.callee a.entry s.th.regs = true := by
  simp only [callMarks_eq_nil, callBreaches_eq_nil, callerBreaches_eq_nil, and_assoc]

/-- Settles O30: the marks are `callMarks`, and each is one line's. -/
theorem callMarksFailedRequirements : Obligations.CallMarksFailedRequirements := by
  intro c s t h
  obtain rfl : performCall c s = t := by injection h
  refine ⟨rfl, callMarks c s, rfl, ?_, ?_, ?_, ?_, ?_, ?_, callMarks_eq_nil_iff⟩ <;>
    simp [failedCall_mem_callMarks, mem_callBreaches, abiViolation_mem_callMarks, mem_callerBreaches]

/-- Settles O31: the three registers are those `entryRegs` gives, and a GLOBAL Call without a mark has met R74's requirement on r12. -/
theorem linkageRegistersOnEntry : Obligations.LinkageRegistersOnEntry := by
  intro c s t h
  obtain rfl : performCall c s = t := by injection h
  refine ⟨entryRegs_x0, fun e he => ?_, fun he => ?_, fun hk hm => ?_, fun hk => entryRegs_x12_nonglobal hk⟩
  · rw [State.x_eq, performCall_regs, entryRegs_x11, he, Option.getD_some]
  · rw [State.x_eq, performCall_regs, entryRegs_x11, he, Option.getD_none]
  · obtain ⟨-, -, -, htarget, -⟩ := callMarks_eq_nil_iff.mp (marks_eq_self.mp hm)
    rw [State.x_eq, State.pc_eq, performCall_regs, entryRegs_x12_global hk, entryRegs_pc, htarget hk]

/-! ## A Return (R46, R80) -/

/-- The verdict on a Return does not depend on LR (R57). -/
theorem returnBreaches_writeLr (a : Activation) (s : State) (v : Word) : returnBreaches a (s.writeLr v) = returnBreaches a s := rfl

/-- Settles O35: a Return takes its address from `entry(f)`, and its verdict does not look at LR. -/
theorem returnGoesWhereLinkRegisterPointedOnEntry : Obligations.ReturnGoesWhereLinkRegisterPointedOnEntry := by
  refine ⟨fun c s => entryRegs_lr .., ?_, fun p c r k => rfl⟩
  rintro f s a rest v ha rfl
  refine ⟨_, _, performReturn_running ha, rfl, performReturn_running (s := s.writeLr v) ha, rfl, ?_⟩
  simp only [leaveFunction_breaches, State.markAbi_breaches, returnBreaches_writeLr]
  rfl

theorem performReturn_of_other {f : Nat} {s : State} (h : ∀ a, s.th.activations.head? = some a → a.callee ≠ f) :
    performReturn f s = .error .notNormalReturn := by
  unfold performReturn
  split
  · rfl
  · next a rest ha => rw [if_neg (h a (by rw [ha]; rfl))]

/-- Settles O44: Return answers only for the callee of the newest activation. -/
theorem otherReturnsStop : Obligations.OtherReturnsStop := by
  intro f s h
  simp only [perform, performReturn_of_other h, andThen]

/-- Settles O36: the marks are `returnBreaches`, nil exactly when the obligations hold and no reload is owed; the marks since entry are the newer ones. -/
theorem returnMarksExactlyBrokenObligations : Obligations.ReturnMarksExactlyBrokenObligations := by
  intro s a rest ha
  refine ⟨_, performReturn_running ha, ?_, ?_, ?_, by simp, by simp, by simp, fun b => ?_, by simp, by simp⟩
  · rw [leaveFunction_breaches, State.markAbi_breaches, marks_eq_self, List.map_eq_nil_iff, returnBreaches_eq_nil]
  · rw [leaveFunction_reloadOwed, State.markAbi_params, leavesModule_iff]
  · intro older newer hmarks hentry
    have hsince : s.th.marksSince a.marksAtEntry = newer := by rw [hentry]; exact Thread.marksSince_append hmarks
    have hreserved : (∀ r, Breach.reservedRegister r ∉ newer) ↔
        Breach.reservedRegister .r13 ∉ newer ∧ Breach.reservedRegister .tar ∉ newer ∧ Breach.reservedRegister .vrsave ∉ newer :=
      ⟨fun h => ⟨h _, h _, h _⟩, fun ⟨h13, htar, hvrsave⟩ r => by cases r <;> assumption⟩
    simp only [CalleeObligations, hsince, hreserved, State.x_eq, State.regs_eq]
    tauto
  · exact State.byteAt_congr (by simp) (by simp) (by simp) b

theorem mem_returnBreaches {a : Activation} {s : State} {r : AbiRule} (h : r ≠ .tocNotReloaded) :
    r ∈ returnBreaches a s ↔ r ∈ calleeBreaches s.params a s.th := by
  simp [returnBreaches, mem_failing, h]

/-- Settles O37: the mark of R66 is the line of R80 that asks for r2. -/
theorem tocPointerPreservedInsideModule : Obligations.TocPointerPreservedInsideModule := by
  intro s t a rest ha h
  obtain rfl : leaveFunction a rest (s.markAbi (returnBreaches a s)) = t := by
    rw [performReturn_running ha] at h
    injection h
  have hline : Breach.abiViolation .returnToc ∈ (returnBreaches a s).map Breach.abiViolation ↔
      ¬ (s.params.sameModule a.caller a.callee = true → s.th.regs.x 2 = a.entry.x 2) := by
    simp [mem_returnBreaches, mem_calleeBreaches]
  have hnew : (leaveFunction a rest (s.markAbi (returnBreaches a s))).th.marksSince s.th.breaches.length = (returnBreaches a s).map Breach.abiViolation :=
    Thread.marksSince_append (by simp)
  rw [Thread.marksSince] at hnew
  simp only [hnew, hline]
  exact ⟨fun hsame => by simp [hsame], fun hsame => by simp [hsame]⟩

/-- R44, D13: when a Return is marked for a limited-access field. -/
theorem returnLimitedAccess_mem_iff {p : Params} {a : Activation} {t : Thread} :
    AbiRule.returnLimitedAccess ∈ calleeBreaches p a t ↔ ¬ ∀ x, limitedHeld p a.callee x = true → limitedValue a.entry x = limitedValue t.regs x := by
  rw [← limitedKept_iff]
  simp [mem_calleeBreaches]

/-- Settles O40: a field is asked for exactly where it is held, and the three kinds of fields are compared as the masks compare them. -/
theorem limitedAccessFollowsThePolicy : Obligations.LimitedAccessFollowsThePolicy := by
  intro p a t
  simp only [returnLimitedAccess_mem_iff, limitedHeld_iff, not_not]
  refine ⟨fun hp x hx => ?_, fun hall x hx => ?_, fun hp => not_congr ⟨fun h => ⟨fun hx => ?_, fun f hx => ?_, fun hx => ?_⟩, ?_⟩⟩
  · exact absurd hx.1 (by simp [hp])
  · exact absurd hx.2 (by simp [hall x])
  · exact (h .dscr ⟨hp, hx⟩).symm
  · exact (fpscrField_eq_iff _ _ f).mpr (h (.fpscr f) ⟨hp, hx⟩).symm
  · exact (limitedValue_vscrNJ _ _).mp (h .vscrNJ ⟨hp, hx⟩).symm
  · rintro ⟨hdscr, hfpscr, hnj⟩ x ⟨-, hx⟩
    cases x with
    | dscr => exact (hdscr hx).symm
    | fpscr f => exact ((fpscrField_eq_iff _ _ f).mp (hfpscr f hx)).symm
    | vscrNJ => exact ((limitedValue_vscrNJ _ _).mpr (hnj hx)).symm

/-- f and v are views of the vector-scalar file. -/
theorem Regs.f_congr {r q : Regs} (h : r.vsr = q.vsr) (i : Fin 32) : r.f i = q.f i := by simp only [Regs.f, Regs.vs, h]

theorem Regs.v_congr {r q : Regs} (h : r.vsr = q.vsr) (i : Fin 32) : r.v i = q.v i := by simp only [Regs.v, Regs.vs, h]

/-- Settles O41: R80 compares with the entry, and the entry agrees with the state just before the Call on everything R81 lists. -/
theorem callerMayAssumeAfterUnmarkedReturn : Obligations.CallerMayAssumeAfterUnmarkedReturn := by
  intro s t a rest hinv ha h hm
  obtain rfl : leaveFunction a rest (s.markAbi (returnBreaches a s)) = t := by
    rw [performReturn_running ha] at h
    injection h
  have hentry : EntryFollowsCall a := hinv.activations a (by rw [ha]; exact List.mem_cons_self)
  obtain ⟨hmet, -⟩ := returnBreaches_eq_nil.mp (List.map_eq_nil_iff.mp (marks_eq_self.mp hm))
  obtain ⟨hx1, hgpr, htoc, ⟨hx13, -⟩, hcr, hf, hv, -⟩ := hmet
  have hx : ∀ i : Fin 32, i ≠ 0 → i ≠ 11 → i ≠ 12 → s.th.regs.x i = a.entry.x i → s.th.regs.x i = a.pre.x i :=
    fun i h0 h11 h12 he => he.trans (hentry.gprs i h0 h11 h12)
  refine ⟨hentry.returnAddress, hx 1 (by decide) (by decide) (by decide) hx1, fun i hi => ?_, hx 13 (by decide) (by decide) (by decide) hx13,
    fun hsame => hx 2 (by decide) (by decide) (by decide) (htoc hsame), fun n h2 h4 => ?_, fun i hi => ?_, fun i hi => ?_⟩
  · exact hx i (by rintro rfl; simp at hi) (by rintro rfl; simp at hi) (by rintro rfl; simp at hi) (hgpr i hi)
  · exact (hcr n h2 h4).trans (by rw [hentry.cr])
  · exact (hf i hi).trans (Regs.f_congr hentry.vsr i)
  · exact (hv i hi).trans (Regs.v_congr hentry.vsr i)

end Sys2Proof.Machine
end

section
/-! Proofs of the statements about the class tables (Tables 2.19 to 2.22) and the Reserved registers (40_linkage_general_registers.md R41 to R43, R48 to R62). -/

namespace Sys2Proof.Machine

/-! ## What the tables ask to be preserved -/

/-- A register of at most 128 bits is what it reads as. -/
theorem setWidth_quad_inj {w : Nat} (hw : w ≤ 128) {a b : BitVec w} : a.setWidth 128 = b.setWidth 128 ↔ a = b :=
  ⟨fun h => by simpa [BitVec.setWidth_setWidth_of_le _ hw] using congrArg (BitVec.setWidth w) h, fun h => by rw [h]⟩

theorem Regs.read_gpr {a b : Regs} {i : Fin 32} : a.read (.gpr i) = b.read (.gpr i) ↔ a.x i = b.x i := setWidth_quad_inj (by decide)
theorem Regs.read_crField {a b : Regs} {n : Fin 8} : a.read (.crField n) = b.read (.crField n) ↔ crf a.cr n = crf b.cr n := setWidth_quad_inj (by decide)
theorem Regs.read_fpr {a b : Regs} {i : Fin 32} : a.read (.fpr i) = b.read (.fpr i) ↔ a.f i = b.f i := setWidth_quad_inj (by decide)
theorem Regs.read_vr {a b : Regs} {i : Fin 32} : a.read (.vr i) = b.read (.vr i) ↔ a.v i = b.v i := Iff.rfl

theorem preservedAcross_gpr {same : Bool} {i : Fin 32} :
    preservedAcross same (.gpr i) = true ↔ i = 1 ∨ 14 ≤ i.val ∨ (same = true ∧ i = 2) ∨ i = 13 := by
  revert same i; decide

theorem preservedAcross_crField {same : Bool} {n : Fin 8} : preservedAcross same (.crField n) = true ↔ 2 ≤ n.val ∧ n.val ≤ 4 := by
  revert same n; decide

theorem preservedAcross_fpr {same : Bool} {i : Fin 32} : preservedAcross same (.fpr i) = true ↔ 14 ≤ i.val := by
  revert same i; decide

theorem preservedAcross_vr {same : Bool} {i : Fin 32} : preservedAcross same (.vr i) = true ↔ 20 ≤ i.val := by
  revert same i; decide

/-- R80's list, from the tables. -/
theorem preserved_agree_iff {same : Bool} {a b : Regs} : (∀ n : RegName, preservedAcross same n = true → a.read n = b.read n) ↔
    a.x 1 = b.x 1 ∧ (∀ i : Fin 32, 14 ≤ i.val → a.x i = b.x i) ∧ (same = true → a.x 2 = b.x 2) ∧ a.x 13 = b.x 13 ∧
    (∀ n : Fin 8, 2 ≤ n.val → n.val ≤ 4 → crf a.cr n = crf b.cr n) ∧
    (∀ i : Fin 32, 14 ≤ i.val → a.f i = b.f i) ∧ (∀ i : Fin 32, 20 ≤ i.val → a.v i = b.v i) := by
  constructor
  · intro h
    have hx : ∀ i : Fin 32, i = 1 ∨ 14 ≤ i.val ∨ (same = true ∧ i = 2) ∨ i = 13 → a.x i = b.x i :=
      fun i hi => Regs.read_gpr.mp (h _ (preservedAcross_gpr.mpr hi))
    exact ⟨hx 1 (.inl rfl), fun i hi => hx i (.inr (.inl hi)), fun hs => hx 2 (.inr (.inr (.inl ⟨hs, rfl⟩))), hx 13 (.inr (.inr (.inr rfl))),
      fun n h2 h4 => Regs.read_crField.mp (h _ (preservedAcross_crField.mpr ⟨h2, h4⟩)), fun i hi => Regs.read_fpr.mp (h _ (preservedAcross_fpr.mpr hi)),
      fun i hi => h _ (preservedAcross_vr.mpr hi)⟩
  · rintro ⟨h1, hgpr, h2, h13, hcr, hf, hv⟩ n hn
    cases n with
    | gpr i =>
      refine Regs.read_gpr.mpr ?_
      rcases preservedAcross_gpr.mp hn with rfl | hi | ⟨hs, rfl⟩ | rfl
      · exact h1
      · exact hgpr i hi
      · exact h2 hs
      · exact h13
    | crField n =>
      obtain ⟨h2, h4⟩ := preservedAcross_crField.mp hn
      exact Regs.read_crField.mpr (hcr n h2 h4)
    | fpr i => exact Regs.read_fpr.mpr (hf i (preservedAcross_fpr.mp hn))
    | vr i => exact hv i (preservedAcross_vr.mp hn)
    | lr | ctr | tar | xer | dscr | vrsave | vsrRightHalf | fpscrBits | fpscrOther | vscrNJ | vscrOther => cases hn

/-- R51, R90, R103: the registers of parameters and return values. -/
theorem purposeOf_parameters_iff {needs : Bool} {n : RegName} :
    purposeOf needs n = .parametersAndReturns ∨ purposeOf needs n = .binaryFloatParametersAndReturns ↔
      (∃ i : Fin 32, n = .gpr i ∧ 3 ≤ i.val ∧ i.val ≤ 10) ∨ (∃ i : Fin 32, n = .fpr i ∧ 1 ≤ i.val ∧ i.val ≤ 13) ∨
      ∃ i : Fin 32, n = .vr i ∧ 2 ≤ i.val ∧ i.val ≤ 13 := by
  cases n with
  | gpr i => simp only [RegName.gpr.injEq, exists_eq_left', reduceCtorEq, false_and, exists_const, or_self, or_false]; revert needs i; decide
  | fpr i => simp only [reduceCtorEq, false_and, exists_const, RegName.fpr.injEq, exists_eq_left', or_false, false_or]; revert needs i; decide
  | vr i => simp only [reduceCtorEq, false_and, exists_const, RegName.vr.injEq, exists_eq_left', false_or]; revert needs i; decide
  | lr | ctr | tar | xer | crField | dscr | vrsave | vsrRightHalf | fpscrBits | fpscrOther | vscrNJ | vscrOther => simp [purposeOf]

/-- R56: r31 alone, where a frame pointer is needed. -/
theorem purposeOf_framePointer_iff {needs : Bool} {n : RegName} : purposeOf needs n = .framePointer ↔ needs = true ∧ n = .gpr 31 := by
  cases n with
  | gpr i => simp only [RegName.gpr.injEq]; revert needs i; decide
  | fpr i => simp only [reduceCtorEq, and_false, iff_false]; revert needs i; decide
  | vr i => simp only [reduceCtorEq, and_false, iff_false]; revert needs i; decide
  | lr | ctr | tar | xer | crField | dscr | vrsave | vsrRightHalf | fpscrBits | fpscrOther | vscrNJ | vscrOther => simp [purposeOf]

/-- Settles O24, table by table. -/
theorem classTablesGiveTheContract : Obligations.ClassTablesGiveTheContract := by
  refine ⟨fun same a b => preserved_agree_iff, fun needs n => ⟨purposeOf_parameters_iff, fun h => ?_, purposeOf_framePointer_iff⟩, rfl⟩
  rcases purposeOf_parameters_iff.mp h with ⟨i, rfl, h1, h2⟩ | ⟨i, rfl, h1, h2⟩ | ⟨i, rfl, h1, h2⟩
  · clear h; revert i; decide
  · exact if_neg (by omega)
  · exact if_neg (by omega)

/-- A check over the registers from `n` on looks at those alone. -/
theorem all_from_congr {P Q : Fin 32 → Bool} {n : Nat} (h : ∀ i : Fin 32, n ≤ i.val → P i = Q i) :
    ((List.finRange 32).all fun i => decide (i.val < n) || P i) = (List.finRange 32).all fun i => decide (i.val < n) || Q i := by
  rw [Bool.eq_iff_iff, all_from_iff, all_from_iff]
  exact forall₂_congr fun i hi => by rw [h i hi]

/-- Settles O39: each line of R80 looks at a register the tables ask to be preserved, or at the marks, and R44 asks nothing under UNSAID. -/
theorem volatileRegistersAreFree : Obligations.VolatileRegistersAreFree := by
  intro p a t r hp h
  obtain ⟨h1, hgpr, h2, h13, hcr, hf, hv⟩ := preserved_agree_iff.mp h
  have htoc : (!p.sameModule a.caller a.callee || r.x 2 == a.entry.x 2) = (!p.sameModule a.caller a.callee || t.regs.x 2 == a.entry.x 2) := by
    cases hs : p.sameModule a.caller a.callee
    · rfl
    · rw [h2 hs]
  have hgprs := all_from_congr (P := fun i => r.x i == a.entry.x i) (Q := fun i => t.regs.x i == a.entry.x i) fun i hi => by rw [hgpr i hi]
  have hfprs := all_from_congr (P := fun i => r.f i == a.entry.f i) (Q := fun i => t.regs.f i == a.entry.f i) fun i hi => by rw [hf i hi]
  have hvrs := all_from_congr (P := fun i => r.v i == a.entry.v i) (Q := fun i => t.regs.v i == a.entry.v i) fun i hi => by rw [hv i hi]
  simp only [calleeBreaches, h1, h13, htoc, hgprs, hfprs, hvrs, (crPreserved_iff _ _).mpr hcr, limitedKept_unsaid hp]
  rfl

/-! ## Reserved registers (R43) -/

/-- A Reserved access a word names is one of its marks; reading r13 is none. -/
theorem mem_reservedMarks {base : BaseISA} {w : InsnWord} {r : ReservedRegister} (h : r ∈ base.writes w ∨ (r ∈ base.reads w ∧ r ≠ .r13)) :
    .reservedRegister r ∈ reservedMarks base w := by
  refine List.mem_map.mpr ⟨r, List.mem_append.mpr ?_, rfl⟩
  rcases h with h | ⟨h, hr⟩
  · exact .inr h
  · exact .inl (List.mem_filter.mpr ⟨h, by simpa using hr⟩)

/-- R111: the marks of an instruction of BaseISA count beside those there were. -/
theorem runBase_marks_count {base : BaseISA} {w : InsnWord} {s t : State} (h : runBase base w s = .next t) {b : Breach} (hb : b ∈ reservedMarks base w) :
    s.th.breaches.count b < t.th.breaches.count b := by
  have hle := (runBase_breaches h).sublist.count_le b
  rw [List.count_append] at hle
  have hpos : 0 < (reservedMarks base w).count b := List.count_pos_iff.mpr hb
  omega

/-- TAR as it was before the instruction shows after it where the instruction does not write it. -/
theorem keptRegs_old_tar (p : Params) (ws : List ReservedRegister) (old new : Regs) (v : Word) : keptRegs p ws { old with tar := v } new =
    if .tar ∈ ws then keptRegs p ws old new else { keptRegs p ws old new with tar := v } := by
  by_cases h : ReservedRegister.tar ∈ ws <;> simp [keptRegs, Regs.x, h]

/-- So does VRSAVE. -/
theorem keptRegs_old_vrsave (p : Params) (ws : List ReservedRegister) (old new : Regs) (u : BitVec 32) : keptRegs p ws { old with vrsave := u } new =
    if .vrsave ∈ ws then keptRegs p ws old new else { keptRegs p ws old new with vrsave := u } := by
  by_cases h : ReservedRegister.vrsave ∈ ws <;> simp [keptRegs, Regs.x, h]

section
variable {g h : Regs → Regs} (hg : SparesGprs g) (hh : SparesGprs h) (hpc : ∀ r, (h r).pc = r.pc)
include hg hh hpc

/-- An effect goes through from registers changed by `g` to registers changed by `h`, if keptRegs takes the one to the other. -/
theorem applyEffect_mapRegs {base : BaseISA} {w : InsnWord} {r : Regs} {f : BaseState} {st : List BaseStore} {s : State}
    (hk : ∀ new, keptRegs s.params (base.writes w) (g s.th.regs) new = h (keptRegs s.params (base.writes w) s.th.regs new)) :
    applyEffect base w r f st (s.mapRegs g) = mapNext (State.mapRegs h) (applyEffect base w r f st s) := by
  have hstart : ∀ k : Regs, (((s.mapRegs g).setRegs ((h k).setX 1 ((s.mapRegs g).x 1))).setBaseState f).markAll (reservedMarks base w) =
      (((s.setRegs (k.setX 1 (s.x 1))).setBaseState f).markAll (reservedMarks base w)).mapRegs h := by
    intro k
    have hx : (s.mapRegs g).x 1 = s.x 1 := hg.x _ _
    rw [hx, ← hh.setX]
    rfl
  have hkept : keptRegs (s.mapRegs g).params (base.writes w) (s.mapRegs g).regs r = h (keptRegs s.params (base.writes w) s.regs r) := hk r
  unfold applyEffect
  simp only [hkept, hpc, hh.x, hstart, moveSp_mapRegs hh, memWrites_mapRegs hh]
  split
  · rfl
  · cases memWrites st _ with
    | error e => rfl
    | ok t => exact congrArg Host.Outcome.next (State.checkChain_mapRegs h t)

/-- So does an instruction of BaseISA that does not see the change. -/
theorem runBase_mapRegs {base : BaseISA} {w : InsnWord} {s : State}
    (hseen : ∀ d0 d1, seenRegs (base.reads w) (g s.th.regs) d0 d1 = seenRegs (base.reads w) s.th.regs d0 d1)
    (hk : ∀ new, keptRegs s.params (base.writes w) (g s.th.regs) new = h (keptRegs s.params (base.writes w) s.th.regs new)) :
    runBase base w (s.mapRegs g) = mapNext (State.mapRegs h) (runBase base w s) := by
  have hseen' : ∀ d0 d1, seenRegs (base.reads w) (s.mapRegs g).regs d0 d1 = seenRegs (base.reads w) s.regs d0 d1 := hseen
  have hreads : ∀ ls, memReads ls ((s.mapRegs g).drawn 98) = (memReads ls (s.drawn 98)).map fun q => (q.1, q.2.mapRegs g) :=
    fun ls => memReads_mapRegs hg ls (s.drawn 98)
  have hrest : (s.mapRegs g).baseState = s.baseState ∧ (s.mapRegs g).draws = s.draws ∧ (s.mapRegs g).params = s.params ∧ (s.mapRegs g).th.reloadOwed = s.th.reloadOwed :=
    ⟨rfl, rfl, rfl, rfl⟩
  obtain ⟨hfurther, hdraws, hparams, howed⟩ := hrest
  unfold runBase
  simp only [hseen', hreads, hfurther, hdraws, hparams, howed]
  cases hq : memReads (base.loads w (seenRegs (base.reads w) s.regs (Config.drawWord s.draws) (Config.drawWord (s.draws + 1))) s.baseState) (s.drawn 98) with
  | error e => rfl
  | ok q =>
    obtain ⟨hregs, hpar⟩ : q.2.th.regs = s.th.regs ∧ q.2.params = s.params := by rw [(memReads_ok hq).1]; exact ⟨rfl, rfl⟩
    have hkq : ∀ b new, keptRegs (q.2.setReloadOwed b).params (base.writes w) (g (q.2.setReloadOwed b).th.regs) new =
        h (keptRegs (q.2.setReloadOwed b).params (base.writes w) (q.2.setReloadOwed b).th.regs new) := by
      intro b new
      rw [State.setReloadOwed_params, State.setReloadOwed_regs, hregs, hpar]
      exact hk new
    have hset : ∀ b, (q.2.mapRegs g).setReloadOwed b = (q.2.setReloadOwed b).mapRegs g := fun _ => rfl
    simp only [Except.map, hset]
    generalize base.run w _ s.baseState q.1 _ = answer
    cases answer with
    | effect r f st => exact applyEffect_mapRegs hg hh hpc (hkq _)
    | exception => rfl
    | outside => rfl

end

theorem sparesGprs_id : SparesGprs id := ⟨fun _ => rfl, fun _ _ _ => rfl⟩

/-- R59: TAR does not show through to an instruction that does not read it; after it TAR is as written, or as it was. -/
theorem runBase_hides_tar {base : BaseISA} {w : InsnWord} (s : State) (v : Word) (hread : .tar ∉ base.reads w) :
    runBase base w (s.setRegs { s.regs with tar := v }) =
      mapNext (fun t => if .tar ∈ base.writes w then t else t.setRegs { t.regs with tar := v }) (runBase base w s) := by
  have hseen : ∀ d0 d1, seenRegs (base.reads w) { s.th.regs with tar := v } d0 d1 = seenRegs (base.reads w) s.th.regs d0 d1 :=
    fun d0 d1 => seenRegs_hides_tar _ _ _ _ (by simpa using hread)
  have hkept := fun new => keptRegs_old_tar s.params (base.writes w) s.th.regs new v
  by_cases hw : ReservedRegister.tar ∈ base.writes w
  · simp only [if_pos hw] at hkept ⊢
    exact runBase_mapRegs (sparesGprs_tar v) sparesGprs_id (fun _ => rfl) hseen hkept
  · simp only [if_neg hw] at hkept ⊢
    exact runBase_mapRegs (sparesGprs_tar v) (sparesGprs_tar v) (fun _ => rfl) hseen hkept

/-- R62: nor does VRSAVE. -/
theorem runBase_hides_vrsave {base : BaseISA} {w : InsnWord} (s : State) (u : BitVec 32) (hread : .vrsave ∉ base.reads w) :
    runBase base w (s.setRegs { s.regs with vrsave := u }) =
      mapNext (fun t => if .vrsave ∈ base.writes w then t else t.setRegs { t.regs with vrsave := u }) (runBase base w s) := by
  have hseen : ∀ d0 d1, seenRegs (base.reads w) { s.th.regs with vrsave := u } d0 d1 = seenRegs (base.reads w) s.th.regs d0 d1 :=
    fun d0 d1 => seenRegs_hides_vrsave _ _ _ _ (by simpa using hread)
  have hkept := fun new => keptRegs_old_vrsave s.params (base.writes w) s.th.regs new u
  by_cases hw : ReservedRegister.vrsave ∈ base.writes w
  · simp only [if_pos hw] at hkept ⊢
    exact runBase_mapRegs (sparesGprs_vrsave u) sparesGprs_id (fun _ => rfl) hseen hkept
  · simp only [if_neg hw] at hkept ⊢
    exact runBase_mapRegs (sparesGprs_vrsave u) (sparesGprs_vrsave u) (fun _ => rfl) hseen hkept

/-- Settles O23: the marks are those of `reservedMarks`, `keptRegs` keeps what is not written, and `seenRegs` hides what is not read. -/
theorem systemRegisterAccessIsMarked : Obligations.SystemRegisterAccessIsMarked := by
  refine ⟨fun s v u => ⟨rfl, rfl, rfl, rfl, rfl, rfl, rfl, rfl⟩, fun base w s t h => ?_, fun rs r d0 d1 v u => ⟨fun hr => ?_, fun hr => ?_⟩,
    fun base w s v u => ⟨runBase_hides_tar s v, runBase_hides_vrsave s u⟩⟩
  · obtain ⟨r, hregs, -⟩ := runBase_regs h
    refine ⟨fun q hq => runBase_marks_count h (mem_reservedMarks hq), fun hw => ?_, fun hw => ?_, fun hw => ?_⟩
    · rw [State.regs_eq, hregs, keptRegs_tar _ _ _ (by simpa using hw)]
      rfl
    · rw [State.regs_eq, hregs, keptRegs_vrsave _ _ _ (by simpa using hw)]
      rfl
    · rw [State.x_eq, hregs, keptRegs_x13 _ _ _ (by simpa using hw)]
      rfl
  · exact seenRegs_hides_tar r d0 d1 v (by simpa using hr)
  · exact seenRegs_hides_vrsave r d0 d1 u (by simpa using hr)

end Sys2Proof.Machine
end

section
/-! Proof of the statement about a call whose callee is not in the program (40_linkage_general_registers.md R41, R44, R45, R81; log entry 12). -/

namespace Sys2Proof.Machine

/-! ## Bits that are kept and bits that are drawn -/

theorem limitedAfter_bit {w : Nat} (mask old draw : BitVec w) {k : Nat} (hk : k < w) :
    (limitedAfter mask old draw).getLsbD k = if mask.getLsbD k = true then old.getLsbD k else draw.getLsbD k := by
  simp only [limitedAfter, BitVec.getLsbD_or, BitVec.getLsbD_and, BitVec.getLsbD_not, hk, decide_true, Bool.true_and]
  cases mask.getLsbD k <;> simp

theorem limitedAfter_zero {w : Nat} (old draw : BitVec w) : limitedAfter 0 old draw = draw := by simp [limitedAfter]

theorem limitedHeld_unsaid {p : Params} (h : p.limitedAccessPolicy = .unsaid) (f : Nat) (x : LimitedField) : limitedHeld p f x = false := by
  rw [← Bool.not_eq_true, limitedHeld_iff, h]
  simp

theorem limitedHeld_nonvolatileLike {p : Params} (h : p.limitedAccessPolicy = .nonvolatileLike) (f : Nat) (x : LimitedField) :
    limitedHeld p f x = !limitedOnPurpose p f x := by
  rw [Bool.eq_iff_iff, limitedHeld_iff]
  simp [h]

theorem fpscrHeldMask_unsaid {p : Params} (h : p.limitedAccessPolicy = .unsaid) (f : Nat) : fpscrHeldMask p f = 0 := by
  apply BitVec.eq_of_getLsbD_eq
  intro k hk
  simpa [limitedHeld_unsaid h] using fpscrHeldMask_bit p f ⟨k, hk⟩

/-! ## The registers afterwards -/

section
variable (p : Params) (c : CallSite) (r : Regs) (k : Nat)

theorem regsAfterCall_cr : (regsAfterCall p c r k).cr = limitedAfter crPreservedMask r.cr ((Config.drawWord (k + 38)).setWidth 32) := rfl

theorem crPreservedMask_of_inField {n : Fin 8} {j : Fin 32} (h : inField n j = true) : crPreservedMask.getLsbD j.val = decide (2 ≤ n.val ∧ n.val ≤ 4) := by
  revert n j; decide

/-- R82: CR2 to CR4 are kept, the other fields are draws. -/
theorem regsAfterCall_crf (n : Fin 8) : crf (regsAfterCall p c r k).cr n =
    if 2 ≤ n.val ∧ n.val ≤ 4 then crf r.cr n else crf ((Config.drawWord (k + 38)).setWidth 32) n := by
  rw [regsAfterCall_cr]
  split <;> next hn =>
    refine crf_congr fun j hj => ?_
    rw [limitedAfter_bit _ _ _ j.isLt, crPreservedMask_of_inField hj]
    simp [hn]

/-- R81: what the caller may assume. -/
theorem callerMayAssume_regsAfterCall : CallerMayAssume p c r (regsAfterCall p c r k) := by
  have hx : ∀ i : Fin 32, i = 1 ∨ 14 ≤ i.val ∨ (p.sameModule c.caller c.callee = true ∧ i = 2) ∨ i = 13 → (regsAfterCall p c r k).x i = r.x i :=
    fun i hi => regsAfterCall_x_kept p c r k (preservedAcross_gpr.mpr hi)
  refine ⟨rfl, hx 1 (.inl rfl), fun i hi => hx i (.inr (.inl hi)), hx 13 (.inr (.inr (.inr rfl))), fun hs => hx 2 (.inr (.inr (.inl ⟨hs, rfl⟩))),
    fun n h2 h4 => ?_, fun i hi => regsAfterCall_f_kept p c r k hi, fun i hi => regsAfterCall_v_kept p c r k hi⟩
  rw [regsAfterCall_crf, if_pos ⟨h2, h4⟩]

/-- R41: a Volatile general register is a draw. -/
theorem regsAfterCall_x_volatile {i : Fin 32} (h : classOf (.gpr i) = .volatile) : (regsAfterCall p c r k).x i = Config.drawWord (k + i.val) := by
  refine regsAfterCall_x_free p c r k ?_
  generalize p.sameModule c.caller c.callee = same
  revert same i; decide

/-- R50: so is r2 across modules. -/
theorem regsAfterCall_x2_across (h : p.sameModule c.caller c.callee = false) : (regsAfterCall p c r k).x 2 = Config.drawWord (k + 2) :=
  regsAfterCall_x_free p c r k (by rw [h]; decide)

/-- R89, R90: so are f0 to f13. -/
theorem regsAfterCall_f_free {i : Fin 32} (hi : i.val < 14) : (regsAfterCall p c r k).f i = Config.drawWord (k + 48 + 2 * i.val) := by
  rw [Regs.f, regsAfterCall_vs, vsrAfterCall, if_pos (by simpa only [fprHome] using hi), extract_left]
  rfl

/-- R102 to R104: and v0 to v19. -/
theorem regsAfterCall_v_free {i : Fin 32} (hi : i.val < 20) :
    (regsAfterCall p c r k).v i = Config.drawWord (k + 112 + 2 * i.val) ++ Config.drawWord (k + 113 + 2 * i.val) := by
  have hplace : (vrHome i).val = 32 + i.val := rfl
  rw [Regs.v, regsAfterCall_vs, vsrAfterCall, if_neg (by omega), if_neg (by omega), if_pos (by omega), hplace]
  congr 2 <;> omega

/-- A bit of FPSCR is kept where a field that holds it is, and a draw elsewhere. -/
theorem regsAfterCall_fpscr_bit (j : Fin 64) : (regsAfterCall p c r k).fpscr.getLsbD j.val =
    (((if (fpscrHeldMask p c.callee).getLsbD j.val = true then r.fpscr else Config.drawWord (k + 39)) &&& fpscrMask p).getLsbD j.val) := by
  show (limitedAfter (fpscrHeldMask p c.callee) r.fpscr (Config.drawWord (k + 39)) &&& fpscrMask p).getLsbD j.val = _
  rw [BitVec.getLsbD_and, BitVec.getLsbD_and, limitedAfter_bit _ _ _ j.isLt]
  split <;> rfl

/-- NJ is kept where it is held, and every other bit of VSCR is a draw. -/
theorem regsAfterCall_vscr_bit (j : Fin 32) : (regsAfterCall p c r k).vscr.getLsbD j.val =
    if j.val = 16 ∧ limitedHeld p c.callee .vscrNJ = true then r.vscr.getLsbD 16 else (Config.drawWord (k + 40)).getLsbD j.val := by
  have hmask : (if limitedHeld p c.callee .vscrNJ = true then vscrLimitedMask else 0).getLsbD j.val = true ↔ j.val = 16 ∧ limitedHeld p c.callee .vscrNJ = true := by
    cases limitedHeld p c.callee .vscrNJ with
    | false => simp
    | true => rw [if_pos rfl, vscrLimitedMask_bit]; simp
  show (limitedAfter _ r.vscr ((Config.drawWord (k + 40)).setWidth 32)).getLsbD j.val = _
  rw [limitedAfter_bit _ _ _ j.isLt]
  simp only [hmask]
  split
  · next h => rw [h.1]
  · simp

/-- R44: under UNSAID all of DSCR, FPSCR and VSCR is a draw. -/
theorem regsAfterCall_unsaid (h : p.limitedAccessPolicy = .unsaid) : (regsAfterCall p c r k).dscr = Config.drawWord (k + 36) ∧
    (regsAfterCall p c r k).fpscr = Config.drawWord (k + 39) &&& fpscrMask p ∧ (regsAfterCall p c r k).vscr = (Config.drawWord (k + 40)).setWidth 32 := by
  simp only [regsAfterCall, limitedHeld_unsaid h, fpscrHeldMask_unsaid h, limitedAfter_zero, Bool.false_eq_true, if_false, and_self]

/-- R44: under NONVOLATILE_LIKE a field stays unless changing that one is the callee's purpose. -/
theorem regsAfterCall_nonvolatileLike (h : p.limitedAccessPolicy = .nonvolatileLike) :
    (regsAfterCall p c r k).dscr = (if limitedOnPurpose p c.callee .dscr then Config.drawWord (k + 36) else r.dscr) ∧
    (∀ j : Fin 64, (∃ f, limitedOnPurpose p c.callee (.fpscr f) = false ∧ fpscrLow f ≤ j.val ∧ j.val < fpscrLow f + fpscrFieldWidth f) →
      (regsAfterCall p c r k).fpscr.getLsbD j.val = (r.fpscr &&& fpscrMask p).getLsbD j.val) ∧
    (∀ j : Fin 64, (∀ f, fpscrLow f ≤ j.val → j.val < fpscrLow f + fpscrFieldWidth f → limitedOnPurpose p c.callee (.fpscr f) = true) →
      (regsAfterCall p c r k).fpscr.getLsbD j.val = (Config.drawWord (k + 39) &&& fpscrMask p).getLsbD j.val) ∧
    (∀ j : Fin 32, (regsAfterCall p c r k).vscr.getLsbD j.val =
      if j.val = 16 ∧ limitedOnPurpose p c.callee .vscrNJ = false then r.vscr.getLsbD 16 else (Config.drawWord (k + 40)).getLsbD j.val) := by
  have hheld : ∀ x, limitedHeld p c.callee x = true ↔ limitedOnPurpose p c.callee x = false := fun x => by rw [limitedHeld_nonvolatileLike h, Bool.not_eq_true']
  have hbit : ∀ j : Fin 64, (fpscrHeldMask p c.callee).getLsbD j.val = true ↔
      ∃ f, limitedOnPurpose p c.callee (.fpscr f) = false ∧ fpscrLow f ≤ j.val ∧ j.val < fpscrLow f + fpscrFieldWidth f := fun j => by
    simp only [fpscrHeldMask_bit, hheld]
  refine ⟨?_, fun j hj => ?_, fun j hj => ?_, fun j => ?_⟩
  · show (if limitedHeld p c.callee .dscr = true then r.dscr else Config.drawWord (k + 36)) = _
    rw [limitedHeld_nonvolatileLike h]
    cases limitedOnPurpose p c.callee .dscr <;> rfl
  · rw [regsAfterCall_fpscr_bit, if_pos ((hbit j).mpr hj)]
  · rw [regsAfterCall_fpscr_bit, if_neg]
    rw [hbit]
    rintro ⟨f, hf, hlow, hhigh⟩
    exact absurd (hj f hlow hhigh) (by simp [hf])
  · rw [regsAfterCall_vscr_bit]
    simp only [hheld]

end

/-! ## The call -/

/-- R31, R78: program text and the back chain are as before. -/
theorem performCallOpaque_kept (c : CallSite) (s : State) {b : Nat} (h : holdsCode s.params b = true ∨ b ∈ chainBytes s) :
    (performCallOpaque c s).byteAt b = s.byteAt b := by
  rcases h with h | h
  · exact State.byteAt_code (performCallOpaque_code c s h) (performCallOpaque_params c s) h
  · exact performCallOpaque_chain c s h

/-- Settles O42: registers, memory and marks, clause by clause. -/
theorem opaqueCallKeepsWhatTheCallerMayAssume : Obligations.OpaqueCallKeepsWhatTheCallerMayAssume := by
  intro c s
  have hregs := performCallOpaque_regs c s
  refine ⟨performCallOpaque c s, rfl, ?_⟩
  simp only [State.regs_eq, State.x_eq, hregs]
  refine ⟨callerMayAssume_regsAfterCall .., fun i hi => regsAfterCall_x_volatile _ _ _ _ hi, fun h => regsAfterCall_x2_across _ _ _ _ h, rfl, rfl, rfl, rfl, rfl,
    fun n hn => ?_, fun i hi => ?_, fun i => ?_, fun i hi => ?_, fun h => regsAfterCall_unsaid _ _ _ _ h, fun h => regsAfterCall_nonvolatileLike _ _ _ _ h,
    fun b hb => performCallOpaque_kept c s hb, fun b hc hb => performCallOpaque_free c s hc hb, performCallOpaque_baseState c s, ?_, ?_,
    fun h => h.performCallOpaque c, performCallOpaque_frames c s, performCallOpaque_activations c s, performCallOpaque_exits c s⟩
  · rw [regsAfterCall_crf, if_neg (by omega)]
  · rw [regsAfterCall_f_free _ _ _ _ hi]
  · rw [regsAfterCall_vsrRight]
  · rw [regsAfterCall_v_free _ _ _ _ hi]
  · rw [performCallOpaque_breaches, marks_eq_self, callMarks_eq_nil_iff]
  · rw [performCallOpaque_reloadOwed, leavesModule_iff]

end Sys2Proof.Machine
end

section
/-! Proofs of the statements about the stack (40_linkage_general_registers.md R75 to R79) and the duties on program text (R68, R70, R71). -/

namespace Sys2Proof.Machine

/-! ## Stores that are performed -/

/-- Where MemWrite stores. -/
def Writable (p : Params) (a : Word) (n : Nat) : Prop := ∀ i < n, allocated p (byteAddr a i) = true ∧ holdsCode p (byteAddr a i) = false

theorem writable_iff {p : Params} {a : Word} {n : Nat} :
    Writable p a n ↔ (accessAddrs a n).all (allocated p) = true ∧ (accessAddrs a n).any (holdsCode p) = false := by
  rw [accessAddrs_all, accessAddrs_any]
  exact forall₂_and

/-- A slot is written exactly where it is on the grid of 8, allocated and no program text (R28, R31; log entry 38). -/
theorem State.writeSlot_ok_iff {s t : State} {a v : Word} :
    s.writeSlot a v = .ok t ↔ (a.toNat % 8 = 0 ∧ Writable s.params a 8) ∧ t = s.storeValue a 8 v.toNat := by
  constructor
  · intro h
    obtain ⟨ht, h8⟩ := State.writeSlot_ok h
    rw [State.writeSlot_on_grid s v h8] at h
    exact ⟨⟨h8, writable_iff.mpr (State.memWrite_ok h).2⟩, ht⟩
  · rintro ⟨⟨h8, hw⟩, rfl⟩
    obtain ⟨ha, hc⟩ := writable_iff.mp hw
    rw [State.writeSlot_on_grid s v h8, State.memWrite, if_neg (by simp [ha]), if_neg (by simp [hc])]

/-! ## Allocation (R75 to R78) -/

theorem byteAddr_of_lt {v : Word} {i : Nat} (h : v.toNat + i < 2 ^ 64) : byteAddr v i = v.toNat + i := by
  simp only [byteAddr, BitVec.toNat_add, BitVec.toNat_ofNat]
  omega

/-- The back-chain word of a frame of at least 8 bytes in the stack can be written. -/
theorem writable_of_frameInStack {p : Params} {v top : Word} (h : frameInStack p v top = true) (h8 : v.toNat + 8 ≤ top.toNat) : Writable p v 8 := by
  intro i hi
  have htop := top.isLt
  rw [byteAddr_of_lt (by omega)]
  exact frameInStack_byte h (by omega) (by omega)

/-- An allocation of a nonzero size leaves of the thread what `lowerSp` makes of it; the back chain is memory. -/
theorem allocFrame_th {s t : State} {size : Word} (h0 : size ≠ 0) (h : allocFrame size s = .ok t) :
    t.th = (lowerSp s size).th ∧ t.baseState = s.baseState := by
  rcases allocFrame_ok h with ⟨h', -⟩ | ⟨-, -, rfl⟩ | ⟨-, -, rfl⟩
  · exact absurd h' h0
  · exact ⟨rfl, rfl⟩
  · exact ⟨rfl, rfl⟩

/-- Bytes outside the frame are left alone, where the back chain lies in the frame. -/
theorem allocFrame_outside {s t : State} {size : Word} (h8 : 8 ≤ size.toNat) (h : allocFrame size s = .ok t) {b : Nat}
    (hb : ∀ i < size.toNat, byteAddr (s.th.regs.x 1 - size) i ≠ b) : t.byteAt b = s.byteAt b := by
  rcases allocFrame_ok h with ⟨-, rfl⟩ | ⟨-, -, rfl⟩ | ⟨-, -, rfl⟩
  · rfl
  · exact lowerSp_outside s size b hb
  · rw [State.byteAt_storeValue_outside _ _ _ _ _ fun i hi => hb i (by omega), lowerSp_outside s size b hb]

/-- R78: where back chains are maintained the word at the new r1 is the old r1. -/
theorem allocFrame_backChain {s t : State} {size : Word} (h0 : size ≠ 0) (hm : s.params.backchainsMaintained = true) (h : allocFrame size s = .ok t) :
    t.contentWord (s.th.regs.x 1 - size) = s.th.regs.x 1 := by
  rcases allocFrame_ok h with ⟨h', -⟩ | ⟨-, hm', -⟩ | ⟨-, -, rfl⟩
  · exact absurd h' h0
  · exact absurd hm (by simp [hm'])
  · exact State.contentWord_storeValue ..

/-- An allocation is performed where its first doubleword can be written. -/
theorem allocFrame_completes {s : State} {size : Word} (h8 : (s.th.regs.x 1 - size).toNat % 8 = 0) (hw : Writable s.params (s.th.regs.x 1 - size) 8) :
    ∃ t, allocFrame size s = .ok t := by
  unfold allocFrame
  split
  · exact ⟨_, rfl⟩
  · split
    · exact ⟨_, State.writeSlot_ok_iff.mpr ⟨⟨h8, hw⟩, rfl⟩⟩
    · exact ⟨_, rfl⟩

/-- R79: from a state that meets the invariant r1 may be lowered. -/
theorem StackHolds.spNotRaised {t : Thread} (h : StackHolds t) {v : Word} (hv : v.toNat ≤ (t.regs.x 1).toNat) : t.spNotRaised v = true :=
  Thread.spNotRaised_iff.mpr fun a ha => Nat.le_trans hv (h.belowEntry a (List.mem_of_mem_head? ha))

/-- Settles O45: nothing is breached, the frame's first doubleword can be written, and the chain is the invariant's. -/
theorem frameAllocationLowersTheStack : Obligations.FrameAllocationLowersTheStack := by
  intro s size hinv hu h0 h16 hle hin
  simp only [State.x_eq] at hle hin
  have hstack := hinv.stack hu
  have hsub : (s.th.regs.x 1 - size).toNat = (s.th.regs.x 1).toNat - size.toNat := BitVec.toNat_sub_of_le hle
  have hpos : size.toNat ≠ 0 := fun h => h0 (BitVec.eq_of_toNat_eq h)
  have hal := hstack.aligned
  have hbr : s.th.allocBreaches s.params (s.th.regs.x 1 - size) = [] :=
    Thread.allocBreaches_eq_nil.mpr ⟨by omega, by omega, hstack.spNotRaised (by omega), hin⟩
  obtain ⟨t, ht⟩ := allocFrame_completes (s := s) (size := size) (by omega) (writable_of_frameInStack hin (by omega))
  obtain ⟨hth, hbase⟩ := allocFrame_th h0 ht
  have hut : Unmarked t := by
    rw [Unmarked, hth, lowerSp_breaches, hbr]
    exact hu
  refine ⟨t, ht, by simp only [perform, ht, andThen], ?_, hut, ?_, allocFrame_chain hinv ht hut, fun hm => allocFrame_backChain h0 hm ht, hbase,
    fun b hb => allocFrame_outside (by omega) ht hb⟩
  · rw [State.regs_eq, hth, lowerSp_regs]
    rfl
  · rw [hth, lowerSp_frames, if_pos hbr]
    rfl

/-! ## Giving a frame back (R75, R79) -/

theorem freeFrame_regs (size : Word) (s : State) : (freeFrame size s).th.regs = s.th.regs.setX 1 (s.th.regs.x 1 + size) := State.writeGpr_regs ..

theorem freeFrame_frames (size : Word) (s : State) : (freeFrame size s).th.frames = framesFrom s.th.frames (s.th.regs.x 1 + size) := rfl

theorem freeFrame_breaches (size : Word) (s : State) :
    (freeFrame size s).th.breaches = (s.th.jumpBreaches (s.th.regs.x 1 + size)).map Breach.abiViolation ++ s.th.breaches := rfl

/-- Frames given back down to the lowest one there was before a frame was taken. -/
theorem framesFrom_cons {fs : List Word} {v x : Word} (hne : v ≠ x) (h : fs.head? = some x) : framesFrom (v :: fs) x = fs := by
  obtain ⟨rest, rfl⟩ : ∃ rest, fs = x :: rest := List.head?_eq_some_iff.mp h
  simp [framesFrom, hne]

/-- After an unmarked allocation r1 raised by the same size is at its old value, and the frames are the old ones, a new one apart that is elsewhere. -/
theorem allocFrame_unmarked {s t : State} {size : Word} (h : allocFrame size s = .ok t) (hu : Unmarked t) :
    t.th.regs.x 1 + size = s.th.regs.x 1 ∧ t.th.activations = s.th.activations ∧
      (t.th.frames = s.th.frames ∨ ∃ v, v ≠ s.th.regs.x 1 ∧ t.th.frames = v :: s.th.frames) := by
  by_cases h0 : size = 0
  · subst h0
    obtain rfl : t = s := by
      rcases allocFrame_ok h with ⟨-, ht⟩ | ⟨h', -⟩ | ⟨h', -⟩
      · exact ht
      · exact absurd rfl h'
      · exact absurd rfl h'
    exact ⟨BitVec.add_zero _, rfl, .inl rfl⟩
  · obtain ⟨hth, -⟩ := allocFrame_th h0 h
    rw [Unmarked, hth, lowerSp_breaches] at hu
    have hbr := List.map_eq_nil_iff.mp (List.append_eq_nil_iff.mp hu).1
    obtain ⟨-, hlt, -, -⟩ := Thread.allocBreaches_eq_nil.mp hbr
    rw [hth, lowerSp_regs, Regs.x_setX_same, lowerSp_frames, if_pos hbr]
    exact ⟨BitVec.sub_add_cancel _ _, rfl, .inr ⟨_, fun e => by rw [e] at hlt; exact absurd hlt (Nat.lt_irrefl _), rfl⟩⟩

/-- Settles O46: the frames above the old r1 are dropped, which breaks nothing; a raise leaves memory. -/
theorem frameGivenBackRestoresTheStack : Obligations.FrameGivenBackRestoresTheStack := by
  refine ⟨fun s t size hinv hu h hut => ?_, fun s size => ?_⟩
  · have hstack := hinv.stack hu
    obtain ⟨hx, hact, hframes⟩ := allocFrame_unmarked h hut
    have hmem : s.th.regs.x 1 ∈ s.th.frames := List.mem_of_mem_head? hstack.lowest
    have hjump : t.th.jumpBreaches (s.th.regs.x 1) = [] := by
      refine Thread.jumpBreaches_eq_nil.mpr ⟨hstack.aligned, ?_, ?_⟩
      · rw [Thread.spNotRaised, Thread.entrySp, hact]
        exact hstack.spNotRaised (Nat.le_refl _)
      · rcases hframes with e | ⟨v, -, e⟩ <;> rw [e]
        · exact hmem
        · exact List.mem_cons_of_mem _ hmem
    refine ⟨?_, ?_, ?_⟩
    · rw [State.x_eq, freeFrame_regs, Regs.x_setX_same, hx]
      rfl
    · rw [freeFrame_frames, hx]
      rcases hframes with e | ⟨v, hv, e⟩ <;> rw [e]
      · exact framesFrom_of_head hstack.lowest
      · exact framesFrom_cons hv hstack.lowest
    · rw [Unmarked, freeFrame_breaches, hx, hjump]
      exact hut
  · refine ⟨(freeFrame size s).advance, rfl, ?_, fun b hb => ?_, fun hle => ?_, ?_, ?_, ?_, ?_⟩
    · rw [State.regs_eq, State.advance_regs, freeFrame_regs]
      rfl
    · exact State.writeGpr_outside s 1 _ fun _ => hb
    · exact State.putSp_mem_of_le s hle
    · exact State.writeGpr_baseState ..
    · exact State.writeGpr_activations ..
    · exact State.writeGpr_exits ..
    · exact State.writeGpr_reloadOwed ..

/-! ## Moves of r1 that break a rule (R75 to R79, R111) -/

theorem quadAligned_eq_false {v : Word} : quadAligned v = false ↔ v.toNat % 16 ≠ 0 := by rw [← Bool.not_eq_true, quadAligned_iff]

theorem Thread.spNotRaised_eq_false {t : Thread} {v : Word} :
    t.spNotRaised v = false ↔ ∃ a, t.activations.head? = some a ∧ (a.entry.x 1).toNat < v.toNat := by
  rw [← Bool.not_eq_true, Thread.spNotRaised_iff]
  simp

/-- What is breached by a move of r1 that takes no frame, line by line. -/
theorem Thread.mem_jumpBreaches {t : Thread} {v : Word} {r : AbiRule} : r ∈ t.jumpBreaches v ↔
    (v.toNat % 16 ≠ 0 ∧ r = .spMisaligned) ∨ ((∃ a, t.activations.head? = some a ∧ (a.entry.x 1).toNat < v.toNat) ∧ r = .spRaised v) ∨
    (v ∉ t.frames ∧ r = .spNotFrame) := by
  simp only [Thread.jumpBreaches, List.mem_append, mem_failing, quadAligned_eq_false, Thread.spNotRaised_eq_false, or_assoc]
  simp

/-- R76: a move of r1 that takes a frame breaches the alignment of a misaligned value too. -/
theorem Thread.spMisaligned_mem_allocBreaches {t : Thread} {p : Params} {v : Word} (h : v.toNat % 16 ≠ 0) : .spMisaligned ∈ t.allocBreaches p v := by
  simp [Thread.allocBreaches, mem_failing, quadAligned_eq_false, h]

/-- R79: and the limit of a value above the entry value. -/
theorem Thread.spRaised_mem_allocBreaches {t : Thread} {p : Params} {v : Word} (h : ∃ a, t.activations.head? = some a ∧ (a.entry.x 1).toNat < v.toNat) :
    .spRaised v ∈ t.allocBreaches p v := by
  simp [Thread.allocBreaches, mem_failing, Thread.spNotRaised_eq_false, h]

/-- R80, "at every moment": the marks `ms` name what is wrong with r1 at `v`. -/
def NamesMove (t : Thread) (v : Word) (ms : List Breach) : Prop :=
  (v.toNat % 16 ≠ 0 → .abiViolation .spMisaligned ∈ ms) ∧
  ∀ a, t.activations.head? = some a → (a.entry.x 1).toNat < v.toNat → .abiViolation (.spRaised v) ∈ ms

/-- From `s` to `t` r1 stays, or the marks added name what is wrong with its new value. -/
def MarkedMove (s t : State) : Prop :=
  t.th.regs.x 1 = s.th.regs.x 1 ∨ ∃ ms, t.th.breaches = ms ++ s.th.breaches ∧ NamesMove s.th (t.th.regs.x 1) ms

/-- What comes before and after the move leaves r1 and only adds marks. -/
theorem MarkedMove.extend {s s' t' t : State} (h : MarkedMove s' t') (hx : s'.th.regs.x 1 = s.th.regs.x 1) (hact : s'.th.activations = s.th.activations)
    (hs : s.th.breaches <:+ s'.th.breaches) (hx' : t.th.regs.x 1 = t'.th.regs.x 1) (ht : t'.th.breaches <:+ t.th.breaches) : MarkedMove s t := by
  rcases h with h | ⟨ms, hms, haligned, hraised⟩
  · exact .inl (by rw [hx', h, hx])
  · obtain ⟨before, hbefore⟩ := hs
    obtain ⟨after, hafter⟩ := ht
    refine .inr ⟨after ++ ms ++ before, by rw [← hafter, hms, ← hbefore]; simp, ?_⟩
    have hin : ∀ b ∈ ms, b ∈ after ++ ms ++ before := fun b hb => by simp [hb]
    rw [hx']
    exact ⟨fun hv => hin _ (haligned hv), fun a ha hlt => hin _ (hraised a (by rw [hact]; exact ha) hlt)⟩

theorem MarkedMove.writeGpr (s : State) (i : Fin 32) (v : Word) : MarkedMove s (s.writeGpr i v) := by
  by_cases h1 : i = 1
  · subst h1
    refine .inr ⟨_, rfl, ?_⟩
    rw [State.writeGpr_regs, Regs.x_setX_same]
    exact ⟨fun hv => List.mem_map_of_mem (Thread.mem_jumpBreaches.mpr (.inl ⟨hv, rfl⟩)),
      fun a ha hlt => List.mem_map_of_mem (Thread.mem_jumpBreaches.mpr (.inr (.inl ⟨⟨a, ha, hlt⟩, rfl⟩)))⟩
  · exact .inl (by rw [State.writeGpr_regs, Regs.x_setX_ne _ _ h1])

theorem MarkedMove.lowerSp (s : State) (size : Word) : MarkedMove s (lowerSp s size) := by
  refine .inr ⟨_, lowerSp_breaches s size, ?_⟩
  rw [lowerSp_regs, Regs.x_setX_same]
  exact ⟨fun hv => List.mem_map_of_mem (Thread.spMisaligned_mem_allocBreaches hv),
    fun a ha hlt => List.mem_map_of_mem (Thread.spRaised_mem_allocBreaches ⟨a, ha, hlt⟩)⟩

theorem MarkedMove.moveSp (v : Word) (s : State) : MarkedMove s (moveSp v s) := by
  unfold Machine.moveSp
  split
  · exact .inl rfl
  · split
    · exact .lowerSp s _
    · exact .writeGpr s 1 v

theorem MarkedMove.perform {act : Action} {s t : State} (h : perform act s = .next t) : MarkedMove s t := by
  rcases perform_next h with ⟨c, rfl, rfl⟩ | ⟨c, rfl, rfl⟩ | ⟨f, rfl, hr⟩ | ⟨rfl, u, hu, rfl⟩ | ⟨rfl, u, hu, rfl⟩ | ⟨size, rfl, u, hu, rfl⟩ | ⟨size, rfl, rfl⟩
  · exact .inl (entryRegs_x (by decide) (by decide) (by decide))
  · exact .inl (by rw [performCallOpaque_regs, regsAfterCall_x_kept _ _ _ _ (preservedAcross_one _)])
  · obtain ⟨a, rest, -, -, rfl⟩ := performReturn_ok hr
    exact .inl (by rw [leaveFunction_regs]; rfl)
  · rw [(saveToc_ok hu).1]
    exact .inl rfl
  · rw [reloadToc_ok hu]
    exact .inl (Regs.x_setX_ne _ _ (by decide))
  · by_cases h0 : size = 0
    · subst h0
      injection hu with hu
      subst hu
      exact .inl rfl
    · obtain ⟨hth, -⟩ := allocFrame_th h0 hu
      exact (MarkedMove.lowerSp s size).extend rfl rfl (List.suffix_refl _) (by rw [State.advance_regs, hth]; rfl) (by rw [State.advance_breaches, hth])
  · exact (MarkedMove.writeGpr s 1 _).extend rfl rfl (List.suffix_refl _) rfl (List.suffix_refl _)

theorem MarkedMove.exec {i : Instr} {s t : State} (h : exec i s = .next t) : MarkedMove s t := by
  cases i with
  | mfocr rt fxm =>
    injection h with h
    subst h
    exact (MarkedMove.writeGpr (s.drawn 2) rt _).extend rfl rfl (List.suffix_refl _) rfl (List.suffix_refl _)

theorem MarkedMove.runBase {base : BaseISA} {w : InsnWord} {s t : State} (h : runBase base w s = .next t) : MarkedMove s t := by
  obtain ⟨r, k, f, o, n, u, -, -, -, hu, rfl⟩ := runBase_next h
  refine (MarkedMove.moveSp (k.x 1) (baseMiddle base w k f o s n)).extend (Regs.x_setX_same _ _ _) rfl (List.suffix_append _ _) ?_ ?_
  · rw [State.checkChain_regs, hu.th]
  · rw [State.checkChain_breaches, hu.th]
    exact List.suffix_append _ _

/-- R80, R111: no step leaves r1 changed to a value that is misaligned or above the entry value without the mark that says so. -/
theorem MarkedMove.stepWith {base : BaseISA} {s t : State} (h : stepWith base s = .next t) : MarkedMove s t := by
  have hmove : MarkedMove s.checkText t := by
    rcases stepWith_next h with ⟨act, -, h⟩ | ⟨-, w, i, -, -, h⟩ | ⟨-, w, -, -, h⟩
    · exact .perform h
    · exact .exec h
    · exact .runBase h
  exact hmove.extend rfl rfl (List.suffix_append _ _) rfl (List.suffix_refl _)

/-- An allocation that is not unmarked is marked. -/
theorem allocFrame_marked {s t : State} {size : Word} (h0 : size ≠ 0) (h : allocFrame size s = .ok t)
    (hbr : s.th.allocBreaches s.params (s.th.regs.x 1 - size) ≠ []) : s.th.breaches.length < t.th.breaches.length := by
  rw [(allocFrame_th h0 h).1, lowerSp_breaches, List.length_append, List.length_map]
  have := List.length_pos_iff.mpr hbr
  omega

/-- Settles O47: allocBreaches and jumpBreaches line by line, and the marks of every step that moves r1. -/
theorem brokenStackMovesAreMarked : Obligations.BrokenStackMovesAreMarked := by
  refine ⟨fun s t size h0 h hbad => ?_, fun s size => ⟨_, freeFrame_breaches size s, ?_, ?_, ?_⟩, fun base s t h hne => ?_⟩
  · refine allocFrame_marked h0 h fun hnil => ?_
    obtain ⟨hal, hlt, -, hin⟩ := Thread.allocBreaches_eq_nil.mp hnil
    rcases hbad with h | h | h
    · exact h hal
    · simp only [State.x_eq] at h
      have := size.isLt
      rw [BitVec.toNat_sub] at hlt
      omega
    · exact absurd hin (by simpa using h)
  · simp [Thread.mem_jumpBreaches]
  · simp [Thread.mem_jumpBreaches]
  · simp [Thread.mem_jumpBreaches]
  · exact (MarkedMove.stepWith h).resolve_left hne

/-! ## Uses of TOC-derived values (R68, R70, R71) -/

/-- A use at pc that breaks a duty is among the breaches of the program text there. -/
theorem textBreaches_ne_nil {s : State} {u : TocUse} (hu : u ∈ s.params.tocUses) (hpc : u.addr = s.pc.toNat)
    (hbad : tocLegal s.params u.fn (s.x 2) = false ∨ u.defsAgree = false) : textBreaches s ≠ [] := by
  have hin : u ∈ s.params.tocUses.filter fun u => u.addr == s.pc.toNat := List.mem_filter.mpr ⟨hu, by simpa using hpc⟩
  intro hnil
  have hnone := List.flatMap_eq_nil_iff.mp hnil u hin
  rw [List.append_eq_nil_iff, failing_eq_nil, failing_eq_nil] at hnone
  obtain ⟨hlegal, hagree⟩ := hnone
  rcases hbad with h | h
  · exact Bool.false_ne_true (h.symm.trans hlegal)
  · exact Bool.false_ne_true (h.symm.trans hagree)

/-- The marks of the program text stay (R111). -/
theorem checkText_breaches_suffix {base : BaseISA} {s t : State} (h : stepWith base s = .next t) : s.checkText.th.breaches <:+ t.th.breaches := by
  rcases stepWith_next h with ⟨act, -, h⟩ | ⟨-, w, i, -, -, h⟩ | ⟨-, w, -, -, h⟩
  · exact perform_breaches h
  · exact exec_breaches h
  · exact (List.suffix_append _ _).trans (runBase_breaches h)

/-- Settles O54: the text is checked before the step, and its marks stay. -/
theorem brokenTocUsesAreMarked : Obligations.BrokenTocUsesAreMarked := by
  intro base s t u hu hpc hbad h
  have hlen := (checkText_breaches_suffix h).length_le
  rw [State.checkText_breaches, List.length_append, List.length_map] at hlen
  have hpos := List.length_pos_iff.mpr (textBreaches_ne_nil hu hpc hbad)
  omega

end Sys2Proof.Machine
end

section
/-! Proof of the statement about the caller's save and reload of r2 (40_linkage_general_registers.md R64, R65, R78, R81; log entry 43). -/

namespace Sys2Proof.Machine

/-- A step that goes on at pc + 4 after an access answers exactly where the access is performed. -/
theorem andThen_advance_iff {r : Except Refusal State} {t : State} :
    andThen r (fun u => .next u.advance) = .next t ↔ ∃ u, r = .ok u ∧ t = u.advance := by
  cases r <;> simp [andThen, eq_comm]

/-! ## The save (R64, R78) -/

theorem saveToc_ok_iff {s t : State} : saveToc s = .ok t ↔
    ((tocSlot s.params s.th.regs).toNat % 8 = 0 ∧ Writable s.params (tocSlot s.params s.th.regs) 8) ∧
      t = (s.storeValue (tocSlot s.params s.th.regs) 8 (s.th.regs.x 2).toNat).checkChain := by
  unfold saveToc
  simp only [State.regs_eq, State.x_eq]
  cases hw : s.writeSlot (tocSlot s.params s.th.regs) (s.th.regs.x 2) with
  | error e =>
    refine iff_of_false (by simp [Except.map]) fun ⟨h, _⟩ => ?_
    rw [State.writeSlot_ok_iff.mpr ⟨h, rfl⟩] at hw
    exact absurd hw (by simp)
  | ok u =>
    obtain ⟨h, rfl⟩ := State.writeSlot_ok_iff.mp hw
    simp [Except.map, h, eq_comm]

/-- A save is unmarked exactly where the back chain holds after it. -/
theorem checkChain_breaches_eq_iff {s : State} : s.checkChain.th.breaches = s.th.breaches ↔ BackChainsHold s := by
  rw [State.checkChain_breaches, marks_eq_self, List.map_eq_nil_iff, failing_eq_nil, backChainsOk_iff]

/-! The check of the chain and the move of pc leave memory. -/

theorem State.byteAt_checkChain (s : State) (b : Nat) : s.checkChain.byteAt b = s.byteAt b := State.byteAt_congr (by simp) (by simp) (by simp) b

theorem State.contentWord_checkChain (s : State) (a : Word) : s.checkChain.contentWord a = s.contentWord a :=
  State.contentWord_congr (fun _ _ => s.byteAt_checkChain _) (by simp)

theorem State.byteAt_advance (s : State) (b : Nat) : s.advance.byteAt b = s.byteAt b := State.byteAt_congr (by simp) (by simp) (by simp) b

theorem State.contentWord_advance (s : State) (a : Word) : s.advance.contentWord a = s.contentWord a :=
  State.contentWord_congr (fun _ _ => s.byteAt_advance _) (by simp)

theorem backChainsHold_checkChain_advance {s : State} : BackChainsHold s.checkChain.advance ↔ BackChainsHold s :=
  ⟨fun h => h.of_same (by simp) (by simp) (by simp) (by simp), fun h => h.of_same (by simp) (by simp) (by simp) (by simp)⟩

/-! ## The reload (R64, R65) -/

theorem State.readSlot_ok_iff {s : State} {a : Word} {q : Word × State} :
    s.readSlot a = .ok q ↔ (a.toNat % 8 = 0 ∧ ∀ i < 8, allocated s.params (byteAddr a i) = true) ∧ q = (s.readValue a 8, s.drawn 8) := by
  constructor
  · intro h
    obtain ⟨hq, h8⟩ := State.readSlot_ok h
    rw [State.readSlot_on_grid s h8] at h
    exact ⟨⟨h8, accessAddrs_all.mp (State.memRead_ok h).2⟩, hq⟩
  · rintro ⟨⟨h8, ha⟩, rfl⟩
    rw [State.readSlot_on_grid s h8, State.memRead_of_allocated (accessAddrs_all.mpr ha)]

/-- The state after a reload. -/
def reloaded (s : State) : State :=
  ((s.drawn 8).setRegs (s.th.regs.setX 2 (s.readValue (tocSlot s.params s.th.regs) 8))).setReloadOwed false

theorem reloadToc_ok_iff {s t : State} : reloadToc s = .ok t ↔
    ((tocSlot s.params s.th.regs).toNat % 8 = 0 ∧ ∀ i < 8, allocated s.params (byteAddr (tocSlot s.params s.th.regs) i) = true) ∧ t = reloaded s := by
  constructor
  · intro h
    refine ⟨?_, reloadToc_ok h⟩
    unfold reloadToc at h
    cases hr : s.readSlot (tocSlot s.params s.regs) with
    | error e => rw [hr] at h; exact absurd h (by simp [Except.map])
    | ok q => exact (State.readSlot_ok_iff.mp hr).1
  · rintro ⟨h, rfl⟩
    have hr : s.readSlot (tocSlot s.params s.regs) = .ok (s.readValue (tocSlot s.params s.th.regs) 8, s.drawn 8) := State.readSlot_ok_iff.mpr ⟨h, rfl⟩
    rw [reloadToc, hr]
    exact congrArg (fun u => Except.ok (State.setReloadOwed u false)) (State.writeGpr_plain _ _ (by decide) (by decide))

theorem reloaded_x2 (s : State) : (reloaded s).th.regs.x 2 = s.readValue (tocSlot s.params s.th.regs) 8 := Regs.x_setX_same _ _ _

theorem reloaded_x_ne (s : State) {i : Fin 32} (h : i ≠ 2) : (reloaded s).th.regs.x i = s.th.regs.x i := Regs.x_setX_ne _ _ (Ne.symm h)

theorem reloaded_byteAt (s : State) (b : Nat) : (reloaded s).byteAt b = s.byteAt b := State.byteAt_congr rfl rfl rfl b

/-! ## The reload by an instruction of BaseISA (log entry 43) -/

/-- A value read and what that read found stand side by side among the reads, whatever was read before and after. -/
theorem readsFound_pair (before after : List (Word × Nat)) (l : Word × Nat) (s : State) :
    (l, ((s.drawn (before.map Prod.snd).sum).readValue l.1 l.2).toNat) ∈
      (before ++ l :: after).zip (readsFound (before ++ l :: after) s) := by
  rw [readsFound_append, List.zip_append (readsFound_length before s).symm, readsFound, List.zip_cons_cons]
  exact List.mem_append_right _ List.mem_cons_self

/-- r2 with the value the read of the doubleword found: that is the reload. -/
theorem isReload_of_pair {p : Params} {seen after : Regs} {ls : List (Word × Nat)} {vs : List Nat} {v : Nat}
    (h : ((tocSlot p seen, 8), v) ∈ ls.zip vs) (hx : after.x 2 = BitVec.ofNat 64 v) : isReload p seen ls vs after = true :=
  List.any_eq_true.mpr ⟨_, h, by simp [hx, doublewordBytes]⟩

/-- An instruction that does not read the doubleword is no reload. -/
theorem isReload_of_not_mem {p : Params} {seen after : Regs} {ls : List (Word × Nat)} {vs : List Nat} (h : (tocSlot p seen, 8) ∉ ls) :
    isReload p seen ls vs after = false := by
  refine List.any_eq_false.mpr fun l hl => ?_
  have hne : l.1 ≠ (tocSlot p seen, doublewordBytes) := fun e => h (e ▸ (List.of_mem_zip hl).1)
  simp [hne]

/-- R64: after the reload by an instruction of BaseISA none is owed. -/
theorem runBase_reloads {base : BaseISA} {w : InsnWord} {s t : State} (h : runBase base w s = .next t) {before after : List (Word × Nat)}
    (hloads : base.loads w (seenBy base w s) s.baseState = before ++ (tocSlot s.params s.th.regs, 8) :: after)
    (hx : t.th.regs.x 2 = (s.drawn (98 + (before.map Prod.snd).sum)).readValue (tocSlot s.params s.th.regs) 8) : t.th.reloadOwed = false := by
  obtain ⟨vs, n, hvs, howed⟩ := runBase_reloadOwed h
  obtain rfl : vs = readsFound (base.loads w (seenBy base w s) s.baseState) (s.drawn 98) := congrArg Prod.fst (memReads_ok hvs).1
  have hdrawn : (s.drawn 98).drawn (before.map Prod.snd).sum = s.drawn (98 + (before.map Prod.snd).sum) := by simp only [State.drawn, Nat.add_assoc]
  have hpair := readsFound_pair before after (tocSlot s.params s.th.regs, 8) (s.drawn 98)
  rw [hdrawn] at hpair
  rw [howed, hloads, isReload_of_pair (seen := seenBy base w s) hpair (by rw [hx, BitVec.ofNat_toNat]; exact (BitVec.setWidth_eq _).symm)]
  exact Bool.and_false _

/-- One that does not read the doubleword leaves what is owed. -/
theorem runBase_keeps_reloadOwed {base : BaseISA} {w : InsnWord} {s t : State} (h : runBase base w s = .next t)
    (hloads : (tocSlot s.params s.th.regs, 8) ∉ base.loads w (seenBy base w s) s.baseState) : t.th.reloadOwed = s.th.reloadOwed := by
  obtain ⟨vs, n, -, howed⟩ := runBase_reloadOwed h
  rw [howed, isReload_of_not_mem (seen := seenBy base w s) hloads]
  exact Bool.and_true _

/-! ## Both -/

/-- R81: the doubleword saved, left alone with r1, is the one reloaded. -/
theorem reload_of_save {s t u : State} (hs : saveToc s = .ok t) (hp : u.params = s.params) (hx : u.th.regs.x 1 = s.th.regs.x 1)
    (hb : ∀ i < 8, u.byteAt (byteAddr (tocSlot s.params s.th.regs) i) = t.byteAt (byteAddr (tocSlot s.params s.th.regs) i))
    (habove : ∀ i < 8, s.shifting (byteAddr (tocSlot s.params s.th.regs) i) = false) :
    reloadToc u = .ok (reloaded u) ∧ (reloaded u).th.regs.x 2 = s.th.regs.x 2 := by
  obtain ⟨⟨h8, hw⟩, rfl⟩ := saveToc_ok_iff.mp hs
  have hslot : tocSlot u.params u.th.regs = tocSlot s.params s.th.regs := by rw [tocSlot, tocSlot, hp, hx]
  have hshift : ∀ b, u.shifting b = s.shifting b := fun b => by rw [State.shifting, State.shifting, State.x_eq, State.x_eq, hx]
  refine ⟨reloadToc_ok_iff.mpr ⟨?_, rfl⟩, ?_⟩
  · rw [hslot, hp]
    exact ⟨h8, fun i hi => (hw i hi).1⟩
  · rw [reloaded_x2, hslot, State.readValue_above u _ fun i hi => (hshift _).trans (habove i hi), State.contentWord_congr hb hp,
      State.contentWord_checkChain, State.contentWord_storeValue]

/-- Settles O34: where each access is performed, the states after it, and what the value read makes of what is owed. -/
theorem savedTocPointerReloads : Obligations.SavedTocPointerReloads := by
  refine ⟨fun s => ⟨?_, fun t h => ?_⟩, fun s => ⟨?_, fun t h => ?_⟩, ?_, ?_⟩
  · simp only [perform, andThen_advance_iff, saveToc_ok_iff]
    exact ⟨fun ⟨_, _, ⟨h, _⟩, _⟩ => h, fun h => ⟨_, _, ⟨h, rfl⟩, rfl⟩⟩
  · obtain ⟨u, hu, rfl⟩ := andThen_advance_iff.mp h
    obtain ⟨-, rfl⟩ := saveToc_ok_iff.mp hu
    refine ⟨by simp, ?_, fun b hb => ?_, by simp, by simp, by simp, by simp, ?_⟩
    · rw [State.contentWord_advance, State.contentWord_checkChain]
      exact State.contentWord_storeValue ..
    · rw [State.byteAt_advance, State.byteAt_checkChain]
      exact State.byteAt_storeValue_outside s _ 8 _ b hb
    · rw [backChainsHold_checkChain_advance, ← checkChain_breaches_eq_iff, State.advance_breaches, State.storeValue_breaches]
  · simp only [perform, andThen_advance_iff, reloadToc_ok_iff]
    exact ⟨fun ⟨_, _, ⟨h, _⟩, _⟩ => h, fun h => ⟨_, _, ⟨h, rfl⟩, rfl⟩⟩
  · obtain ⟨u, hu, rfl⟩ := andThen_advance_iff.mp h
    obtain ⟨-, rfl⟩ := reloadToc_ok_iff.mp hu
    refine ⟨?_, fun b => reloaded_byteAt s b, rfl, fun habove => ?_, rfl, rfl, rfl, rfl⟩
    · rw [State.x_eq, State.advance_regs, Regs.x_withGpr, reloaded_x2]
      rfl
    · exact (reloaded_x2 s).trans (State.readValue_above s _ habove)
  · rintro base w s t seen rfl h
    exact ⟨fun before after => runBase_reloads h, runBase_keeps_reloadOwed h⟩
  · intro s t u hs hp hx hb habove
    obtain ⟨hr, hx2⟩ := reload_of_save hs hp hx hb habove
    exact ⟨reloaded u, hr, hx2, fun i hi => reloaded_x_ne u hi, reloaded_byteAt u⟩

end Sys2Proof.Machine
end

section
/-! Proofs of the statements about the values `mfocr` fills x[RT] with, ORed and masked (41_condition_register_mfocr.md R84 to R88). -/

namespace Sys2Proof.Machine

/-! ## A condition register word in the low half of a general register -/

theorem setWidth_low_bit (w : CrWord) (k : Fin 32) : (w.setWidth 64).getLsbD k.val = w.getLsbD k.val := by
  have : k.val < 64 := by omega
  simp [this]

/-- A field of the low half. -/
theorem extract_field_setWidth (w : CrWord) (n : Fin 8) : (w.setWidth 64).extractLsb' (crfLow n) 4 = crf w n :=
  BitVec.extractLsb'_setWidth_of_le (by simp only [crfLow]; omega)

/-- A value whose upper half is 0 is its low word, and the low word is known by its bits (D11). -/
theorem eq_setWidth_iff {r : Word} {w : CrWord} :
    r = w.setWidth 64 ↔ r.extractLsb' 32 32 = 0#32 ∧ ∀ k : Fin 32, r.getLsbD k.val = w.getLsbD k.val := by
  constructor
  · rintro rfl
    refine ⟨?_, setWidth_low_bit w⟩
    apply BitVec.eq_of_getLsbD_eq
    intro j hj
    simp
  · rintro ⟨hupper, hlow⟩
    apply BitVec.eq_of_getLsbD_eq
    intro k hk
    by_cases h32 : k < 32
    · exact (hlow ⟨k, h32⟩).trans (setWidth_low_bit w ⟨k, h32⟩).symm
    · have h0 := congrArg (BitVec.getLsbD · (k - 32)) hupper
      have hplace : 32 + (k - 32) = k := by omega
      have hj : k - 32 < 32 := by omega
      simpa [BitVec.getLsbD_extractLsb', hplace, hj, BitVec.getLsbD_of_ge w k (by omega), hk] using h0

/-! ## Fields of words put together -/

theorem crf_or (a b : CrWord) (n : Fin 8) : crf (a ||| b) n = crf a n ||| crf b n := BitVec.extractLsb'_or

/-- No field reaches beyond the low word. -/
theorem atField_setWidth (v : BitVec 4) (n : Fin 8) : (atField v n).setWidth 64 = v.setWidth 64 <<< crfLow n := by
  apply BitVec.eq_of_getLsbD_eq
  intro k hk
  simp only [atField, crfLow, BitVec.getLsbD_setWidth, BitVec.getLsbD_shiftLeft]
  by_cases hin : k - (28 - 4 * n.val) < 4
  · have h32 : k < 32 := by omega
    have hj : k - (28 - 4 * n.val) < 32 ∧ k - (28 - 4 * n.val) < 64 := by omega
    simp [h32, hj, Bool.and_assoc]
  · simp [BitVec.getLsbD_of_ge v _ (not_lt.mp hin)]

/-- Every bit of a field has a place in the word. -/
theorem exists_bit_of_field (n : Fin 8) {j : Nat} (hj : j < 4) : ∃ k : Fin 32, inField n k = true ∧ k.val % 4 = j :=
  ⟨⟨28 - 4 * n.val + j, by omega⟩, by simp only [inField, beq_iff_eq]; omega, by simp only; omega⟩

theorem crf_atField_same (v : BitVec 4) (n : Fin 8) : crf (atField v n) n = v := by
  apply BitVec.eq_of_getLsbD_eq
  intro j hj
  obtain ⟨k, hk, rfl⟩ := exists_bit_of_field n hj
  rw [crf_bit_of_inField _ n k hk, atField_bit, hk, Bool.true_and]

theorem crf_atField_ne (v : BitVec 4) {n m : Fin 8} (h : m ≠ n) : crf (atField v n) m = 0#4 := by
  apply BitVec.eq_of_getLsbD_eq
  intro j hj
  obtain ⟨k, hk, rfl⟩ := exists_bit_of_field m hj
  rw [crf_bit_of_inField _ m k hk, atField_bit, not_inField_of_ne k h.symm hk, Bool.false_and, BitVec.getLsbD_zero]

/-- The field under its mask is the field alone (R88). -/
theorem and_fieldMask (w : CrWord) (n : Fin 8) : w &&& fieldMask n = atField (crf w n) n := by
  apply BitVec.eq_of_getLsbD_eq
  intro k hk
  rw [BitVec.getLsbD_and, fieldMask_bit n ⟨k, hk⟩, atField_bit _ n ⟨k, hk⟩]
  cases h : inField n ⟨k, hk⟩
  · simp
  · rw [crf_bit_of_inField w n ⟨k, hk⟩ h]
    simp

theorem maskField_setWidth (w : CrWord) (n : Fin 8) : maskField n (w.setWidth 64) = (atField (crf w n) n).setWidth 64 := by
  rw [maskField, ← BitVec.setWidth_and, and_fieldMask]

/-- R85: both fields of the byte hold the selected one. -/
theorem crf_replicated_same (n : Fin 8) (cr : CrWord) : crf (replicated n cr) n = crf cr n := by
  rw [replicated, crf_or, crf_atField_same, crf_atField_ne _ (partner_ne n).symm, BitVec.or_zero]

theorem crf_replicated_partner (n : Fin 8) (cr : CrWord) : crf (replicated n cr) (partner n) = crf cr n := by
  rw [replicated, crf_or, crf_atField_same, crf_atField_ne _ (partner_ne n), BitVec.zero_or]

/-! ## Fill's values (R87) -/

theorem fill_eq_setWidth (m : MfocrMode) (n : Fin 8) (cr : CrWord) (choice : Bool) (mask : CrWord) :
    ∃ w : CrWord, fill m n cr choice mask = w.setWidth 64 ∧ crf w n = crf cr n := by
  refine ⟨_, rfl, crf_congr fun k hk => ?_⟩
  rw [← setWidth_low_bit]
  exact fill_selected_bit m n cr choice mask k hk

theorem zeroFill_iff {n : Fin 8} {cr : CrWord} {r : Word} : ZeroFill n cr r ↔ r = (compliant n cr 0).setWidth 64 := by
  simp only [eq_setWidth_iff, ZeroFill, compliant_bit, BitVec.ofNat_eq_ofNat, BitVec.getLsbD_zero, Bool.and_false]

theorem archFill_iff {cr : CrWord} {r : Word} : ArchFill cr r ↔ r = cr.setWidth 64 := eq_setWidth_iff.symm

theorem replicatedFill_iff {n : Fin 8} {cr : CrWord} {r : Word} : ReplicatedFill n cr r ↔ r = (replicated n cr).setWidth 64 := by
  simp only [eq_setWidth_iff, ReplicatedFill, replicated_bit]

/-- ABI_ANY's values are those of some mask, the value itself being one. -/
theorem compliantFill_iff {n : Fin 8} {cr : CrWord} {r : Word} : CompliantFill n cr r ↔ ∃ mask, r = (compliant n cr mask).setWidth 64 := by
  simp only [eq_setWidth_iff, CompliantFill, compliant_bit]
  constructor
  · rintro ⟨hupper, hbits⟩
    refine ⟨r.setWidth 32, hupper, fun k => ?_⟩
    have hbit : (r.setWidth 32).getLsbD k.val = r.getLsbD k.val := by simp
    have hk := hbits k
    split at hk
    · next h => rw [if_pos h, hk]
    · next h =>
      rw [if_neg h, hbit]
      rcases hk with hk | hk <;> simp [hk]
  · rintro ⟨mask, hupper, hbits⟩
    refine ⟨hupper, fun k => ?_⟩
    rw [hbits k]
    split
    · rfl
    · cases mask.getLsbD k.val <;> simp

/-- ZERO is ABI_ANY with every choice 0 (R87). -/
theorem ZeroFill.compliantFill {n : Fin 8} {cr : CrWord} {r : Word} (h : ZeroFill n cr r) : CompliantFill n cr r :=
  compliantFill_iff.mpr ⟨0, zeroFill_iff.mp h⟩

/-- Settles O13: each row of R87's table is a word of the model, and UNION's first row is among those of ABI_ANY. -/
theorem fillGivesExactlyTheAdmittedValues : Obligations.FillGivesExactlyTheAdmittedValues := by
  intro m n cr r
  cases m with
  | zero => simp [FillAdmits, fill, zeroFill_iff, eq_comm]
  | arch => simp [FillAdmits, fill, archFill_iff, eq_comm]
  | p8Replicate => simp [FillAdmits, fill, replicatedFill_iff, eq_comm]
  | abiAny => simp [FillAdmits, fill, compliantFill_iff, eq_comm]
  | union =>
    constructor
    · rintro (h | h | h)
      · exact ⟨false, 0, (zeroFill_iff.mp h).symm⟩
      · obtain ⟨mask, rfl⟩ := compliantFill_iff.mp h
        exact ⟨false, mask, rfl⟩
      · exact ⟨true, 0, (replicatedFill_iff.mp h).symm⟩
    · rintro ⟨choice, mask, rfl⟩
      cases choice
      · exact .inr (.inl (compliantFill_iff.mpr ⟨mask, rfl⟩))
      · exact .inr (.inr (replicatedFill_iff.mpr rfl))

theorem fillAdmits_fill (m : MfocrMode) (n : Fin 8) (cr : CrWord) (choice : Bool) (mask : CrWord) :
    FillAdmits m n cr (fill m n cr choice mask) :=
  (fillGivesExactlyTheAdmittedValues m n cr _).mpr ⟨choice, mask, rfl⟩

/-- Settles O17: under its mask any value of Fill is the selected field alone. -/
theorem maskedResultIsTheField : Obligations.MaskedResultIsTheField := by
  intro m n cr choice mask
  obtain ⟨w, hw, hfield⟩ := fill_eq_setWidth m n cr choice mask
  rw [hw, maskField_setWidth, hfield, atField_setWidth, crfLow]

/-- Settles O18: on POWER8 each result holds its field twice, and under the masks each holds it once. -/
theorem unmaskedPairIsCorruptOnPower8 : Obligations.UnmaskedPairIsCorruptOnPower8 := by
  intro n cr choice mask both
  have hboth : both = (replicated n cr ||| replicated (partner n) cr).setWidth 64 := BitVec.setWidth_or.symm
  have hpartner := crf_replicated_partner (partner n) cr
  rw [partner_partner] at hpartner
  have hfirst : both.extractLsb' (crfLow n) 4 = crf cr n ||| crf cr (partner n) := by
    rw [hboth, extract_field_setWidth, crf_or, crf_replicated_same, hpartner]
  have hsecond : both.extractLsb' (crfLow (partner n)) 4 = crf cr n ||| crf cr (partner n) := by
    rw [hboth, extract_field_setWidth, crf_or, crf_replicated_partner, crf_replicated_same]
  refine ⟨hfirst, hsecond, fun hne => ?_, fun m c1 c2 m1 m2 => ?_⟩
  · rintro ⟨h1, h2⟩
    exact hne (h1.symm.trans (hfirst.trans (hsecond.symm.trans h2)))
  · intro masked
    obtain ⟨w1, hw1, hf1⟩ := fill_eq_setWidth m n cr c1 m1
    obtain ⟨w2, hw2, hf2⟩ := fill_eq_setWidth m (partner n) cr c2 m2
    have hmasked : masked = (atField (crf cr n) n ||| atField (crf cr (partner n)) (partner n)).setWidth 64 := by
      simp only [masked, hw1, hw2, maskField_setWidth, hf1, hf2, BitVec.setWidth_or]
    rw [hmasked, extract_field_setWidth, extract_field_setWidth, crf_or, crf_or, crf_atField_same, crf_atField_same,
      crf_atField_ne _ (partner_ne n), crf_atField_ne _ (partner_ne n).symm, BitVec.or_zero, BitVec.zero_or]
    exact ⟨rfl, rfl⟩

/-! ## The OR of several results (R84) -/

/-- An OR of values with nothing above the low word has nothing above it. -/
theorem foldr_or_upper {ws : List Word} (h : ∀ w ∈ ws, w.extractLsb' 32 32 = 0#32) : (ws.foldr (· ||| ·) 0).extractLsb' 32 32 = 0#32 := by
  induction ws with
  | nil => decide
  | cons w ws ih =>
    obtain ⟨hw, hws⟩ := List.forall_mem_cons.mp h
    rw [List.foldr_cons, BitVec.extractLsb'_or, hw, ih hws, BitVec.or_zero]

theorem foldr_or_bit (ws : List Word) (k : Nat) : (ws.foldr (· ||| ·) 0).getLsbD k = ws.any (·.getLsbD k) := by
  induction ws with
  | nil => simp
  | cons w ws ih => rw [List.foldr_cons, BitVec.getLsbD_or, ih, List.any_cons]

theorem CompliantFill.bit_of_inField {n : Fin 8} {cr : CrWord} {r : Word} (h : CompliantFill n cr r) {k : Fin 32} (hk : inField n k = true) :
    r.getLsbD k.val = cr.getLsbD k.val := by
  have hbit := h.2 k
  rwa [if_pos hk] at hbit

/-- R84: a bit set in a compliant result is set in the condition register. -/
theorem CompliantFill.le_cr {n : Fin 8} {cr : CrWord} {r : Word} (h : CompliantFill n cr r) {k : Fin 32} (hr : r.getLsbD k.val = true) :
    cr.getLsbD k.val = true := by
  have hbit := h.2 k
  split at hbit
  · exact hbit ▸ hr
  · rcases hbit with hbit | hbit
    · exact absurd (hbit.symm.trans hr) (by decide)
    · exact hbit ▸ hr

/-- Settles O16: a bit of the OR is set only where the condition register's is, and a selected bit of the condition register is in one of the results. -/
theorem orOfCompliantResultsRecoversFields : Obligations.OrOfCompliantResultsRecoversFields := by
  intro cr rs h
  refine ⟨foldr_or_upper ?_, fun k => ?_⟩
  · intro w hw
    obtain ⟨p, hp, rfl⟩ := List.mem_map.mp hw
    exact (h p hp).1
  · simp only [foldr_or_bit, List.any_map]
    have hle : rs.any ((·.getLsbD k.val) ∘ Prod.snd) = true → cr.getLsbD k.val = true := by
      intro hany
      obtain ⟨p, hp, hbit⟩ := List.any_eq_true.mp hany
      exact (h p hp).le_cr hbit
    constructor
    · rintro ⟨p, hp, hk⟩
      refine Bool.eq_iff_iff.mpr ⟨hle, fun hcr => List.any_eq_true.mpr ⟨p, hp, ?_⟩⟩
      exact ((h p hp).bit_of_inField hk).trans hcr
    · cases hany : rs.any ((·.getLsbD k.val) ∘ Prod.snd)
      · exact .inl rfl
      · exact .inr (hle hany).symm

end Sys2Proof.Machine
end

section
/-! Proofs of the statements about the instruction `mfocr` (41_condition_register_mfocr.md R83 to R87). -/

namespace Sys2Proof.Machine

/-! ## What `mfocr` answers (R83) -/

/-- Settles O9: execMfocr has no other answer. -/
theorem mfocrCompletes : Obligations.MfocrCompletes := by
  intro rt fxm s
  obtain ⟨t, ht⟩ : ∃ t, execMfocr rt fxm s = .next t := ⟨_, rfl⟩
  refine ⟨t, ht, execMfocr_result ht, ?_⟩
  rw [State.pc_eq, execMfocr_regs ht]
  rfl

/-- R83: the valid form for field n writes a value of Fill. -/
theorem exec_mfocr_field (rt : Fin 32) (n : Fin 8) (s : State) : ∃ t choice mask,
    exec (.mfocr rt (0x80#8 >>> n.val)) s = .next t ∧ t.x rt = fill (mfocrModeOf s.params) n s.regs.cr choice mask := by
  obtain ⟨t, ht, hx, -⟩ := mfocrCompletes rt (0x80#8 >>> n.val) s
  rw [mfocrResult, selectedField_shift] at hx
  exact ⟨t, _, _, ht, hx⟩

/-- Settles O10: every value of Fill has the field in its place and nothing above the low word. -/
theorem mfocrMovesSelectedField : Obligations.MfocrMovesSelectedField := by
  intro rt n s
  obtain ⟨t, choice, mask, ht, hx⟩ := exec_mfocr_field rt n s
  obtain ⟨w, hw, hfield⟩ := fill_eq_setWidth (mfocrModeOf s.params) n s.regs.cr choice mask
  refine ⟨t, ht, ?_, ?_, ?_⟩
  · rw [hx, hw, ← hfield]
    exact extract_field_setWidth w n
  · rw [hx, fill_upper]
  · rw [hx]
    exact fillAdmits_fill ..

/-! ## The processors (R84 to R86) -/

/-- The mode follows from the processor where none is given (R87). -/
theorem mfocrModeOf_of_none {p : Params} (h : p.mfocrMode = none) : mfocrModeOf p = modeOfProcessor p.processor := by
  rw [mfocrModeOf, h]
  rfl

/-- Settles O14: the value is one R87 admits in the processor's mode. -/
theorem power9ObeysTheAbiRequirement : Obligations.Power9ObeysTheAbiRequirement := by
  intro rt n s hmode
  obtain ⟨t, ht, -, -, hadm⟩ := mfocrMovesSelectedField rt n s
  rw [mfocrModeOf_of_none hmode] at hadm ⊢
  refine ⟨t, ht, fun hproc => ?_, fun hproc => ?_⟩
  · have hany : modeOfProcessor s.params.processor = .abiAny := by rcases hproc with h | h <;> simp [h, modeOfProcessor]
    rw [hany] at hadm ⊢
    exact ⟨rfl, hadm⟩
  · rw [hproc] at hadm ⊢
    exact ⟨rfl, hadm⟩

/-- A byte of the low half. -/
theorem extract_byte_setWidth (w : CrWord) (b : Fin 4) : (w.setWidth 64).extractLsb' (24 - 8 * b.val) 8 = crByte w b :=
  BitVec.extractLsb'_setWidth_of_le (by omega)

/-- Two fields of one byte are the same or partners (R12). -/
theorem eq_or_partner {n m : Fin 8} (h : m.val / 2 = n.val / 2) : m = n ∨ m = partner n := by revert n m; decide

theorem partner_div_two (n : Fin 8) : (partner n).val / 2 = n.val / 2 := by revert n; decide

/-- R85: every field of the byte that holds field n is field n. -/
theorem crf_replicated {n m : Fin 8} (cr : CrWord) (h : m.val / 2 = n.val / 2) : crf (replicated n cr) m = crf cr n := by
  rcases eq_or_partner h with rfl | rfl
  · exact crf_replicated_same m cr
  · exact crf_replicated_partner n cr

theorem crByte_replicated (n : Fin 8) (cr : CrWord) {b : Fin 4} (hb : b.val = n.val / 2) : crByte (replicated n cr) b = crf cr n ++ crf cr n := by
  rw [crByte_eq_append _ b (n := ⟨2 * b.val, by omega⟩) (m := ⟨2 * b.val + 1, by omega⟩) rfl rfl,
    crf_replicated cr (by simp only; omega), crf_replicated cr (by simp only; omega)]

/-- R85: the bits outside the byte that holds field n are 0. -/
theorem replicated_outside_byte (n : Fin 8) (cr : CrWord) {k : Fin 32} (h : k.val / 8 ≠ 3 - n.val / 2) : (replicated n cr).getLsbD k.val = false := by
  have hout : ∀ m : Fin 8, m.val / 2 = n.val / 2 → ¬ inField m k = true := by
    intro m hm hin
    rw [inField, beq_iff_eq] at hin
    omega
  rw [replicated_bit, if_neg (hout n rfl), if_neg (hout (partner n) (partner_div_two n))]

/-- Settles O15: POWER8's mode has one value, the field twice in its byte. -/
theorem power8ReplicatesTheField : Obligations.Power8ReplicatesTheField := by
  intro rt n s hproc hmode
  obtain ⟨t, ht, -, -, hadm⟩ := mfocrMovesSelectedField rt n s
  rw [mfocrModeOf_of_none hmode, hproc] at hadm
  have hx : t.x rt = (replicated n s.regs.cr).setWidth 64 := replicatedFill_iff.mp hadm
  refine ⟨t, ht, ?_, fun k hk => ?_⟩
  · rw [hx]
    exact (extract_byte_setWidth _ ⟨n.val / 2, by omega⟩).trans (crByte_replicated n _ rfl)
  · rw [hx]
    by_cases h32 : k.val < 32
    · exact (setWidth_low_bit _ ⟨k.val, h32⟩).trans (replicated_outside_byte n _ hk)
    · simp [BitVec.getLsbD_of_ge _ k.val (not_lt.mp h32)]

/-! ## What `mfocr` leaves unchanged and what it marks (R43, R75, R76, R83, R113) -/

/-- What `mfocr` answers: x[RT] is written through writeGpr, with two draws used, and pc goes on. -/
theorem exec_mfocr_eq {rt : Fin 32} {fxm : BitVec 8} {s t : State} (h : exec (.mfocr rt fxm) s = .next t) :
    t = ((s.drawn 2).writeGpr rt (t.x rt)).advance := by
  rw [State.x_eq, execMfocr_result h]
  injection h with h
  exact h.symm

/-- R113: the bytes a new r1 does not bring above it stay, and program text stays in any case. -/
theorem exec_mfocr_byteAt {rt : Fin 32} {fxm : BitVec 8} {s t : State} (h : exec (.mfocr rt fxm) s = .next t) {a : Nat}
    (ha : rt = 1 → a < (t.x 1).toNat ∨ (s.x 1).toNat ≤ a ∨ holdsCode s.params a = true) : t.byteAt a = s.byteAt a := by
  by_cases hcode : holdsCode s.params a = true
  · obtain ⟨-, hparams, -⟩ := exec_others h
    exact State.byteAt_code (exec_code h hcode) hparams hcode
  · have houtside : rt = 1 → a < (t.x rt).toNat ∨ ((s.drawn 2).th.regs.x 1).toNat ≤ a := by
      rintro rfl
      simpa [hcode] using ha rfl
    rw [exec_mfocr_eq h, State.byteAt_advance, State.writeGpr_outside _ _ _ houtside]
    rfl

/-- Settles O12: writeGpr and advance touch nothing else. -/
theorem mfocrFrame : Obligations.MfocrFrame := by
  intro rt fxm s t h
  have hregs : t.regs = { s.th.regs.setX rt (t.x rt) with pc := s.th.regs.pc + 4 } := by
    rw [State.x_eq, execMfocr_result h]
    exact execMfocr_regs h
  refine ⟨fun i hi => ?_, ?_⟩
  · exact (congrArg (Regs.x · i) hregs).trans (Regs.x_setX_ne _ _ (Ne.symm hi))
  · rw [hregs]
    refine ⟨rfl, rfl, rfl, rfl, rfl, rfl, rfl, rfl, rfl, rfl, fun _ => exec_mfocr_byteAt h, ?_⟩
    obtain ⟨v, rfl⟩ : ∃ v, t = ((s.drawn 2).writeGpr rt v).advance := ⟨_, exec_mfocr_eq h⟩
    exact ⟨fun h1 => ⟨State.writeGpr_mem_of_ne (s.drawn 2) v h1, State.writeGpr_draws_of_ne (s.drawn 2) v h1⟩,
      State.writeGpr_params (s.drawn 2) rt v, State.writeGpr_parked (s.drawn 2) rt v, State.writeGpr_baseState (s.drawn 2) rt v,
      State.writeGpr_activations (s.drawn 2) rt v, State.writeGpr_exits (s.drawn 2) rt v, State.writeGpr_threadPtr (s.drawn 2) rt v,
      State.writeGpr_reloadOwed (s.drawn 2) rt v, fun h1 => State.writeGpr_frames_of_ne (s.drawn 2) v h1,
      fun h1 h13 => congrArg (·.th.breaches) (State.writeGpr_plain (s.drawn 2) v h1 h13)⟩

/-- Settles O19: writeGpr marks r13 always, and r1 for what jumpBreaches finds. -/
theorem mfocrOntoReservedTargetsIsMarked : Obligations.MfocrOntoReservedTargetsIsMarked := by
  intro fxm s
  obtain ⟨t, ht, -⟩ := mfocrCompletes 13 fxm s
  obtain ⟨u, hu, -⟩ := mfocrCompletes 1 fxm s
  refine ⟨⟨t, ht, ?_⟩, u, hu, ?_⟩
  · rw [exec_mfocr_eq ht, State.writeGpr_thirteen]
    rfl
  · have hmarks : u.th.breaches = (((s.drawn 2).putSp (u.x 1)).th.jumpBreaches (u.x 1)).map Breach.abiViolation ++ s.th.breaches :=
      congrArg (·.th.breaches) (exec_mfocr_eq hu)
    rw [hmarks, marks_eq_self, List.map_eq_nil_iff, Thread.jumpBreaches_eq_nil, Thread.spNotRaised_iff]
    exact and_congr_right' and_comm

end Sys2Proof.Machine
end

section
/-! Proofs of the statements about the fields of the condition register that are nonvolatile (41_condition_register_mfocr.md R82), and about the registers a step without BaseISA leaves alone. -/

namespace Sys2Proof.Machine

/-! ## CR2, CR3 and CR4 (R80, R82) -/

theorem crPreservedMask_range (k : Fin 32) : crPreservedMask.getLsbD k.val = decide (12 ≤ k.val ∧ k.val < 24) := by revert k; decide

/-- CR[23:12] and the masked word are two ways to write one value. -/
theorem and_crPreservedMask (cr : CrWord) : cr &&& crPreservedMask = (cr.extractLsb' 12 12).setWidth 32 <<< 12 := by
  apply BitVec.eq_of_getLsbD_eq
  intro k hk
  rw [BitVec.getLsbD_and, crPreservedMask_range ⟨k, hk⟩, BitVec.getLsbD_shiftLeft, BitVec.getLsbD_setWidth, BitVec.getLsbD_extractLsb']
  by_cases hlow : k < 12
  · simp [hlow, not_le.mpr hlow]
  · have hplace : 12 + (k - 12) = k := by omega
    have hrange : k - 12 < 12 ↔ k < 24 := by omega
    have hj : k - 12 < 32 := by omega
    simp [hlow, not_lt.mp hlow, hk, hplace, hrange, hj, Bool.and_comm]

theorem extract_and_crPreservedMask (cr : CrWord) : (cr &&& crPreservedMask).extractLsb' 12 12 = cr.extractLsb' 12 12 := by
  have hall : crPreservedMask.extractLsb' 12 12 = BitVec.allOnes 12 := by decide
  rw [BitVec.extractLsb'_and, hall, BitVec.and_allOnes]

theorem crPreserved_eq_iff_extract {a b : CrWord} : a &&& crPreservedMask = b &&& crPreservedMask ↔ a.extractLsb' 12 12 = b.extractLsb' 12 12 := by
  constructor
  · intro h
    rw [← extract_and_crPreservedMask a, h, extract_and_crPreservedMask]
  · intro h
    rw [and_crPreservedMask, h, ← and_crPreservedMask]

/-- R80: of the condition register a Return looks at CR[23:12] alone. -/
theorem calleeBreaches_congr_cr (p : Params) (a : Activation) (t : Thread) {cr : CrWord}
    (h : cr &&& crPreservedMask = t.regs.cr &&& crPreservedMask) :
    calleeBreaches p a { t with regs := { t.regs with cr := cr } } = calleeBreaches p a t := by
  simp only [calleeBreaches, h]
  rfl

/-- Settles O38: R80's line for the condition register, and regsAfterCall field by field. -/
theorem conditionFieldsTwoToFourRestored : Obligations.ConditionFieldsTwoToFourRestored := by
  refine ⟨fun p a t => ?_, fun p a t cr h => calleeBreaches_congr_cr p a t (crPreserved_eq_iff_extract.mpr h), regsAfterCall_crf⟩
  have hline : AbiRule.returnCr ∈ calleeBreaches p a t ↔ ¬ ∀ n : Fin 8, 2 ≤ n.val → n.val ≤ 4 → crf t.regs.cr n = crf a.entry.cr n := by
    simp [mem_calleeBreaches]
  exact ⟨hline, hline.trans (not_congr ((crPreserved_iff _ _).symm.trans crPreserved_eq_iff_extract))⟩

/-! ## The registers a step leaves alone (R45, R46, R64, R83) -/

/-- Of the registers of a thread only the general ones and pc differ. -/
def SameButGprAndPc (r q : Regs) : Prop := ∃ gpr pc, q = { r with gpr := gpr, pc := pc }

theorem SameButGprAndPc.setX (r : Regs) (i : Fin 32) (v : Word) : SameButGprAndPc r (r.setX i v) := ⟨_, r.pc, rfl⟩

theorem SameButGprAndPc.withPc {r q : Regs} (h : SameButGprAndPc r q) (pc : Word) : SameButGprAndPc r { q with pc := pc } := by
  obtain ⟨gpr, pc', rfl⟩ := h
  exact ⟨gpr, pc, rfl⟩

theorem SameButGprAndPc.refl (r : Regs) : SameButGprAndPc r r := ⟨r.gpr, r.pc, rfl⟩

theorem allocFrame_sameButGprAndPc {s t : State} {size : Word} (h : allocFrame size s = .ok t) : SameButGprAndPc s.th.regs t.th.regs := by
  rcases allocFrame_ok h with ⟨-, rfl⟩ | ⟨-, -, rfl⟩ | ⟨-, -, rfl⟩
  · exact .refl _
  · exact .setX ..
  · exact .setX ..

/-- What an action does to the registers: only the two calls write others than the general ones and pc. -/
theorem perform_regs {act : Action} {s t : State} (h : perform act s = .next t) :
    (∃ c, act = .call c ∧ t = performCall c s) ∨ (∃ c, act = .callOpaque c) ∨ SameButGprAndPc s.th.regs t.th.regs := by
  rcases perform_next h with ⟨c, rfl, rfl⟩ | ⟨c, rfl, rfl⟩ | ⟨f, rfl, hr⟩ | ⟨rfl, u, hu, rfl⟩ | ⟨rfl, u, hu, rfl⟩ | ⟨size, rfl, u, hu, rfl⟩ | ⟨size, rfl, rfl⟩
  · exact .inl ⟨c, rfl, rfl⟩
  · exact .inr (.inl ⟨c, rfl⟩)
  · obtain ⟨a, rest, -, -, rfl⟩ := performReturn_ok hr
    exact .inr (.inr ((SameButGprAndPc.refl _).withPc _))
  · rw [(saveToc_ok hu).1]
    exact .inr (.inr ((SameButGprAndPc.refl _).withPc _))
  · rw [reloadToc_ok hu]
    exact .inr (.inr ((SameButGprAndPc.setX ..).withPc _))
  · exact .inr (.inr ((allocFrame_sameButGprAndPc hu).withPc _))
  · rw [State.advance_regs, freeFrame_regs]
    exact .inr (.inr ((SameButGprAndPc.setX ..).withPc _))

theorem exec_sameButGprAndPc {i : Instr} {s t : State} (h : exec i s = .next t) : SameButGprAndPc s.th.regs t.th.regs := by
  cases i with
  | mfocr rt fxm =>
    rw [execMfocr_regs h]
    exact (SameButGprAndPc.setX ..).withPc _

/-- The same of a step, which without BaseISA is an action's or an instruction's. -/
theorem step_regs {s t : State} (h : step s = .next t) : (∃ c, actionAt s = some (.call c) ∧ t = performCall c s.checkText) ∨
    (∃ c, actionAt s = some (.callOpaque c)) ∨ SameButGprAndPc s.th.regs t.th.regs := by
  rcases step_next h with ⟨act, hact, hp⟩ | ⟨-, w, i, -, -, he⟩
  · rcases perform_regs hp with ⟨c, rfl, ht⟩ | ⟨c, rfl⟩ | hsame
    · exact .inl ⟨c, hact, ht⟩
    · exact .inr (.inl ⟨c, hact⟩)
    · exact .inr (.inr hsame)
  · exact .inr (.inr (exec_sameButGprAndPc he :))

/-- Settles O53: a step that is no call writes general registers and pc, and a Call writes LR beside them. -/
theorem onlyCallsTouchSpecialRegisters : Obligations.OnlyCallsTouchSpecialRegisters := by
  intro s t h hopaque
  rcases step_regs h with ⟨c, hact, rfl⟩ | ⟨c, hact⟩ | ⟨gpr, pc, hregs⟩
  · rw [State.regs_eq, performCall_regs, entryRegs_rest]
    exact ⟨rfl, rfl, rfl, rfl, rfl, rfl, rfl, rfl, rfl, fun hcall => absurd hact (hcall c)⟩
  · exact absurd hact (hopaque c)
  · rw [State.regs_eq, hregs]
    exact ⟨rfl, rfl, rfl, rfl, rfl, rfl, rfl, rfl, rfl, fun _ => rfl⟩

end Sys2Proof.Machine
end

section
/-! Proofs of the statements about decimal floating-point parameters (42_fp_vector_registers_parameters.md R89, R96 to R100). -/

namespace Sys2Proof.Machine

/-! ## One parameter (R89, R98, R99) -/

/-- A parameter that is not quad-precision takes the next register, if that is one of f1 to f31. -/
theorem placeDfp_of_ne_quad {t : DfpType} (ht : t ≠ .quad) (c : DfpCursor) :
    placeDfp t c = if 1 ≤ c.next ∧ c.next < 32 then
      some ([c.next], { next := c.next + 1, skipped := c.skipped, doublewords := c.doublewords + dfpDoublewords t }) else none := by
  cases t with
  | single => simp [placeDfp, dfpSkip]
  | double => simp [placeDfp, dfpSkip]
  | quad => exact absurd rfl ht

/-- From an even register a pair starts there, if it is not that of f0 and the file has it. -/
theorem placeDfp_quad_of_even {c : DfpCursor} (heven : c.next % 2 = 0) :
    placeDfp .quad c = if 1 ≤ c.next ∧ c.next + 1 < 32 then
      some ([c.next, c.next + 1], { next := c.next + 2, skipped := c.skipped, doublewords := c.doublewords + 2 }) else none := by
  have hfits : ((1 ≤ c.next ∧ c.next < 32) ∧ c.next + 1 < 32) ↔ 1 ≤ c.next ∧ c.next + 1 < 32 := by omega
  simp [placeDfp, dfpSkip, dfpDoublewords, heven, hfits]

/-- From an odd register a pair starts at the one after it (90 C8), if the file has it. -/
theorem placeDfp_quad_of_odd {c : DfpCursor} (hodd : c.next % 2 = 1) :
    placeDfp .quad c = if c.next < 30 then
      some ([c.next + 1, c.next + 2], { next := c.next + 3, skipped := c.skipped ++ [c.next], doublewords := c.doublewords + 2 }) else none := by
  have hfits : (c.next + 1 < 32 ∧ c.next + 1 + 1 < 32) ↔ c.next < 30 := by omega
  simp [placeDfp, dfpSkip, dfpDoublewords, hodd, hfits]

/-- There is no pair past f31. -/
theorem placeDfp_quad_of_le {c : DfpCursor} (h : 31 ≤ c.next) : placeDfp .quad c = none := by
  rcases Nat.mod_two_eq_zero_or_one c.next with heven | hodd
  · rw [placeDfp_quad_of_even heven, if_neg (by omega)]
  · rw [placeDfp_quad_of_odd hodd, if_neg (by omega)]

/-- There is no place in f0 (R89) and none past f31 (log entry 27). -/
theorem placeDfp_outside_file (t : DfpType) {c : DfpCursor} (h : c.next = 0 ∨ 32 ≤ c.next) : placeDfp t c = none := by
  by_cases ht : t = .quad
  · subst ht
    rcases h with hzero | hpast
    · rw [placeDfp_quad_of_even (by omega), if_neg (by omega)]
    · exact placeDfp_quad_of_le (by omega)
  · rw [placeDfp_of_ne_quad ht, if_neg (by omega)]

/-! ## A sequence of parameters (R100) -/

theorem placeDfps_length {ts : List DfpType} {c c' : DfpCursor} {us : List (List Nat)} (h : placeDfps ts c = some (us, c')) :
    us.length = ts.length := by
  induction ts generalizing c us with
  | nil => cases h; rfl
  | cons t ts ih =>
    obtain ⟨u, c1, us', -, hrest, rfl⟩ := placeDfps_cons h
    simp [ih hrest]

/-- The doublewords consumed depend on the types alone. -/
theorem placeDfps_doublewords {ts : List DfpType} {c c' : DfpCursor} {us : List (List Nat)} (h : placeDfps ts c = some (us, c')) :
    c'.doublewords = c.doublewords + (ts.map dfpDoublewords).sum := by
  induction ts generalizing c us with
  | nil => cases h; rfl
  | cons t ts ih =>
    obtain ⟨u, c1, us', hfirst, hrest, rfl⟩ := placeDfps_cons h
    rw [ih hrest, (placeDfp_some hfirst).1, List.map_cons, List.sum_cons, Nat.add_assoc]

/-- Each parameter has the place that placing it alone gives from some cursor. -/
theorem placeDfps_getElem? {ts : List DfpType} {c c' : DfpCursor} {us : List (List Nat)} (h : placeDfps ts c = some (us, c'))
    {k : Nat} {u : List Nat} (hk : us[k]? = some u) : ∃ t d d', ts[k]? = some t ∧ placeDfp t d = some (u, d') := by
  induction ts generalizing c us k with
  | nil => cases h; simp at hk
  | cons t ts ih =>
    obtain ⟨u', c1, us', hfirst, hrest, rfl⟩ := placeDfps_cons h
    cases k with
    | zero =>
      obtain rfl : u' = u := by simpa using hk
      exact ⟨t, c, c1, rfl, hfirst⟩
    | succ k => exact ih hrest hk

/-- Settles O55: what a sequence gives each parameter by induction over it, the choice of the register by the parity of the next one. -/
theorem quadDfpOccupiesAnEvenOddPair : Obligations.QuadDfpOccupiesAnEvenOddPair := by
  refine ⟨fun ts c c' us h => ⟨placeDfps_length h, placeDfps_doublewords h, fun k u hk => ?_⟩, fun c heven hzero hlt => ?_,
    fun c hodd hlt => ?_, fun c => placeDfp_quad_of_le, fun t c ht hlow hlt => ?_, fun t c => placeDfp_outside_file t⟩
  · obtain ⟨t, d, d', ht, hplace⟩ := placeDfps_getElem? h hk
    obtain ⟨-, hquad, hother⟩ := placeDfp_some hplace
    rw [ht]
    exact ⟨fun e => hquad (Option.some.inj e), fun e => hother fun e' => e (congrArg some e')⟩
  · rw [placeDfp_quad_of_even heven, if_pos (by omega)]
  · rw [placeDfp_quad_of_odd hodd, if_pos hlt]
  · rw [placeDfp_of_ne_quad ht, if_pos ⟨hlow, hlt⟩]

/-- Settles O56: from either cursor the count grows by the sum over the types. -/
theorem skippedRegistersSkipNoDoublewords : Obligations.SkippedRegistersSkipNoDoublewords := by
  intro ts c d c' d' us vs hc hd
  rw [placeDfps_doublewords hc, placeDfps_doublewords hd]
  omega

/-! ## The values (R96 to R99) -/

@[simp] theorem State.f_writeFpr_same (s : State) (i : Fin 32) (w : Word) : (s.writeFpr i w).th.regs.f i = w :=
  (State.f_writeFpr s i w i).trans (if_pos rfl)

theorem State.f_writeFpr_ne (s : State) {i j : Fin 32} (w : Word) (h : j ≠ i) : (s.writeFpr i w).th.regs.f j = s.th.regs.f j :=
  (State.f_writeFpr s i w j).trans (if_neg h)

/-- Two floating-point registers written one after the other. -/
theorem State.f_writeFpr_writeFpr (s : State) {i j : Fin 32} (hij : i ≠ j) (a b : Word) :
    ((s.writeFpr i a).writeFpr j b).th.regs.f i = a ∧ ((s.writeFpr i a).writeFpr j b).th.regs.f j = b ∧
    ∀ k, k ≠ i → k ≠ j → ((s.writeFpr i a).writeFpr j b).th.regs.f k = s.th.regs.f k := by
  refine ⟨?_, State.f_writeFpr_same .., fun k hi hj => ?_⟩
  · rw [State.f_writeFpr_ne _ _ hij, State.f_writeFpr_same]
  · rw [State.f_writeFpr_ne _ _ hj, State.f_writeFpr_ne _ _ hi]

/-- Settles O57: each of the three is one write of f[i], after a draw or not. -/
theorem singleDfpOccupiesTheLowerHalf : Obligations.SingleDfpOccupiesTheLowerHalf := by
  intro i d w s
  have hsingle : (passDfpSingle i d s).regs.f i = (Config.drawWord s.draws).setWidth 32 ++ d := State.f_writeFpr_same ..
  refine ⟨?_, ?_, State.f_writeFpr_same .., State.f_writeFpr_same .., fun j hj => ⟨?_, ?_, ?_⟩, fun j => ⟨?_, ?_, ?_⟩⟩
  · rw [hsingle]; exact BitVec.extractLsb'_append_eq_right
  · rw [hsingle]; exact BitVec.extractLsb'_append_eq_left
  · exact State.f_writeFpr_ne (s.drawn 1) _ hj
  · exact State.f_writeFpr_ne s _ hj
  · exact State.f_writeFpr_ne (s.drawn 1) _ hj
  · exact State.v_writeFpr (s.drawn 1) ..
  · exact State.v_writeFpr s ..
  · exact State.v_writeFpr (s.drawn 1) ..

theorem pairEven_ne_pairOdd (j : Fin 16) : pairEven j ≠ pairOdd j := fun e => by
  have hval : 2 * j.val = 2 * j.val + 1 := congrArg Fin.val e
  omega

/-- Settles O58: the two halves, written to two registers, append to the value. -/
theorem quadDfpFillsThePair : Obligations.QuadDfpFillsThePair := by
  intro j d s
  obtain ⟨heven, hodd, hother⟩ := State.f_writeFpr_writeFpr s (pairEven_ne_pairOdd j) (d.extractLsb' 64 64) (d.extractLsb' 0 64)
  refine ⟨?_, hother⟩
  calc (passDfpQuad j d s).regs.f (pairEven j) ++ (passDfpQuad j d s).regs.f (pairOdd j)
      = d.extractLsb' 64 64 ++ d.extractLsb' 0 64 := congrArg₂ (· ++ ·) heven hodd
    _ = d := BitVec.extractLsb'_append_extractLsb'

end Sys2Proof.Machine
end

section
/-! Proofs of the statements about parameters in the IEEE binary128 format and in IBM extended precision (42_fp_vector_registers_parameters.md R107 to R109). -/

namespace Sys2Proof.Machine

/-! ## IEEE binary128 (R107) -/

/-- The one register placement can give. -/
theorem placeBinary128_some {next r after : Nat} (h : placeBinary128 next = some (r, after)) : 2 ≤ r ∧ r ≤ 13 := by
  unfold placeBinary128 at h
  split at h
  · next hrange => cases h; exact hrange
  · cases h

/-- Settles O59: the value is written through the vector view. -/
theorem binary128TakesOneVectorRegister : Obligations.Binary128TakesOneVectorRegister := by
  intro next r after q s h
  obtain ⟨hlow, hhigh⟩ := placeBinary128_some h
  refine ⟨hlow, hhigh, (State.v_writeVr ..).trans (if_pos rfl), State.f_writeVr s _ q, fun j hj => (State.v_writeVr ..).trans (if_neg ?_), rfl⟩
  rintro rfl
  exact hj (Nat.mod_eq_of_lt (by omega))

/-! ## Where the two doubles of IBM extended precision go (R108, R109) -/

theorem DoubleHome.outsideFpr_iff (h : DoubleHome) : h.outsideFpr = true ↔ ∀ i, h ≠ .fpr i := by
  cases h <;> simp [DoubleHome.outsideFpr]

/-- From f13 the second double goes elsewhere, if that is not a floating-point register. -/
theorem placeIbmExtended_thirteen (elsewhere : DoubleHome) :
    placeIbmExtended 13 elsewhere = if elsewhere.outsideFpr = true then some (.fpr 13, elsewhere, 14) else none := by
  simp [placeIbmExtended]

/-- With none of f1 to f13 left there is no place (log entry 28). -/
theorem placeIbmExtended_none {next : Nat} (elsewhere : DoubleHome) (h : next = 0 ∨ 13 < next) : placeIbmExtended next elsewhere = none := by
  rw [placeIbmExtended, if_neg (by omega), if_neg (by omega)]

/-! ## What passing them does -/

theorem State.x_writeFpr (s : State) (i : Fin 32) (w : Word) (j : Fin 32) : (s.writeFpr i w).th.regs.x j = s.th.regs.x j := rfl

theorem State.byteAt_writeFpr (s : State) (i : Fin 32) (w : Word) (b : Nat) : (s.writeFpr i w).byteAt b = s.byteAt b := rfl

/-- The first double is in its floating-point register before the second is passed. -/
theorem passIbmExtended_fpr (n : Nat) (home : DoubleHome) (v1 v2 : Word) (s : State) :
    passIbmExtended (.fpr n) home v1 v2 s = passDouble home v2 (s.writeFpr (Fin.ofNat 32 n) v1) := rfl

/-- Two successive registers of f1 to f13 are set and no other f. -/
theorem passIbmExtended_two_fprs {n : Nat} (v1 v2 : Word) (s : State) (hn : n ≤ 12) :
    ∃ t, passIbmExtended (.fpr n) (.fpr (n + 1)) v1 v2 s = .ok t ∧ t.regs.f (Fin.ofNat 32 n) = v1 ∧ t.regs.f (Fin.ofNat 32 (n + 1)) = v2 ∧
      ∀ i : Fin 32, i.val ≠ n → i.val ≠ n + 1 → t.regs.f i = s.regs.f i := by
  have hfst : (Fin.ofNat 32 n).val = n := Nat.mod_eq_of_lt (by omega)
  have hsnd : (Fin.ofNat 32 (n + 1)).val = n + 1 := Nat.mod_eq_of_lt (by omega)
  have hne : Fin.ofNat 32 n ≠ Fin.ofNat 32 (n + 1) := fun e => by have := congrArg Fin.val e; omega
  obtain ⟨h1, h2, hother⟩ := State.f_writeFpr_writeFpr s hne v1 v2
  refine ⟨_, passIbmExtended_fpr .., h1, h2, fun i hi hi' => hother i ?_ ?_⟩
  · rintro rfl; exact hi hfst
  · rintro rfl; exact hi' hsnd

/-- f13 and a general register are set, no other register of either file, and no byte that r1, if it is the one, does not come below (R113). -/
theorem passIbmExtended_gpr (i : Fin 32) (v1 v2 : Word) (s : State) :
    ∃ t, passIbmExtended (.fpr 13) (.gpr i) v1 v2 s = .ok t ∧ t.regs.f 13 = v1 ∧ t.x i = v2 ∧ (∀ j, j ≠ 13 → t.regs.f j = s.regs.f j) ∧
      (∀ j, j ≠ i → t.x j = s.x j) ∧ ∀ b, (i = 1 → b < v2.toNat ∨ (s.x 1).toNat ≤ b) → t.byteAt b = s.byteAt b := by
  have hregs : ((s.writeFpr 13 v1).writeGpr i v2).th.regs = (s.writeFpr 13 v1).th.regs.setX i v2 := State.writeGpr_regs ..
  refine ⟨(s.writeFpr 13 v1).writeGpr i v2, passIbmExtended_fpr .., ?_, ?_, fun j hj => ?_, fun j hj => ?_, fun b hb => ?_⟩
  · rw [State.regs_eq, hregs, Regs.f_setX, State.f_writeFpr_same]
  · rw [State.x_eq, hregs, Regs.x_setX_same]
  · rw [State.regs_eq, hregs, Regs.f_setX, State.f_writeFpr_ne _ _ hj, State.regs_eq]
  · rw [State.x_eq, hregs, Regs.x_setX_ne _ _ (Ne.symm hj), State.x_writeFpr, State.x_eq]
  · exact (State.writeGpr_outside (s.writeFpr 13 v1) i v2 hb).trans (State.byteAt_writeFpr ..)

/-- f13 and a doubleword of memory are set, no other f, no general register and no other byte. -/
theorem passIbmExtended_memory {a v1 v2 : Word} {s t : State} (h : passIbmExtended (.fpr 13) (.memory a) v1 v2 s = .ok t) :
    t.regs.f 13 = v1 ∧ t.contentWord a = v2 ∧ (∀ j, j ≠ 13 → t.regs.f j = s.regs.f j) ∧ (∀ j, t.x j = s.x j) ∧
      ∀ b, (∀ i < 8, byteAddr a i ≠ b) → t.byteAt b = s.byteAt b := by
  obtain ⟨rfl, -, -⟩ := State.memWrite_ok h
  exact ⟨State.f_writeFpr_same .., State.contentWord_storeValue .., fun j hj => State.f_writeFpr_ne s v1 hj, fun j => State.x_writeFpr s 13 v1 j,
    fun b hb => (State.byteAt_storeValue_outside _ a 8 _ b hb).trans (State.byteAt_writeFpr ..)⟩

/-- Settles O60: placement by the next register, and passing by the home of the second double. -/
theorem ibmExtendedTakesTwoSuccessiveRegisters : Obligations.IbmExtendedTakesTwoSuccessiveRegisters := by
  refine ⟨fun next elsewhere hlow hhigh => if_pos ⟨hlow, hhigh⟩, fun h1 h2 after elsewhere h => ?_, fun elsewhere he => ?_,
    fun next elsewhere => placeIbmExtended_none elsewhere, fun n v1 v2 s _ hn => passIbmExtended_two_fprs v1 v2 s hn, passIbmExtended_gpr,
    fun a v1 v2 s t => passIbmExtended_memory, fun next => rfl⟩
  · rw [placeIbmExtended_thirteen] at h
    split at h
    · next hout => cases h; exact ⟨rfl, rfl, (DoubleHome.outsideFpr_iff _).mp hout⟩
    · cases h
  · rw [placeIbmExtended_thirteen, if_pos ((DoubleHome.outsideFpr_iff _).mpr he)]
    rfl

end Sys2Proof.Machine
end

section
/-! Proofs of the statements about marks and about the bytes below the stack pointer (60_exceptions.md R111, R113). -/

namespace Sys2Proof.Machine

/-! ## Marks (R111) -/

/-- Settles O50: the marks of the program text at pc are put before the old ones, and the rest of the step keeps both. -/
theorem marksAreNeverCleared : Obligations.MarksAreNeverCleared :=
  fun _ _ _ h => (List.suffix_append _ _).trans (checkText_breaches_suffix h)

/-! ## Reads below r1 (R113) -/

theorem State.readByte_eq (s : State) (a k : Nat) : s.readByte a k = if a < (s.x 1).toNat then Config.drawByte k else s.byteAt a := by
  rw [State.readByte, State.shifting]
  exact if_congr decide_eq_true_iff rfl rfl

/-- The bytes a MemRead finds, each with the draw it may use. -/
def State.bytesRead (s : State) (a : Word) (n : Nat) : List Byte := (List.range n).map fun i => s.readByte (byteAddr a i) (s.draws + i)

theorem State.readValue_bytesRead (s : State) (a : Word) (n : Nat) :
    s.readValue a n = BitVec.ofNat (8 * n) (joinBytes s.params.byteOrder (s.bytesRead a n)) := rfl

theorem State.bytesRead_length (s : State) (a : Word) (n : Nat) : (s.bytesRead a n).length = n := by simp [State.bytesRead]

theorem State.bytesRead_getElem? (s : State) (a : Word) {n i : Nat} (hi : i < n) : (s.bytesRead a n)[i]? =
    some (if byteAddr a i < (s.x 1).toNat then Config.drawByte (s.draws + i) else s.byteAt (byteAddr a i)) := by
  rw [State.bytesRead, List.getElem?_map, List.getElem?_range hi, Option.map_some, State.readByte_eq]

/-- Below r1 the bytes read are draws, whatever memory holds. -/
theorem State.bytesRead_below (s : State) (a : Word) {n : Nat} (h : ∀ i < n, byteAddr a i < (s.x 1).toNat) :
    s.bytesRead a n = (List.range n).map fun i => Config.drawByte (s.draws + i) :=
  List.map_congr_left fun i hi => by rw [State.readByte_eq, if_pos (h i (List.mem_range.mp hi))]

/-! ## Bytes that r1 comes below (R113) -/

/-- A write of r1 leaves a draw in each byte from its new value up to the old one, program text apart. -/
theorem State.writeGpr_one_inside (s : State) {v : Word} {b : Nat} (hv : v.toNat ≤ b) (hb : b < (s.x 1).toNat) (hc : holdsCode s.params b = false) :
    (s.writeGpr 1 v).byteAt b = Config.drawByte (s.draws + (b - v.toNat)) :=
  s.putSp_inside v hv hb hc

/-- `mfocr` onto r1 uses its own two draws and one for each byte r1 comes below. -/
theorem exec_mfocr_one_draws {fxm : BitVec 8} {s t : State} (h : exec (.mfocr 1 fxm) s = .next t) :
    t.draws = s.draws + 2 + ((s.x 1).toNat - (t.x 1).toNat) :=
  congrArg State.draws (exec_mfocr_eq h)

theorem exec_mfocr_one_inside {fxm : BitVec 8} {s t : State} (h : exec (.mfocr 1 fxm) s = .next t) {b : Nat} (ht : (t.x 1).toNat ≤ b)
    (hb : b < (s.x 1).toNat) (hc : holdsCode s.params b = false) : t.byteAt b = Config.drawByte (s.draws + 2 + (b - (t.x 1).toNat)) :=
  calc t.byteAt b = (((s.drawn 2).writeGpr 1 (t.x 1)).advance).byteAt b := congrArg (State.byteAt · b) (exec_mfocr_eq h)
    _ = ((s.drawn 2).writeGpr 1 (t.x 1)).byteAt b := State.byteAt_advance _ b
    _ = _ := (s.drawn 2).writeGpr_one_inside ht hb hc

/-- A frame taken without passing address 0 brings r1 below as many bytes as the frame has. -/
theorem State.exposed_sub (s : State) {size : Word} (h : size.toNat ≤ (s.x 1).toNat) : s.exposed (s.x 1 - size) = size.toNat := by
  rw [State.exposed, BitVec.toNat_sub_of_le h]
  omega

theorem allocFrame_draws {s t : State} {size : Word} (hs : size.toNat ≤ (s.x 1).toNat) (h : allocFrame size s = .ok t) :
    t.draws = s.draws + size.toNat := by
  rcases allocFrame_ok h with ⟨rfl, rfl⟩ | ⟨-, -, rfl⟩ | ⟨-, -, rfl⟩
  · rfl
  · exact congrArg (s.draws + ·) (s.exposed_sub hs)
  · exact congrArg (s.draws + ·) (s.exposed_sub hs)

/-- A frame's bytes are draws, but for the back chain, which is stored after them, and for program text. -/
theorem allocFrame_inside {s t : State} {size : Word} (hs : size.toNat ≤ (s.x 1).toNat) (h : allocFrame size s = .ok t) {i : Nat} (hi : i < size.toNat)
    (hchain : s.params.backchainsMaintained = true → 8 ≤ i) (hc : holdsCode s.params (byteAddr (s.x 1 - size) i) = false) :
    t.byteAt (byteAddr (s.x 1 - size) i) = Config.drawByte (s.draws + i) := by
  have hdrawn := lowerSp_inside s hs hi hc
  rcases allocFrame_ok h with ⟨rfl, -⟩ | ⟨-, -, rfl⟩ | ⟨-, hm, rfl⟩
  · exact absurd hi (Nat.not_lt_zero i)
  · exact hdrawn
  · refine (State.byteAt_storeValue_outside _ _ _ _ _ fun j hj e => ?_).trans hdrawn
    have h8 := hchain hm
    have hlt := size.isLt
    have hji : j = i := byteAddr_injective _ (by omega) (by omega) e
    omega

/-- Settles O27: what a MemRead finds byte by byte, and the draws left by each way of lowering r1. -/
theorem bytesBelowStackPointerAreDraws : Obligations.BytesBelowStackPointerAreDraws := by
  refine ⟨fun s t a v h hbelow => ?_, fun s t a n v h => ?_, fun fxm s => ?_, fun s t size hs h => ?_, fun s v b => s.writeGpr_one_inside⟩
  · obtain ⟨rfl, rfl⟩ := Prod.mk.inj (State.readSlot_ok h).1
    exact ⟨by rw [State.readValue_bytesRead, s.bytesRead_below a hbelow], rfl⟩
  · obtain ⟨rfl, rfl⟩ := Prod.mk.inj (State.memRead_ok h).1
    exact ⟨rfl, s.bytesRead a n, s.bytesRead_length a n, s.readValue_bytesRead a n, fun i hi => s.bytesRead_getElem? a hi⟩
  · obtain ⟨t, ht, -⟩ := mfocrCompletes 1 fxm s
    exact ⟨t, ht, exec_mfocr_one_draws ht, fun b => exec_mfocr_one_inside ht⟩
  · exact ⟨allocFrame_draws hs h, fun i => allocFrame_inside hs h⟩

end Sys2Proof.Machine
end

section
/-! Proofs of the statements about reset, the launch of a function and the end of its run (70_reset_and_hazards.md R117 to R119, R122). -/

namespace Sys2Proof.Machine

/-! ## Reset (R117) -/

theorem Regs.x_reset (i : Fin 32) : Regs.reset.x i = 0 := by revert i; decide

/-- With one frame there is no older one to point to (R78). -/
theorem backChainsHold_of_single {s : State} {f : Word} (h : s.th.frames = [f]) : BackChainsHold s :=
  fun _ => (chainHolds_iff s _).mp (by rw [h]; rfl)

theorem stackHolds_reset : StackHolds Thread.reset where
  aligned := by rw [Thread.reset, Regs.x_reset]; rfl
  lowest := by rw [Thread.reset, Regs.x_reset]; rfl
  rising := List.pairwise_singleton _ _
  framesAligned := fun f hf => by rw [List.mem_singleton.mp hf]; rfl
  belowEntry := fun a ha => absurd ha List.not_mem_nil
  nested := .nil
  threadPointer := Regs.x_reset 13

/-- Settles O48: every register is 0, no cell is listed, and the one frame is at r1. -/
theorem resetMeetsTheInvariant : Obligations.ResetMeetsTheInvariant := by
  refine ⟨⟨⟨⟨.nil, fun c hc => absurd hc List.not_mem_nil⟩, BitVec.zero_and, rfl, by decide, fun a ha => absurd ha List.not_mem_nil,
    fun _ => stackHolds_reset⟩, fun _ => backChainsHold_of_single rfl⟩, rfl⟩

/-! ## A function entered by a Call (R118) -/

/-- Settles O32: the Call met R45's requirements, and the rest is the invariant of its caller. -/
theorem enteredFunctionHasLaunchPremises : Obligations.EnteredFunctionHasLaunchPremises := by
  intro c s t hinv hs h ht
  obtain rfl : performCall c s = t := by injection h
  obtain ⟨hmarks, -⟩ := List.append_eq_nil_iff.mp ht
  obtain ⟨hsp, htoc, -, htarget, -⟩ := callMarks_eq_nil_iff.mp hmarks
  have hstack := hinv.stack hs
  have hchain : BackChainsHold (performCall c s) := (hinv.chain hs).of_same rfl rfl rfl rfl
  have hx : ∀ i : Fin 32, i ≠ 0 → i ≠ 11 → i ≠ 12 → (performCall c s).x i = s.th.regs.x i := fun i h0 h11 h12 => entryRegs_x h0 h11 h12
  have hx1 := hx 1 (by decide) (by decide) (by decide)
  refine ⟨hchain, _, ⟨rfl, rfl⟩, ⟨rfl, rfl⟩, rfl, rfl, rfl, ?_, ⟨?_, hstack.rising⟩, hchain.newest, entryRegs_lr .., fun hk => ?_, fun e he => ?_, ?_, ?_, ht⟩
  · rw [hx1]; exact hsp
  · rw [hx1]; exact hstack.lowest
  · exact (entryRegs_x12_global hk).trans ((htarget hk).trans (entryRegs_pc ..).symm)
  · exact entryRegs_x11.trans (congrArg (fun o : Option Word => o.getD _) he)
  · rw [hx 2 (by decide) (by decide) (by decide)]; exact htoc
  · rw [hx 13 (by decide) (by decide) (by decide)]; exact hstack.threadPointer

/-! ## Boot (R119) -/

/-- A region and the bytes from `v` up to `top` have none in common. -/
theorem regionMisses_iff {r : Region} {v top : Nat} :
    regionMisses r v top = true ↔ ∀ b, v ≤ b → b < top → ¬ (r.base ≤ b ∧ b < r.base + r.size) := by
  rw [regionMisses, decide_eq_true_eq]
  refine ⟨fun h b hv ht => by omega, fun h => ?_⟩
  by_contra hlt
  exact h (max v r.base) (by omega) (by omega) ⟨by omega, by omega⟩

theorem inStackRegion_iff {p : Params} {r : Region} {v top : Nat} : inStackRegion p r v top = true ↔
    r.kind = .stack ∧ (r.base ≤ v ∧ top ≤ r.base + r.size) ∧
    ∀ q ∈ p.memmap, q.kind ≠ .stack → ∀ b, v ≤ b → b < top → ¬ (q.base ≤ b ∧ b < q.base + q.size) := by
  simp only [inStackRegion, regionHolds, Bool.and_eq_true, Bool.or_eq_true, List.all_eq_true, decide_eq_true_eq, beq_iff_eq, regionMisses_iff, and_assoc,
    or_iff_not_imp_left, ne_eq]

theorem firstFrameOk_iff {p : Params} {stack : Region} {sp : Word} : firstFrameOk p stack sp = true ↔
    stack ∈ p.memmap ∧ stack.kind = .stack ∧ sp.toNat % 16 = 0 ∧ stack.base ≤ sp.toNat ∧ sp.toNat + 16 ≤ stack.base + stack.size ∧
    ∀ q ∈ p.memmap, q.kind ≠ .stack → ∀ b, sp.toNat ≤ b → b < sp.toNat + 16 → ¬ (q.base ≤ b ∧ b < q.base + q.size) := by
  simp only [firstFrameOk, Bool.and_eq_true, List.contains_iff_mem, quadAligned_iff, inStackRegion_iff, quadwordBytes, and_assoc, and_left_comm]

@[simp] theorem launch_regs (c : CallSite) (s : State) : (launch c s).th.regs = s.th.regs := rfl

/-- The registers boot software leaves the first function: r2, r12 on GLOBAL entry, and r11 where there is an environment pointer.
The three are different registers, so the order of the writes does not show. -/
theorem enterFirst_x (c : CallSite) (toc : Word) (s : State) (i : Fin 32) : (enterFirst c toc s).th.regs.x i =
    if 11 = i then c.env.getD (s.th.regs.x 11)
    else if 12 = i then (if c.kind = .globalEntry then c.target else s.th.regs.x 12)
    else if 2 = i then toc else s.th.regs.x i := by
  simp only [enterFirst, launch_regs, State.setRegs_regs, State.regs_eq, Regs.x_withGpr]
  cases c.kind <;> cases c.env <;> simp only [Regs.x_setX] <;> grind

/-- R118: a thread with one frame at its r1, its own thread pointer and no mark has the launch premises once its first function is entered with a legal TOC pointer. -/
theorem enterFirst_launchPremises {c : CallSite} {toc : Word} {s : State} (hu : Unmarked s) (hsp : (s.th.regs.x 1).toNat % 16 = 0)
    (hf : s.th.frames = [s.th.regs.x 1]) (htp : s.th.regs.x 13 = s.th.threadPtr) (htoc : tocLegal s.params c.caller toc = true) :
    ∃ a, LaunchPremises (enterFirst c toc s) a := by
  have hx1 : (enterFirst c toc s).th.regs.x 1 = s.th.regs.x 1 := by simp [enterFirst_x]
  have hx2 : (enterFirst c toc s).th.regs.x 2 = toc := by simp [enterFirst_x]
  have hx13 : (enterFirst c toc s).th.regs.x 13 = s.th.regs.x 13 := by simp [enterFirst_x]
  have hframes : (enterFirst c toc s).th.frames = [(enterFirst c toc s).th.regs.x 1] := hf.trans (by rw [hx1])
  refine ⟨_, ⟨rfl, rfl⟩, ⟨rfl, rfl⟩, rfl, rfl, rfl, ?_, ⟨?_, ?_⟩, (backChainsHold_of_single hframes).newest, rfl, fun hk => ?_, fun e he => ?_,
    ?_, hx13.trans htp, hu⟩
  · rw [State.x_eq, hx1]; exact hsp
  · rw [hframes]; rfl
  · rw [hframes]; exact List.pairwise_singleton _ _
  · exact (enterFirst_x c toc s 12).trans (if_pos hk)
  · exact (enterFirst_x c toc s 11).trans (congrArg (fun o : Option Word => o.getD _) he)
  · rw [State.x_eq, hx2]; exact htoc

/-- Settles O33: `firstFrameOk` in words, and the registers, frames and memory `enterFirst` leaves. -/
theorem bootGivesLaunchPremises : Obligations.BootGivesLaunchPremises := by
  refine ⟨fun s stack sp tp => ?_, fun s t stack sp tp toc c hu hboot htoc => ?_⟩
  · simp only [bootThread_some, exists_and_left, exists_eq, and_true]
    exact firstFrameOk_iff
  · obtain ⟨hok, rfl⟩ := bootThread_some.mp hboot
    obtain ⟨-, -, hsp, -⟩ := firstFrameOk_iff.mp hok
    have hx1 : ((s.th.regs.setX 1 sp).setX 13 tp).x 1 = sp := by rw [Regs.x_setX_ne _ _ (by decide), Regs.x_setX_same]
    have hx13 : ((s.th.regs.setX 1 sp).setX 13 tp).x 13 = tp := Regs.x_setX_same ..
    refine ⟨?_, rfl, ?_, ?_, fun b => State.byteAt_congr rfl rfl rfl b, enterFirst_launchPremises hu ?_ ?_ hx13 htoc⟩
    · exact (enterFirst_x ..).trans hx1
    · exact enterFirst_x ..
    · exact (enterFirst_x ..).trans hx13
    · rw [hx1]; exact hsp
    · rw [hx1]

/-! ## The end of a run (R122) -/

/-- The Return of the running function, its obligations met and no reload owed, marks nothing. -/
theorem perform_ret_of_obligations {s : State} {a : Activation} {rest : List Activation} (ha : s.th.activations = a :: rest)
    (hmet : CalleeObligations s.params a s.th) (howed : s.th.reloadOwed = false) : perform (.ret a.callee) s = .next (leaveFunction a rest s) := by
  simp only [perform, performReturn_running ha, returnBreaches_eq_nil.mpr ⟨hmet, howed⟩, andThen]
  rfl

theorem runEnded_leaveFunction {start s : State} {a : Activation} {rest : List Activation} (hstart : start.th.activations = a :: rest) (hu : Unmarked s) :
    RunEnded start (leaveFunction a rest s) :=
  ⟨hu, a, rest, hstart, rfl, rfl⟩

/-- An instruction after the end moves pc and records no exit, so the state is no longer the exit recorded last. -/
theorem RunEnded.not_after_exec {start t u : State} {i : Instr} (hend : RunEnded start t) (h : exec i t = .next u) : ¬ RunEnded start u := by
  cases i with
  | mfocr rt fxm =>
    obtain ⟨-, a, -, -, -, ht⟩ := hend
    rintro ⟨-, b, -, -, -, hu⟩
    have hexits : u.th.exits = t.th.exits := by
      rw [exec_mfocr_eq h]
      exact State.writeGpr_exits (t.drawn 2) ..
    have hpc : u.th.regs.pc = t.th.regs.pc + 4 := by rw [execMfocr_regs h]
    rw [hexits, ht, Option.some.injEq] at hu
    have hsame : t.th.regs.pc = u.th.regs.pc := congrArg (·.regs.pc) hu
    bv_omega

/-! ## Program P5 (95_test_vectors.md) -/

/-- Where no TOC-derived value is used at pc the program text leaves no mark. -/
theorem State.checkText_eq_self {s : State} (h : ∀ u ∈ s.params.tocUses, u.addr ≠ s.pc.toNat) : s.checkText = s := by
  have hnone : s.params.tocUses.filter (fun u => u.addr == s.pc.toNat) = [] := List.filter_eq_nil_iff.mpr fun u hu => by simpa using h u hu
  rw [State.checkText, textBreaches, hnone]
  rfl

/-- Where no TOC-derived value is used at pc a step is the action's alone. -/
theorem step_of_action_of_no_use {s : State} {act : Action} (ha : actionAt s = some act) (h : ∀ u ∈ s.params.tocUses, u.addr ≠ s.pc.toNat) :
    step s = perform act s := by
  rw [step, stepWith_of_action _ ha, State.checkText_eq_self h]

/-- Where no action stands at pc either, it is the instruction's. -/
theorem step_of_fetch_of_no_use {s : State} {w : InsnWord} {i : Instr} (ha : actionAt s = none) (hw : fetch s = .ok w) (hi : decodeWord w = .ok i)
    (h : ∀ u ∈ s.params.tocUses, u.addr ≠ s.pc.toNat) : step s = exec i s := by
  rw [step, stepWith_of_fetch_ok _ ha hw, runWord_of_decodeWord _ _ hi, State.checkText_eq_self h]

/-- `mfocr` onto a register other than r1 and r13 writes it, uses its two draws and goes on. -/
theorem exec_mfocr_plain {rt : Fin 32} {fxm : BitVec 8} {s t : State} (h1 : rt ≠ 1) (h13 : rt ≠ 13) (h : exec (.mfocr rt fxm) s = .next t) :
    ∃ v, t = ((s.drawn 2).setRegs (s.th.regs.setX rt v)).advance :=
  ⟨t.x rt, (exec_mfocr_eq h).trans (congrArg State.advance (State.writeGpr_plain _ _ h1 h13))⟩

/-- R80: a function that has written one of r3 to r12 and pc since its entry, and nothing else, with nothing marked, has met its obligations. -/
theorem calleeObligations_of_setX {p : Params} {a : Activation} {t : Thread} {i : Fin 32} {v pc : Word} (hlow : 3 ≤ i.val) (hhigh : i.val ≤ 12)
    (hregs : t.regs = { a.entry.setX i v with pc := pc }) (hsp : (a.entry.x 1).toNat % 16 = 0) (hu : t.breaches = []) : CalleeObligations p a t := by
  have hx : ∀ j : Fin 32, j.val < 3 ∨ 12 < j.val → t.regs.x j = a.entry.x j := fun j hj => by
    rw [hregs]
    exact Regs.x_setX_ne _ _ (fun e => by omega)
  have hkept : limitedKept p a.callee a.entry t.regs = true := limitedKept_iff.mpr fun x _ => by
    rw [hregs]
    cases x <;> rfl
  have hsince : t.marksSince a.marksAtEntry = [] := by rw [Thread.marksSince, hu, List.take_nil]
  simp only [CalleeObligations, hsince, List.not_mem_nil, not_false_eq_true, and_true, false_implies, implies_true]
  exact ⟨hx 1 (by decide), fun j hj => hx j (by omega), fun _ => hx 2 (by decide), hx 13 (by decide), fun n _ _ => by rw [hregs]; rfl, fun j _ => by rw [hregs]; rfl,
    fun j _ => by rw [hregs]; rfl, hkept, hsp⟩

/-- A function just entered that has run `mfocr` onto one of r3 to r12 returns without a mark. -/
theorem perform_ret_after_mfocr {s t : State} {a : Activation} {rest : List Activation} {rt : Fin 32} {fxm : BitVec 8} (hl : LaunchPremises s a)
    (ha : s.th.activations = a :: rest) (hlow : 3 ≤ rt.val) (hhigh : rt.val ≤ 12) (h : exec (.mfocr rt fxm) s = .next t) :
    perform (.ret a.callee) t = .next (leaveFunction a rest t) := by
  obtain ⟨-, hentry⟩ := hl.entered
  obtain ⟨v, rfl⟩ := exec_mfocr_plain (by omega) (by omega) h
  refine perform_ret_of_obligations ha (calleeObligations_of_setX (v := v) (pc := s.pc + 4) hlow hhigh ?_ ?_ hl.noRefusal) hl.noReloadOwed
  · rw [hentry]; rfl
  · rw [hentry]; exact hl.spAligned

/-- Settles O43: the Return adds no mark and its state is the exit recorded; in P5 the function has written r3 and pc alone. -/
theorem launchedFunctionReturningEndsTheRun : Obligations.LaunchedFunctionReturningEndsTheRun := by
  refine ⟨fun start s a rest hstart ha hu hmet howed => ?_, fun start t u i => RunEnded.not_after_exec, fun s a hl haction hfetch hret huses => ?_⟩
  · exact ⟨_, perform_ret_of_obligations ha hmet howed, runEnded_leaveFunction hstart hu, rfl⟩
  · have hdecode : decodeWord 0x7C780026#32 = .ok (.mfocr 3 0x80#8) := by decide
    obtain ⟨hhead, hentry⟩ := hl.entered
    obtain ⟨rest, ha⟩ := List.head?_eq_some_iff.mp hhead
    obtain ⟨t, ht, -, -, hfill⟩ := mfocrMovesSelectedField 3 0 s
    have hfirst := (step_of_fetch_of_no_use haction hfetch hdecode fun u hu => (huses u hu).1).trans ht
    have hreturn := perform_ret_after_mfocr hl ha (by decide) (by decide) ht
    obtain ⟨v, rfl⟩ := exec_mfocr_plain (by decide) (by decide) ht
    have hsecond := (step_of_action_of_no_use (s := ((s.drawn 2).setRegs (s.th.regs.setX 3 v)).advance) hret fun u hu => (huses u hu).2).trans hreturn
    exact ⟨_, _, hfirst, hsecond, runEnded_leaveFunction ha hl.noRefusal, congrArg Regs.lr hentry, hfill, by simp [hentry], rfl,
      fun b => State.byteAt_congr rfl rfl rfl b⟩

end Sys2Proof.Machine
end
